-- ==== Sys2Proof/Word.lean ====
section
/-! DEFINITION. The plain types the whole model rests on: bytes, register words, binary floating-point data. -/

namespace Sys2Proof

/-- One byte of the data space. -/
abbrev Byte := BitVec 8

/-- One 32-bit register, command word or raw element (00_scope.md R6, R7). -/
abbrev Word := BitVec 32

/-- An IEEE 754 datum (00_scope.md R8). Finite data are exact dyadic numbers `(-1)^neg * sig * 2^exp`, held
with `sig` odd, or `sig = 0` and `exp = 0` for the two zeros, so that equal data are equal terms and a
binary32 value is the same term as its exact binary64 widening. `nan` stands for ANY NaN: sign and payload
are a draw, taken where the bits first become visible (log 6). -/
inductive Fp where
  | nan
  | inf (neg : Bool)
  | fin (neg : Bool) (sig : Nat) (exp : Int)
  deriving DecidableEq, Repr

/-- A binary interchange format: precision, exponent of the least significant subnormal bit, greatest
exponent of a finite value, width of the exponent field. -/
structure FpFormat where
  prec    : Nat
  lsbMin  : Int
  maxExp  : Int
  expBits : Nat
  deriving DecidableEq, Repr

/-- IEEE 754 binary32. -/
def binary32 : FpFormat := ⟨24, -149, 127, 8⟩

/-- IEEE 754 binary64. -/
def binary64 : FpFormat := ⟨53, -1074, 1023, 11⟩

/-- `+0.0`. -/
def Fp.posZero : Fp := .fin false 0 0

end Sys2Proof
end

