-- ==== Sys2Proof/Config.lean ====
section
/-! DEFINITION. What an instance of the hardware fixes (00_scope.md R4, R5, R6) and the free values the spec
leaves open. The parameters are plain data carried by the state; no step changes them (log 1). -/

namespace Sys2Proof

/-- SAMPLE_MODE (00_scope.md R4). -/
inductive SampleMode where
  | fixed
  | float
  deriving DecidableEq, Repr

/-- Element size in bytes (00_scope.md R4). -/
def SampleMode.esz : SampleMode → Nat
  | .fixed => 2
  | .float => 4

/-- ACC_BITS (00_scope.md R5): exactly two widths are admitted. -/
inductive AccBits where
  | w32
  | w64
  deriving DecidableEq, Repr

def AccBits.width : AccBits → Nat
  | .w32 => 32
  | .w64 => 64

/-- The kinds of data access MEM_OK tells apart (20_memory.md R69). -/
inductive AccessKind where
  | read
  | write
  deriving DecidableEq, Repr

/-- Accesses of `width` bytes and kind `kind` at an address in `[base, base + size)` that the platform does
not complete. A finite list of these represents every predicate MEM_OK over the 32-bit space (log 2). -/
structure BusHole where
  base  : Nat
  size  : Nat
  width : Nat
  kind  : AccessKind
  deriving DecidableEq, Repr

/-- The parameters of one instance (00_scope.md R4 to R6; 60_exceptions.md R247). -/
structure Config where
  sampleMode   : SampleMode
  accBits      : AccBits
  engineBase   : Nat
  busHoles     : List BusHole
  hostCoherent : Bool
  irqLine      : Nat
  deriving DecidableEq, Repr

/-- The parameters `State.reset` is given. DESIGN CHOICE (log 1): the spec leaves each of them open. -/
def Config.standard : Config :=
  { sampleMode := .fixed, accBits := .w32, engineBase := 0, busHoles := [], hostCoherent := true, irqLine := 0 }

/-- A byte the spec leaves unspecified: draw number, address (20_memory.md R77, R80; 60_exceptions.md R244;
70_reset_and_hazards.md R271; log 5). -/
opaque Config.freeByte : Nat → Nat → Byte

/-- What a byte of data memory holds that nothing has written: one free value per address (log 4). -/
opaque Config.powerOnByte : Nat → Byte

/-- Sign of a stored NaN: draw number, destination element (00_scope.md R8; log 6). -/
opaque Config.freeNanSign : Nat → Nat → Bool

/-- Trailing significand of a stored binary32 NaN, less one: every non-zero payload is possible
(00_scope.md R8; log 6). -/
opaque Config.freeNanPayload : Nat → Nat → Fin 8388607

end Sys2Proof
end

