-- ==== Sys2Proof/Machine/Float.lean ====
section
/-! DEFINITION. IEEE 754 arithmetic (00_scope.md R8): every operation computes the exact real, held as a dyadic
number with a sticky bit where it is not dyadic, and rounds it once. -/

namespace Sys2Proof.Machine

/-- The finite datum `(-1)^neg * m * 2^e`, in the canonical form of `Fp` (odd significand, or the zero): the power of
two in `m` moves into the exponent. -/
def fpExact (neg : Bool) (m : Nat) (e : Int) : Fp :=
  if m = 0 then .fin neg 0 0
  else
    let p := Nat.gcd m (2 ^ m.log2)
    .fin neg (m / p) (e + p.log2)

/-- The integer nearest `m / 2^s`, ties to even. -/
def shiftNearestEven (m s : Nat) : Nat :=
  let q := m / 2 ^ s
  let r := m % 2 ^ s
  if 2 ^ s < 2 * r ∨ (2 * r = 2 ^ s ∧ q % 2 = 1) then q + 1 else q

/-- The exponent of the last bit a format keeps of a number whose leading bit has exponent `top`. -/
def fpLastBit (f : FpFormat) (top : Int) : Int := max (top - (f.prec - 1)) f.lsbMin

/-- `rne64`, `rne32` (00_scope.md R8): the datum of format `f` nearest `(-1)^neg * m * 2^e` under
roundTiesToEven, with IEEE overflow to infinity. Subnormals are kept. -/
def fpRound (f : FpFormat) (neg : Bool) (m : Nat) (e : Int) : Fp :=
  if m = 0 then .fin neg 0 0
  else
    let q := fpLastBit f (e + m.log2)
    let n := shiftNearestEven (m * 2 ^ (e - q).toNat) (q - e).toNat
    if f.maxExp < q + n.log2 then .inf neg else fpExact neg n q

/-- The datum of a bit pattern (20_memory.md R62; 30_encoding.md R98): sign, biased exponent, fraction. -/
def fpDecode (f : FpFormat) (bits : Nat) : Fp :=
  let neg := decide (bits / 2 ^ (f.prec - 1 + f.expBits) % 2 = 1)
  let ex := bits / 2 ^ (f.prec - 1) % 2 ^ f.expBits
  let frac := bits % 2 ^ (f.prec - 1)
  if ex = 2 ^ f.expBits - 1 then (if frac = 0 then .inf neg else .nan)
  else if ex = 0 then fpExact neg frac f.lsbMin
  else fpExact neg (2 ^ (f.prec - 1) + frac) (f.lsbMin + ex - 1)

/-- The magnitude bits (exponent and fraction) of a finite value of format `f`. -/
def fpMagnitude (f : FpFormat) (m : Nat) (e : Int) : Nat :=
  if m = 0 then 0
  else
    let q := fpLastBit f (e + m.log2)
    m * 2 ^ (e - q).toNat + (q - f.lsbMin).toNat * 2 ^ (f.prec - 1)

/-- The bit pattern of a datum of format `f` (20_memory.md R62). The bits of a NaN are the argument `nanBits`. -/
def fpEncode (f : FpFormat) (nanBits : Nat) : Fp → Nat
  | .nan => nanBits
  | .inf neg => neg.toNat * 2 ^ (f.prec - 1 + f.expBits) + (2 ^ f.expBits - 1) * 2 ^ (f.prec - 1)
  | .fin neg m e => neg.toNat * 2 ^ (f.prec - 1 + f.expBits) + fpMagnitude f m e

/-- The binary32 datum of a word. Widening it to binary64 is the identity on data (00_scope.md R8: exact). -/
def fp32 (w : Word) : Fp := fpDecode binary32 w.toNat

/-- The binary64 datum of a 64-bit pattern. -/
def fp64 (bits : Nat) : Fp := fpDecode binary64 bits

/-- A NaN pattern of binary32, sign and payload free (00_scope.md R8; log 6): draw `d`, element `k`. -/
def freeNan32 (d k : Nat) : Nat :=
  (Config.freeNanSign d k).toNat * 2147483648 + 2139095040 + ((Config.freeNanPayload d k).val + 1)

/-- The stored word of a binary32 datum; a NaN takes the free pattern of draw `d`, element `k`. -/
def fp32Bits (d k : Nat) (x : Fp) : Word := BitVec.ofNat 32 (fpEncode binary32 (freeNan32 d k) x)

/-- The integer `(-1)^neg * m * 2^(e - e0)`, for `e0 ≤ e`. -/
def fpScaled (neg : Bool) (m : Nat) (e e0 : Int) : Int :=
  let v : Int := (m * 2 ^ (e - e0).toNat : Nat)
  if neg then -v else v

def fpNeg : Fp → Fp
  | .nan => .nan
  | .inf s => .inf (!s)
  | .fin s m e => .fin (!s) m e

/-- `rne64` of an integer: `f64(v)` for an integer v (00_scope.md R8). -/
def fpOfInt (v : Int) : Fp := fpRound binary64 (decide (v < 0)) v.natAbs 0

/-- `add64` (00_scope.md R8). An exact zero sum of opposite-signed operands is +0. -/
def add64 : Fp → Fp → Fp
  | .nan, _ => .nan
  | _, .nan => .nan
  | .inf s, .inf t => if s = t then .inf s else .nan
  | .inf s, .fin _ _ _ => .inf s
  | .fin _ _ _, .inf t => .inf t
  | .fin s m e, .fin t n g =>
    let e0 := min e g
    let v := fpScaled s m e e0 + fpScaled t n g e0
    if v = 0 then .fin (s && t) 0 0
    else fpRound binary64 (decide (v < 0)) v.natAbs e0

/-- `sub64` (00_scope.md R8). -/
def sub64 (a b : Fp) : Fp := add64 a (fpNeg b)

/-- `mul64` (00_scope.md R8). Infinity times zero is a NaN. -/
def mul64 : Fp → Fp → Fp
  | .nan, _ => .nan
  | _, .nan => .nan
  | .inf s, .inf t => .inf (s ^^ t)
  | .inf s, .fin t n _ => if n = 0 then .nan else .inf (s ^^ t)
  | .fin s m _, .inf t => if m = 0 then .nan else .inf (s ^^ t)
  | .fin s m e, .fin t n g => fpRound binary64 (s ^^ t) (m * n) (e + g)

/-- The binary64 quotient of two finite non-zero magnitudes: 55 or more quotient bits, then the remainder as a
sticky bit, then one rounding. -/
def fpQuotient (neg : Bool) (m : Nat) (e : Int) (n : Nat) (g : Int) : Fp :=
  let k := 55 + n.log2
  let a := m * 2 ^ k
  let sticky := if a % n = 0 then 0 else 1
  fpRound binary64 neg (2 * (a / n) + sticky) (e - g - k - 1)

/-- `div64` (00_scope.md R8). A non-zero finite number over zero is an infinity; zero over zero a NaN. -/
def div64 : Fp → Fp → Fp
  | .nan, _ => .nan
  | _, .nan => .nan
  | .inf _, .inf _ => .nan
  | .inf s, .fin t _ _ => .inf (s ^^ t)
  | .fin s _ _, .inf t => .fin (s ^^ t) 0 0
  | .fin s m e, .fin t n g =>
    if n = 0 then (if m = 0 then .nan else .inf (s ^^ t))
    else if m = 0 then .fin (s ^^ t) 0 0
    else fpQuotient (s ^^ t) m e n g

/-- The integer square root by trial bits: the greatest `r' = r + (a number below 2^b)` with `r'^2 ≤ n`. -/
def natSqrtFrom (n : Nat) : Nat → Nat → Nat
  | 0, r => r
  | b + 1, r => if (r + 2 ^ b) * (r + 2 ^ b) ≤ n then natSqrtFrom n b (r + 2 ^ b) else natSqrtFrom n b r

/-- The integer square root of `n`. -/
def natSqrt (n : Nat) : Nat := natSqrtFrom n (n.log2 / 2 + 1) 0

/-- The binary64 square root of a finite non-zero magnitude: 55 or more root bits, then a sticky bit, then one
rounding. -/
def fpRoot (m : Nat) (e : Int) : Fp :=
  let k := 110 + (e % 2).toNat
  let a := m * 2 ^ k
  let r := natSqrt a
  let sticky := if r * r = a then 0 else 1
  fpRound binary64 false (2 * r + sticky) ((e - k) / 2 - 1)

/-- `sqrt64` (00_scope.md R8). The root of -0 is -0; of a negative number a NaN. -/
def sqrt64 : Fp → Fp
  | .nan => .nan
  | .inf s => if s then .nan else .inf false
  | .fin s m e => if m = 0 then .fin s 0 0 else if s then .nan else fpRoot m e

/-- `lt64` (00_scope.md R8): ordered, false when either operand is a NaN. -/
def lt64 : Fp → Fp → Bool
  | .nan, _ => false
  | _, .nan => false
  | .inf s, .inf t => s && !t
  | .inf s, .fin _ _ _ => s
  | .fin _ _ _, .inf t => !t
  | .fin s m e, .fin t n g => decide (fpScaled s m e (min e g) < fpScaled t n g (min e g))

/-- `gt64` (00_scope.md R8). -/
def gt64 (a b : Fp) : Bool := lt64 b a

/-- `cvt32` (00_scope.md R8): binary64 to binary32 by one rounding. -/
def cvt32 : Fp → Fp
  | .nan => .nan
  | .inf s => .inf s
  | .fin s m e => fpRound binary32 s m e

/-- `EPS` = rne64(1e-9) (00_scope.md R10). -/
def fpEps : Fp := fp64 0x3E112E0BE826D695

/-- `C01` = rne64(0.1). -/
def fpC01 : Fp := fp64 0x3FB999999999999A

/-- `C075` = 0.75. -/
def fpC075 : Fp := fp64 0x3FE8000000000000

/-- `C025` = 0.25. -/
def fpC025 : Fp := fp64 0x3FD0000000000000

/-- `ONE` = 1.0. -/
def fpOne : Fp := fp64 0x3FF0000000000000

end Sys2Proof.Machine
end

