-- ==== Sys2Proof/Syntax.lean ====
section
/-! DEFINITION. The commands (30_encoding.md R91): one constructor per row of spec/opcode_table.json. -/

namespace Sys2Proof

/-- CMD.NM (30_encoding.md R93). -/
inductive NormMode where
  | incremental
  | fresh
  deriving DecidableEq, Repr

/-- A command with its fields; `ch` is the CH field, the channel count C (30_encoding.md R92). -/
inductive Instr where
  | firMono
  | firStereo
  | firMulti (ch : Nat)
  | corrSearch (ch : Nat) (nm : NormMode)
  deriving DecidableEq, Repr

/-- The channel count C of a command (30_encoding.md R91). -/
def Instr.channels : Instr → Nat
  | .firMono => 1
  | .firStereo => 2
  | .firMulti ch => ch
  | .corrSearch ch _ => ch

/-- The FIR commands, as opposed to CORR_SEARCH. -/
def Instr.isFir : Instr → Bool
  | .firMono => true
  | .firStereo => true
  | .firMulti _ => true
  | .corrSearch _ _ => false

end Sys2Proof
end

