-- ==== Sys2Proof/WellFormed.lean ====
section
/-! DEFINITION. Which commands have a command word (30_encoding.md R92), and which the assembler accepts
(30_encoding.md R101). -/

namespace Sys2Proof

/-- The CH field has four bits; a channel count above 15 cannot be encoded (30_encoding.md R92). -/
def Instr.wellFormed : Instr → Bool
  | .firMono => true
  | .firStereo => true
  | .firMulti ch => decide (ch < 16)
  | .corrSearch ch _ => decide (ch < 16)

/-- The assembler refuses C outside 1 to 15 (30_encoding.md R101). -/
def Instr.assemblable (i : Instr) : Bool :=
  decide (1 ≤ i.channels) && decide (i.channels ≤ 15)

end Sys2Proof
end

