-- ==== Sys2Proof/Decode.lean ====
section
/-! DEFINITION. The command word (30_encoding.md R90 to R95): a total decoder that rejects by name, and the
encoder written from the same tables. -/

namespace Sys2Proof

/-- Why a command word is illegal (the four kinds of 30_encoding.md R95). -/
inductive Illegal where
  /-- OP = 0x0 or OP = 0x5 to 0xF. -/
  | reservedOpcode
  /-- RSV ≠ 0. -/
  | reservedBits
  /-- CH ≠ 0 with FIR_MONO or FIR_STEREO. -/
  | channelField
  /-- NM ≠ 0 with a FIR opcode. -/
  | normField
  deriving DecidableEq, Repr

/-- The verdict of the decoder: one command, or ILLEGAL with its kind (30_encoding.md R94). -/
inductive Decoded where
  | command (i : Instr)
  | illegal (why : Illegal)
  deriving DecidableEq, Repr

/-- OP, bits 3:0 (30_encoding.md R90). -/
def opField (w : Word) : Nat := (w.extractLsb' 0 4).toNat

/-- CH, bits 7:4. -/
def chField (w : Word) : Nat := (w.extractLsb' 4 4).toNat

/-- NM, bit 8. -/
def nmField (w : Word) : Bool := w.getLsbD 8

/-- RSV, bits 31:9. -/
def rsvField (w : Word) : Nat := (w.extractLsb' 9 23).toNat

/-- NM = 0 is incremental, NM = 1 fresh (30_encoding.md R93). -/
def normModeOf (nm : Bool) : NormMode := if nm then .fresh else .incremental

/-- A FIR opcode whose channel count the opcode fixes: CH and NM must be 0 (30_encoding.md R92, R93). -/
def decodeFixedChannels (w : Word) (i : Instr) : Decoded :=
  if chField w ≠ 0 then .illegal .channelField
  else if nmField w then .illegal .normField
  else .command i

/-- 30_encoding.md R94, total over all 2^32 words. -/
def decode (w : Word) : Decoded :=
  if rsvField w ≠ 0 then .illegal .reservedBits
  else match opField w with
    | 1 => decodeFixedChannels w .firMono
    | 2 => decodeFixedChannels w .firStereo
    | 3 => if nmField w then .illegal .normField else .command (.firMulti (chField w))
    | 4 => .command (.corrSearch (chField w) (normModeOf (nmField w)))
    | _ => .illegal .reservedOpcode

/-- NM bit of a normalizer mode (30_encoding.md R93). -/
def NormMode.bit : NormMode → Nat
  | .incremental => 0
  | .fresh => 1

/-- The command word of a well-formed command (30_encoding.md R90, R91, R101). -/
def encode : Instr → Word
  | .firMono => 0x00000001#32
  | .firStereo => 0x00000002#32
  | .firMulti ch => BitVec.ofNat 32 (ch * 16 + 3)
  | .corrSearch ch nm => BitVec.ofNat 32 (nm.bit * 256 + ch * 16 + 4)

/-- The `mask` of a command's row of the opcode table. -/
def Instr.tableMask : Instr → Word
  | .firMono => 0xFFFFFFFF#32
  | .firStereo => 0xFFFFFFFF#32
  | .firMulti _ => 0xFFFFFF0F#32
  | .corrSearch _ _ => 0xFFFFFE0F#32

/-- The `match` of a command's row of the opcode table. -/
def Instr.tableMatch : Instr → Word
  | .firMono => 0x00000001#32
  | .firStereo => 0x00000002#32
  | .firMulti _ => 0x00000003#32
  | .corrSearch _ _ => 0x00000004#32

/-- The command the decoder reads from an instruction of the opcode table's numbering: one 32-bit word, every
bit at or above `nbits` zero (30_encoding.md R99: one length). -/
def decodeTableWord (nbits w : Nat) : Option Instr :=
  match decode (BitVec.ofNat 32 (w % 2 ^ nbits)) with
  | .command i => some i
  | .illegal _ => none

end Sys2Proof
end

