-- ==== Sys2Proof/Machine/State.lean ====
section
/-! DEFINITION. The state of the engine and its surroundings as plain data (10_state.md), the events the
outside world makes, the reasons a step stops, and the state after reset. -/

namespace Sys2Proof.Machine

/-- The engine phase (10_state.md R37). -/
inductive Phase where
  | idle
  | busy
  deriving DecidableEq, Repr

/-- STATUS.ERR_CODE (60_exceptions.md R240). Codes 12 to 15 are never produced: they have no constructor. -/
inductive ErrCode where
  | noError
  | illegalOp
  | badChannels
  | badLength
  | badSeek
  | badOvl
  | nullAddr
  | misaligned
  | range
  | overlap
  | bus
  | accOvf
  deriving DecidableEq, Repr

/-- Data memory: listed bytes by address, addresses strictly rising. An unlisted address has no value here; what
it reads as is `Config.powerOnByte` (20_memory.md R60; log 4). -/
abbrev Memory := List Host.Cell

/-- The stored state of the register block (10_state.md R22 to R33). ID, BUSY, START and IRQ are views. -/
structure Regs where
  irqEn    : Bool
  done     : Bool
  err      : Bool
  sovr     : Bool
  errCode  : ErrCode
  cmd      : Word
  srcAddr  : Word
  dstAddr  : Word
  coefAddr : Word
  len      : Word
  count    : Word
  divider  : Word
  shift    : BitVec 6
  result   : Word
  errAddr  : Word
  deriving DecidableEq, Repr

/-- The latched parameter set P (10_state.md R38). -/
structure Params where
  cmd      : Word
  srcAddr  : Word
  dstAddr  : Word
  coefAddr : Word
  len      : Word
  count    : Word
  divider  : Word
  shift    : BitVec 6
  deriving DecidableEq, Repr

/-- What a cache mark records about its bytes (20_memory.md R80; log 13). -/
inductive MarkKind where
  | hostWrote
  | cleaned
  | engineWrote
  | invalidated
  deriving DecidableEq, Repr

/-- One event of host-cache coherence, over the bytes `[base, base + size)`. -/
structure CacheMark where
  kind : MarkKind
  base : Nat
  size : Nat
  deriving DecidableEq, Repr

/-- M0: the data memory at the step that accepted START (20_memory.md R72; 40_control.md R123), with the cache
marks of that step and the draw number for input bytes a non-coherent host did not clean (log 13). -/
structure Snapshot where
  mem   : Memory
  marks : List CacheMark
  draw  : Nat
  deriving DecidableEq, Repr

/-- One accumulator slot: ACC_BITS-wide two's complement or binary64 (10_state.md R39). -/
inductive AccReg where
  | fixed (v : Int)
  | float (x : Fp)
  deriving DecidableEq, Repr

/-- NORM: an exact non-negative integer or binary64 (10_state.md R40). -/
inductive NormReg where
  | fixed (q : Nat)
  | float (x : Fp)
  deriving DecidableEq, Repr

/-- The internal registers of the two units (10_state.md R39 to R41). -/
structure Hidden where
  acc       : Vector AccReg 16
  recip     : Fp
  norm      : NormReg
  bestScore : Fp
  bestOff   : Word
  offset    : Nat
  deriving DecidableEq, Repr

/-- What an agent does next: host register and data accesses, IRQ sampling, host cache maintenance, the engine's
completion step, platform reset (40_control.md R133; 60_exceptions.md R248; log 7). -/
inductive Event where
  | regWrite (addr width : Nat) (value : Word)
  | regRead (addr width : Nat)
  | memWrite (addr : Nat) (bytes : List Byte)
  | memRead (addr count : Nat)
  | sampleIrq
  | cacheClean (base size : Nat)
  | cacheInvalidate (base size : Nat)
  | engine
  | reset
  deriving DecidableEq, Repr

/-- What the host is answered. -/
inductive Reply where
  | reg (addr : Nat) (value : Word)
  | data (addr : Nat) (bytes : List Byte)
  | irq (line : Nat) (level : Bool)
  deriving DecidableEq, Repr

/-- The whole machine. `cfg` is fixed; `agenda`, `replies`, `draws` and `cache` are the model's own fields
(INVENTORY.md, State). -/
structure State where
  cfg     : Config
  regs    : Regs
  phase   : Phase
  P       : Params
  m0      : Snapshot
  hidden  : Hidden
  mem     : Memory
  cache   : List CacheMark
  agenda  : List Event
  replies : List Reply
  draws   : Nat
  deriving DecidableEq, Repr

/-- Why the machine stops. -/
inductive Fault where
  /-- Raised by a host register access that is not a naturally aligned 32-bit access inside the block
  (40_control.md R122). Safe. -/
  | registerAccess
  /-- Raised by a host data access to an address outside 0 to 2^32-1 (20_memory.md R60). Safe. -/
  | outsideDataSpace
  deriving DecidableEq, Repr

/-- Why the model has no next state. -/
inductive Refusal where
  /-- Raised by an arm of `exec` whose command has no meaning yet; no arm of this model raises it. Safe. -/
  | notModelled (mnemonic : String)
  /-- Raised by a write of any agent to a region of the running command, a step the spec gives no agent
  (70_reset_and_hazards.md R277). Safe. -/
  | bufferHazard
  deriving DecidableEq, Repr

/-- The register block after reset (70_reset_and_hazards.md R270). -/
def Regs.reset : Regs :=
  { irqEn := false, done := false, err := false, sovr := false, errCode := .noError, cmd := 0#32,
    srcAddr := 0#32, dstAddr := 0#32, coefAddr := 0#32, len := 0#32, count := 0#32, divider := 0x3F800000#32,
    shift := 0#6, result := 0#32, errAddr := 0#32 }

/-- P after reset. DESIGN CHOICE (log 3): the spec leaves it unspecified. -/
def Params.reset : Params :=
  { cmd := 0#32, srcAddr := 0#32, dstAddr := 0#32, coefAddr := 0#32, len := 0#32, count := 0#32,
    divider := 0#32, shift := 0#6 }

/-- M0 after reset. DESIGN CHOICE (log 3). -/
def Snapshot.reset : Snapshot := { mem := [], marks := [], draw := 0 }

/-- The internal registers after reset. DESIGN CHOICE (log 3): the spec leaves them unspecified. -/
def Hidden.reset : Hidden :=
  { acc := Vector.replicate 16 (.fixed 0), recip := .posZero, norm := .fixed 0, bestScore := .posZero,
    bestOff := 0#32, offset := 0 }

/-- An instance with parameters `c`, right after power-on reset (70_reset_and_hazards.md R270, R272). -/
def State.resetWith (c : Config) : State :=
  { cfg := c, regs := .reset, phase := .idle, P := .reset, m0 := .reset, hidden := .reset, mem := [],
    cache := [], agenda := [], replies := [], draws := 0 }

/-- The machine right after reset, with the parameters of `Config.standard` (log 1). -/
def State.reset : State := State.resetWith .standard

end Sys2Proof.Machine
end

