-- ==== Sys2Proof/Machine/Ops.lean ====
section
/-! DEFINITION. The shared operations: data memory, the element accesses of a running command, and the two ways
a command completes, error completion being the only exception entry of this hardware. -/

namespace Sys2Proof.Machine

/-! ### Data memory -/

/-- The listed byte at an address, if any. -/
def Memory.read : Memory → Nat → Option Byte
  | [], _ => none
  | (a, b) :: rest, x => if x = a then some b else if x < a then none else Memory.read rest x

/-- Store one byte, keeping the addresses strictly rising. -/
def Memory.write : Memory → Nat → Byte → Memory
  | [], x, v => [(x, v)]
  | (a, b) :: rest, x, v =>
    if x < a then (x, v) :: (a, b) :: rest
    else if x = a then (a, v) :: rest
    else (a, b) :: Memory.write rest x v

/-- Every listed address is at least `lo`, below 2^32, and addresses rise strictly. -/
def Memory.risesFrom : Nat → Memory → Bool
  | _, [] => true
  | lo, (a, _) :: rest => decide (lo ≤ a) && decide (a < 4294967296) && Memory.risesFrom (a + 1) rest

/-- The canonical form: strictly rising addresses inside the address space (20_memory.md R60). An unlisted
address has no value, so no entry can repeat one. -/
def Memory.wf (m : Memory) : Bool := Memory.risesFrom 0 m

/-- The value of a byte of data memory (log 4). -/
def Memory.byteAt (m : Memory) (a : Nat) : Byte := (m.read a).getD (Config.powerOnByte a)

/-- Store the low `n` bytes of `v` at `a`, little-endian (20_memory.md R62; 00_scope.md R9). -/
def Memory.writeLE (m : Memory) (a : Nat) : Nat → Nat → Memory
  | 0, _ => m
  | n + 1, v => Memory.writeLE (m.write a (BitVec.ofNat 8 v)) (a + 1) n (v / 256)

/-- Store a list of bytes at consecutive addresses. -/
def Memory.writeBytes (m : Memory) : Nat → List Byte → Memory
  | _, [] => m
  | a, b :: rest => Memory.writeBytes (m.write a b) (a + 1) rest

/-- Give every byte of `[a, a + n)` inside the address space the free value of draw `d` (log 5). -/
def Memory.scramble (m : Memory) (d a : Nat) : Nat → Memory
  | 0 => m
  | n + 1 => if a < 4294967296 then Memory.scramble (m.write a (Config.freeByte d a)) d (a + 1) n else m

/-! ### Byte ranges -/

/-- A half-open byte range `[base, base + size)` (20_memory.md R64). -/
def inRange (base size a : Nat) : Bool := decide (base ≤ a) && decide (a < base + size)

/-! ### MEM_OK and host caches -/

/-- MEM_OK(a, n, kind) of the platform (20_memory.md R69; log 2). -/
def memOk (c : Config) (a n : Nat) (kind : AccessKind) : Bool :=
  !c.busHoles.any fun h => decide (h.width = n) && decide (h.kind = kind) && inRange h.base h.size a

/-- The kind of the newest mark that covers `a` and satisfies `p` (marks are newest first). -/
def newestMark (p : MarkKind → Bool) (a : Nat) : List CacheMark → Option MarkKind
  | [] => none
  | k :: rest => if p k.kind && inRange k.base k.size a then some k.kind else newestMark p a rest

/-- The host has cleaned its caches over `a` since it last wrote there (20_memory.md R80; log 13). -/
def isCleaned (marks : List CacheMark) (a : Nat) : Bool :=
  decide (newestMark (fun k => k = .hostWrote ∨ k = .cleaned) a marks = some .cleaned)

/-- The engine has written `a`, and the host has neither invalidated nor written it since (R80; log 13). -/
def isStale (marks : List CacheMark) (a : Nat) : Bool :=
  decide (newestMark (fun k => k ≠ .cleaned) a marks = some .engineWrote)

/-- Add a cache mark; a coherent platform keeps none, and an empty range leaves none (log 13). -/
def State.mark (s : State) (kind : MarkKind) (base size : Nat) : State :=
  if s.cfg.hostCoherent || decide (size = 0) then s
  else { s with cache := { kind := kind, base := base, size := size } :: s.cache }

/-! ### Element accesses of the running command (20_memory.md R61, R62, R69, R72) -/

/-- A run-time error (60_exceptions.md R240): a failing element access at an address, or accumulator overflow. -/
inductive RunError where
  | bus (addr : Nat)
  | accOvf
  deriving DecidableEq, Repr

def RunError.code : RunError → ErrCode
  | .bus _ => .bus
  | .accOvf => .accOvf

/-- ERR_ADDR after the error (60_exceptions.md R243). -/
def RunError.addr : RunError → Nat
  | .bus a => a
  | .accOvf => 0

/-- The engine sees memory, not a free value, in the `n`-byte element at `a`: the platform is coherent, or the host
cleaned every byte of it before START (20_memory.md R80; log 13). -/
def State.sees (s : State) (a n : Nat) : Bool :=
  s.cfg.hostCoherent || (List.range n).all fun k => isCleaned s.m0.marks (a + k)

/-- A byte of an element: of M0 when it is seen, else free. M0 and the draw number stay for the whole command, so
every use of an element gives the same value (20_memory.md R72). -/
def State.engineByte (s : State) (seen : Bool) (a : Nat) : Byte :=
  if seen then s.m0.mem.byteAt a else Config.freeByte s.m0.draw a

/-- The int16 pattern at `a` (20_memory.md R62). -/
def State.half (s : State) (a : Nat) : BitVec 16 :=
  s.engineByte (s.sees a 2) (a + 1) ++ s.engineByte (s.sees a 2) a

/-- The 32-bit pattern at `a` (20_memory.md R62). -/
def State.word (s : State) (a : Nat) : Word :=
  s.engineByte (s.sees a 4) (a + 3) ++ s.engineByte (s.sees a 4) (a + 2) ++ s.engineByte (s.sees a 4) (a + 1) ++
    s.engineByte (s.sees a 4) a

/-- MemRead(a, 2) (00_scope.md R9). -/
def State.load16 (s : State) (a : Nat) : Except RunError (BitVec 16) :=
  if memOk s.cfg a 2 .read then .ok (s.half a) else .error (.bus a)

/-- MemRead(a, 4) (00_scope.md R9). -/
def State.load32 (s : State) (a : Nat) : Except RunError Word :=
  if memOk s.cfg a 4 .read then .ok (s.word a) else .error (.bus a)

/-- MemWrite(a, n, v) (00_scope.md R9). -/
def storeElem (c : Config) (a n : Nat) (v : Word) (m : Memory) : Except RunError Memory :=
  if memOk c a n .write then .ok (m.writeLE a n v.toNat) else .error (.bus a)

/-- The reads of `n` element pairs from index `k` on, first member before second, in increasing index, up to the
first failing access (the architectural access order, 20_memory.md R73). -/
def readPairs {α : Type} (load : Nat → Except RunError α) (first second : Nat → Nat) :
    Nat → Nat → Except RunError (List (α × α))
  | 0, _ => .ok []
  | n + 1, k =>
    match load (first k) with
    | .error e => .error e
    | .ok a =>
      match load (second k) with
      | .error e => .error e
      | .ok b =>
        match readPairs load first second n (k + 1) with
        | .error e => .error e
        | .ok rest => .ok ((a, b) :: rest)

/-! ### Starting and completing a command -/

/-- The accepting step of a start request (40_control.md R123). SOVR is unchanged. -/
def acceptStart (s : State) : State :=
  { s with
    P := { cmd := s.regs.cmd, srcAddr := s.regs.srcAddr, dstAddr := s.regs.dstAddr, coefAddr := s.regs.coefAddr,
           len := s.regs.len, count := s.regs.count, divider := s.regs.divider, shift := s.regs.shift }
    regs := { s.regs with done := false, err := false, errCode := .noError, result := 0#32, errAddr := 0#32 }
    phase := .busy
    m0 := { mem := s.mem, marks := s.cache, draw := s.draws }
    draws := s.draws + 1 }

/-- Successful completion (40_control.md R129). The draw number moves on, so that no later command repeats a
free value of this one. -/
def completeOk (s : State) (value : Nat) : State :=
  { s with
    regs := { s.regs with result := BitVec.ofNat 32 value, err := false, errCode := .noError, errAddr := 0#32,
                          done := true }
    phase := .idle
    draws := s.draws + 1 }

/-- Error completion, the error entry of this hardware (40_control.md R130; 60_exceptions.md R243): no program
counter is saved, no mode changes, nothing branches. `addr` is the failing element for BUS, else 0. -/
def completeErr (s : State) (code : ErrCode) (addr : Nat) : State :=
  { s with
    regs := { s.regs with result := 0#32, err := true, errCode := code, errAddr := BitVec.ofNat 32 addr,
                          done := true }
    phase := .idle
    draws := s.draws + 1 }

end Sys2Proof.Machine
end

