-- ==== Sys2Proof/Machine/Operands.lean ====
section
/-! DEFINITION. The operands of a command from the latched parameters (30_encoding.md R96 to R98), its regions
(20_memory.md R64, R65) and the static checks (40_control.md R128). -/

namespace Sys2Proof.Machine

/-- Element size of the instance (00_scope.md R4). -/
def State.esz (s : State) : Nat := s.cfg.sampleMode.esz

/-- A half-open byte range `[base, base + size)`. -/
structure Region where
  base : Nat
  size : Nat
  deriving DecidableEq, Repr

def Region.contains (r : Region) (a : Nat) : Bool := inRange r.base r.size a

/-- Two ranges intersect (20_memory.md R67); both must be non-empty. -/
def Region.meets (r t : Region) : Bool :=
  decide (r.size ≠ 0) && decide (t.size ≠ 0) && decide (r.base < t.base + t.size) && decide (t.base < r.base + r.size)

/-- A non-empty region leaves the address space (20_memory.md R66). -/
def Region.leavesSpace (r : Region) : Bool := decide (r.size ≠ 0) && decide (4294967296 < r.base + r.size)

/-- `R = max(N - L, 0)`, the number of output positions of a FIR command (41_fir.md R150, R151). -/
def Params.outputs (p : Params) : Nat := p.count.toNat - p.len.toNat

/-- The source region of a FIR command (20_memory.md R64): frames 0 to N-2; frame N-1 is never read. -/
def firSource (p : Params) (c esz : Nat) : Region :=
  ⟨p.srcAddr.toNat, if p.outputs = 0 then 0 else (p.count.toNat - 1) * c * esz⟩

/-- The coefficient region of a FIR command (20_memory.md R64). -/
def firCoef (p : Params) (esz : Nat) : Region :=
  ⟨p.coefAddr.toNat, if p.outputs = 0 then 0 else p.len.toNat * esz⟩

/-- The destination region of a FIR command (20_memory.md R64). -/
def firDest (p : Params) (c esz : Nat) : Region := ⟨p.dstAddr.toNat, p.outputs * c * esz⟩

/-- `W = C * O`, the window length of CORR_SEARCH (42_corr.md R190). -/
def Params.window (p : Params) (c : Nat) : Nat := c * p.len.toNat

/-- The reference region of CORR_SEARCH (20_memory.md R65). (S-1)*C + W is computed in ℤ, a negative size being empty;
for S = 0, which 42_corr.md R190 excludes and the rule does not, that is W - C elements (DESIGN CHOICE, log 22). -/
def corrReference (p : Params) (c esz : Nat) : Region :=
  ⟨p.srcAddr.toNat, (p.count.toNat * c + p.window c - c) * esz⟩

/-- The compare region of CORR_SEARCH (20_memory.md R65). -/
def corrCompare (p : Params) (c esz : Nat) : Region := ⟨p.coefAddr.toNat, p.window c * esz⟩

/-- The regions a command reads. -/
def readRegions (i : Instr) (p : Params) (esz : Nat) : List Region :=
  if i.isFir then [firSource p i.channels esz, firCoef p esz]
  else [corrReference p i.channels esz, corrCompare p i.channels esz]

/-- The region a command writes; empty for CORR_SEARCH (20_memory.md R65). -/
def destRegion (i : Instr) (p : Params) (esz : Nat) : Region :=
  if i.isFir then firDest p i.channels esz else ⟨p.dstAddr.toNat, 0⟩

/-- The used bases, in checking order (40_control.md R128). -/
def usedBases (i : Instr) (p : Params) : List Nat :=
  if i.isFir then [p.srcAddr.toNat, p.dstAddr.toNat, p.coefAddr.toNat] else [p.srcAddr.toNat, p.coefAddr.toNat]

/-- The static checks 2 to 9 in their order; check 1 is the decoder's verdict (40_control.md R128). -/
def staticCheck (i : Instr) (p : Params) (esz : Nat) : Option ErrCode :=
  if i.channels = 0 then some .badChannels
  else if i.isFir && (decide (p.len.toNat = 0) || decide (p.len.toNat % 4 ≠ 0)) then some .badLength
  else if !i.isFir && decide (p.count.toNat = 0) then some .badSeek
  else if !i.isFir && decide (p.len.toNat = 0) then some .badOvl
  else if (usedBases i p).any (fun b => decide (b = 0)) then some .nullAddr
  else if (usedBases i p).any (fun b => decide (b % esz ≠ 0)) then some .misaligned
  else if (destRegion i p esz :: readRegions i p esz).any Region.leavesSpace then some .range
  else if (readRegions i p esz).any (destRegion i p esz).meets then some .overlap
  else none

end Sys2Proof.Machine
end

