-- ==== Sys2Proof/Machine/Fir.lean ====
section
/-! DEFINITION. The FIR family (41_fir.md): one operation `fir(C)` over the latched parameters and M0, and the three
commands that call it. -/

namespace Sys2Proof.Machine

/-! ### One output position -/

/-- `asr(a, s)`, floor division by 2^s (00_scope.md R7). -/
def asr (a : Int) (s : Nat) : Int := a / ((2 ^ s : Nat) : Int)

/-- `sat16` (00_scope.md R7). -/
def sat16 (a : Int) : Int := if a < -32768 then -32768 else if 32767 < a then 32767 else a

/-- The exact sum of products, in ℤ (41_fir.md R153). -/
def exactDot (ps : List (BitVec 16 × BitVec 16)) : Int := (ps.map fun p => p.1.toInt * p.2.toInt).sum

/-- The sum fits an ACC_BITS-wide two's-complement accumulator (41_fir.md R154). -/
def accFits (w : AccBits) (a : Int) : Bool :=
  decide (-((2 ^ (w.width - 1) : Nat) : Int) ≤ a) && decide (a ≤ ((2 ^ (w.width - 1) : Nat) : Int) - 1)

/-- What the accumulator holds after adding the products in any order (41_fir.md R153). -/
def accWrap (w : AccBits) (a : Int) : Int := a.bmod (2 ^ w.width)

/-- FIXED mode: the accumulator, and the output unless the sum does not fit (41_fir.md R153 to R156). -/
def firFixed (w : AccBits) (sh : Nat) (ps : List (BitVec 16 × BitVec 16)) : AccReg × Option Word :=
  let a := exactDot ps
  (.fixed (accWrap w a), if accFits w a then some (BitVec.ofInt 32 (sat16 (asr a sh))) else none)

/-- The binary64 sum of products in increasing order, from +0.0 (41_fir.md R158; 42_corr.md R193). -/
def floatDot (ps : List (Word × Word)) : Fp :=
  ps.foldl (fun s p => add64 s (mul64 (fp32 p.1) (fp32 p.2))) .posZero

/-- FLOAT mode: the accumulator and the output (41_fir.md R158, R159); a NaN output takes the free bits of draw
`d` and element `k` (R160). -/
def firFloat (recip : Fp) (d k : Nat) (ps : List (Word × Word)) : AccReg × Option Word :=
  let a := floatDot ps
  (.float a, some (fp32Bits d k (cvt32 (mul64 a recip))))

/-! ### All output positions -/

/-- Byte address of coefficient k (20_memory.md R73). -/
def coefElem (p : Params) (esz k : Nat) : Nat := p.coefAddr.toNat + k * esz

/-- Byte address of source element (j+k)*C + c (20_memory.md R73). -/
def sourceElem (p : Params) (esz c j ch k : Nat) : Nat := p.srcAddr.toNat + ((j + k) * c + ch) * esz

/-- Byte address of destination element e = j*C + c (20_memory.md R73). -/
def destElem (p : Params) (esz e : Nat) : Nat := p.dstAddr.toNat + e * esz

/-- The reads and the arithmetic of destination element `e`, position `(e / C, e mod C)`, in FIXED mode. -/
def firPosFixed (s : State) (c e : Nat) : Except RunError (AccReg × Option Word) :=
  match readPairs s.load16 (coefElem s.P 2) (sourceElem s.P 2 c (e / c) (e % c)) s.P.len.toNat 0 with
  | .error r => .error r
  | .ok ps => .ok (firFixed s.cfg.accBits s.P.shift.toNat ps)

/-- The reciprocal of the divider (41_fir.md R157). -/
def firRecip (p : Params) : Fp := div64 fpOne (fp32 p.divider)

/-- The reads and the arithmetic of destination element `e` in FLOAT mode. -/
def firPosFloat (s : State) (c e : Nat) : Except RunError (AccReg × Option Word) :=
  match readPairs s.load32 (coefElem s.P 4) (sourceElem s.P 4 c (e / c) (e % c)) s.P.len.toNat 0 with
  | .error r => .error r
  | .ok ps => .ok (firFloat (firRecip s.P) s.draws e ps)

/-- Exactly one of the two modes applies to an instance (41_fir.md R152). -/
def firPos (s : State) (c e : Nat) : Except RunError (AccReg × Option Word) :=
  match s.cfg.sampleMode with
  | .fixed => firPosFixed s c e
  | .float => firPosFloat s c e

/-- What a FIR command has done: memory, accumulators, and the destination element and error it stopped at. -/
structure FirRun where
  mem  : Memory
  acc  : Vector AccReg 16
  fail : Option (Nat × RunError)
  deriving DecidableEq, Repr

/-- Destination elements `e`, `e + 1`, … of `n` in all: reads, overflow check, write, in the architectural order
(20_memory.md R73; 60_exceptions.md R241). -/
def firLoop (s : State) (c : Nat) : Nat → Nat → FirRun → FirRun
  | 0, _, r => r
  | n + 1, e, r =>
    match firPos s c e with
    | .error err => { r with fail := some (e, err) }
    | .ok (a, out) =>
      let acc := r.acc.setIfInBounds (e % c) a
      match out with
      | none => { r with acc := acc, fail := some (e, .accOvf) }
      | some y =>
        match storeElem s.cfg (destElem s.P s.esz e) s.esz y r.mem with
        | .error err => { r with acc := acc, fail := some (e, err) }
        | .ok m => firLoop s c n (e + 1) { mem := m, acc := acc, fail := none }

/-- RECIP is computed once per FLOAT command (10_state.md R41; 41_fir.md R157). -/
def firHidden (s : State) (acc : Vector AccReg 16) : Hidden :=
  { s.hidden with
    acc := acc
    recip := match s.cfg.sampleMode with
      | .fixed => s.hidden.recip
      | .float => firRecip s.P }

/-- The whole run of a FIR command with `R > 0`. -/
def firRun (s : State) (c : Nat) : FirRun :=
  firLoop s c (s.P.outputs * c) 0 { mem := s.mem, acc := s.hidden.acc, fail := none }

/-- How a run completes: on an error, the elements before the failing one are exact and the rest of the
destination is free (60_exceptions.md R244). -/
def firFinish (s : State) (c : Nat) (r : FirRun) : State :=
  let t : State := { s with hidden := firHidden s r.acc }
  match r.fail with
  | none => completeOk { t with mem := r.mem } s.P.outputs
  | some (e, err) =>
    completeErr
      { t with mem := Memory.scramble r.mem s.draws (destElem s.P s.esz e) ((s.P.outputs * c - e) * s.esz) }
      err.code err.addr

/-- `fir(C)` (41_fir.md, complete procedure). A command with N ≤ L succeeds with RESULT 0 and touches nothing
(R151); otherwise the engine owns the destination bytes until a non-coherent host invalidates (20_memory.md R80). -/
def runFir (c : Nat) (s : State) : State :=
  if s.P.outputs = 0 then completeOk s 0
  else (firFinish s c (firRun s c)).mark .engineWrote s.P.dstAddr.toNat (s.P.outputs * c * s.esz)

/-- The static checks, then `fir(C)` (40_control.md R127, R128). -/
def completeFir (i : Instr) (s : State) : State :=
  match staticCheck i s.P s.esz with
  | some code => completeErr s code 0
  | none => runFir i.channels s

/-! ### The commands -/

/-- FIR_MONO (41_fir.md R161). -/
def execFirMono (s : State) : Host.Outcome State Fault Refusal := .next (completeFir .firMono s)

/-- FIR_STEREO (41_fir.md R162). -/
def execFirStereo (s : State) : Host.Outcome State Fault Refusal := .next (completeFir .firStereo s)

/-- FIR_MULTI (41_fir.md R163). -/
def execFirMulti (ch : Nat) (s : State) : Host.Outcome State Fault Refusal := .next (completeFir (.firMulti ch) s)

end Sys2Proof.Machine
end

