-- ==== Sys2Proof/Machine/Corr.lean ====
section
/-! DEFINITION. CORR_SEARCH (42_corr.md): dot product, normalizer, score and the strict-improvement scan. -/

namespace Sys2Proof.Machine

/-! ### Dot product and normalizer -/

/-- The sum of squares of int16 samples, in ℤ (42_corr.md R194). -/
def squaresFixed (xs : List (BitVec 16)) : Int := (xs.map fun x => x.toInt * x.toInt).sum

/-- `n <- op(n, e * e)` over samples in increasing order (42_corr.md R194, R195). -/
def squaresFloat (op : Fp → Fp → Fp) (n : Fp) (xs : List Word) : Fp :=
  xs.foldl (fun n x => op n (mul64 (fp32 x) (fp32 x))) n

/-- NORM as a binary64 number: an exact integer is converted once (42_corr.md R192, R196). -/
def NormReg.value : NormReg → Fp
  | .fixed q => fpOfInt q
  | .float x => x

/-- What the sample mode gives the search: the dot product of a window with the compare window, the fresh
normalizer of a window, and the normalizer's step from one window to the next. -/
structure CorrArith (α : Type) where
  dot   : List (α × α) → Fp
  fresh : List α → NormReg
  slide : NormReg → List α → List α → NormReg

/-- FIXED mode: exact integers, converted once (42_corr.md R193 to R195). -/
def corrFixed : CorrArith (BitVec 16) where
  dot ps := fpOfInt (exactDot ps)
  fresh xs := .fixed (squaresFixed xs).toNat
  slide
    | .fixed q, exits, entries => .fixed ((q : Int) - squaresFixed exits + squaresFixed entries).toNat
    | .float x, _, _ => .float x

/-- FLOAT mode: sequential binary64 sums; every exit is subtracted before any entry is added
(42_corr.md R193 to R195). The update works on the unfloored NORM. -/
def corrFloat : CorrArith Word where
  dot ps := floatDot ps
  fresh xs := .float (squaresFloat add64 .posZero xs)
  slide
    | .float n, exits, entries => .float (squaresFloat add64 (squaresFloat sub64 n exits) entries)
    | .fixed q, _, _ => .fixed q

/-! ### Score -/

/-- The floored normalizer (42_corr.md R197; 90_conflicts.md C1): below EPS it is replaced by 1.0. -/
def floorNorm (n : Fp) : Fp := if lt64 n fpEps then fpOne else n

/-- The raw correlation (42_corr.md R198). -/
def rawCorr (d n : Fp) : Fp := div64 d (sqrt64 (floorNorm n))

/-- `t_i` (42_corr.md R200). -/
def scoreT (i s : Nat) : Fp := div64 (fpOfInt (2 * (i : Int) - (s : Int))) (fpOfInt (s : Int))

/-- The weight of offset `i ≥ 1` (42_corr.md R200). -/
def scoreWeight (i s : Nat) : Fp := sub64 fpOne (mul64 (mul64 fpC025 (scoreT i s)) (scoreT i s))

/-- The weight of an offset: the constant 0.75 at offset 0 (42_corr.md R199, R200; 90_conflicts.md C2). -/
def offsetWeight (i s : Nat) : Fp := if i = 0 then fpC075 else scoreWeight i s

/-- The score (42_corr.md R201). -/
def corrScore (d n : Fp) (i s : Nat) : Fp := mul64 (add64 (rawCorr d n) fpC01) (offsetWeight i s)

/-! ### The scan -/

/-- What one search works with: the reads of window `i` paired with the compare window, the mode's arithmetic,
the normalizer mode, C, S and W (42_corr.md R190). -/
structure Search (α : Type) where
  window : Nat → Except RunError (List (α × α))
  arith  : CorrArith α
  nm     : NormMode
  c      : Nat
  s      : Nat
  w      : Nat

/-- NORM after offset `i`: fresh at offset 0, then updated when NM = 0 and left alone when NM = 1
(42_corr.md R203). -/
def Search.nextNorm {α : Type} (q : Search α) (i : Nat) (norm : NormReg) (prev cur : List α) : NormReg :=
  if i = 0 then q.arith.fresh cur
  else match q.nm with
    | .incremental => q.arith.slide norm (prev.take q.c) (cur.drop (q.w - q.c))
    | .fresh => norm

/-- The normalizer used for offset `i` (42_corr.md R196). -/
def Search.normOf {α : Type} (q : Search α) (i : Nat) (norm : NormReg) (prev cur : List α) : Fp :=
  match q.nm with
  | .incremental => (q.nextNorm i norm prev cur).value
  | .fresh => (q.arith.fresh cur).value

/-- The registers after offset `i`, whose score is `x`: strict improvement wins, ties keep the lower offset, a NaN
never wins (42_corr.md R202). -/
def scanStep (h : Hidden) (i : Nat) (norm : NormReg) (x : Fp) : Hidden :=
  if i = 0 ∨ gt64 x h.bestScore then
    { h with norm := norm, offset := i, bestScore := x, bestOff := BitVec.ofNat 32 i }
  else { h with norm := norm, offset := i }

/-- What a search has done: the internal registers, and the bus error it stopped at. -/
structure CorrRun where
  hidden : Hidden
  fail   : Option RunError
  deriving DecidableEq, Repr

/-- Offsets `i`, `i + 1`, … of `n` in all, strictly increasing; `prev` is window `i - 1` (42_corr.md R203). -/
def Search.scan {α : Type} (q : Search α) : Nat → Nat → List α → Hidden → CorrRun
  | 0, _, _, h => { hidden := h, fail := none }
  | n + 1, i, prev, h =>
    match q.window i with
    | .error e => { hidden := { h with offset := i }, fail := some e }
    | .ok ps =>
      let cur := ps.map Prod.fst
      let x := corrScore (q.arith.dot ps) (q.normOf i h.norm prev cur) i q.s
      Search.scan q n (i + 1) cur (scanStep h i (q.nextNorm i h.norm prev cur) x)

/-- Byte address of reference element i*C + k (20_memory.md R73; 42_corr.md R191). -/
def refElem (p : Params) (esz c i k : Nat) : Nat := p.srcAddr.toNat + (i * c + k) * esz

/-- Byte address of compare element k. -/
def cmpElem (p : Params) (esz k : Nat) : Nat := p.coefAddr.toNat + k * esz

/-- The search of the latched parameters, over a way to load elements. -/
def searchOf {α : Type} (load : Nat → Except RunError α) (arith : CorrArith α) (p : Params) (esz c : Nat)
    (nm : NormMode) : Search α where
  window i := readPairs load (refElem p esz c i) (cmpElem p esz) (p.window c) 0
  arith := arith
  nm := nm
  c := c
  s := p.count.toNat
  w := p.window c

/-- The run of CORR_SEARCH in the mode of the instance. -/
def corrRun (c : Nat) (nm : NormMode) (s : State) : CorrRun :=
  match s.cfg.sampleMode with
  | .fixed => (searchOf s.load16 corrFixed s.P 2 c nm).scan s.P.count.toNat 0 [] s.hidden
  | .float => (searchOf s.load32 corrFloat s.P 4 c nm).scan s.P.count.toNat 0 [] s.hidden

/-- How a search completes: RESULT is BEST_OFF; no data memory is written (42_corr.md R203, R204). -/
def corrFinish (s : State) (r : CorrRun) : State :=
  match r.fail with
  | none => completeOk { s with hidden := r.hidden } r.hidden.bestOff.toNat
  | some e => completeErr { s with hidden := r.hidden } e.code e.addr

/-- The static checks, then `corr(C, NM)` (40_control.md R127, R128). -/
def completeCorr (c : Nat) (nm : NormMode) (s : State) : State :=
  match staticCheck (.corrSearch c nm) s.P s.esz with
  | some code => completeErr s code 0
  | none => corrFinish s (corrRun c nm s)

/-- CORR_SEARCH (42_corr.md R203). -/
def execCorrSearch (ch : Nat) (nm : NormMode) (s : State) : Host.Outcome State Fault Refusal :=
  .next (completeCorr ch nm s)

end Sys2Proof.Machine
end

