-- ==== Sys2Proof/Machine/Dispatch.lean ====
section
/-! DEFINITION. One arm per command: its meaning (40_control.md R127). -/

namespace Sys2Proof.Machine

def exec (i : Instr) (s : State) : Host.Outcome State Fault Refusal :=
  match i with
  | .firMono => Sys2Proof.Machine.execFirMono s
  | .firStereo => Sys2Proof.Machine.execFirStereo s
  | .firMulti ch => Sys2Proof.Machine.execFirMulti ch s
  | .corrSearch ch nm => Sys2Proof.Machine.execCorrSearch ch nm s

end Sys2Proof.Machine
end

