-- ==== Sys2Proof/Machine/Flags.lean ====
section
/-! DEFINITION. The flags: STATUS and its write-1-to-clear, the interrupt output, and what a start request does to
SOVR (10_state.md R23, R35, R43; 40_control.md R124, R126). There is no return-from-error operation: clearing
STATUS.ERR, or the next accepted START, is all there is (60_exceptions.md R245). -/

namespace Sys2Proof.Machine

/-- The four bits of STATUS.ERR_CODE (60_exceptions.md R240). -/
def ErrCode.bits : ErrCode → BitVec 4
  | .noError => 0#4
  | .illegalOp => 1#4
  | .badChannels => 2#4
  | .badLength => 3#4
  | .badSeek => 4#4
  | .badOvl => 5#4
  | .nullAddr => 6#4
  | .misaligned => 7#4
  | .range => 8#4
  | .overlap => 9#4
  | .bus => 10#4
  | .accOvf => 11#4

/-- STATUS.BUSY (10_state.md R37). -/
def State.isBusy (s : State) : Bool := decide (s.phase = .busy)

/-- The STATUS word (10_state.md R23): reserved bits read 0. -/
def State.statusWord (s : State) : Word :=
  0#20 ++ s.regs.errCode.bits ++ 0#4 ++ BitVec.ofBool s.regs.sovr ++ BitVec.ofBool s.regs.err ++
    BitVec.ofBool s.regs.done ++ BitVec.ofBool s.isBusy

/-- A write of `v` to STATUS (40_control.md R126). -/
def clearStatus (s : State) (v : Word) : State :=
  { s with regs := { s.regs with
      done := s.regs.done && !v.getLsbD 1
      err := s.regs.err && !v.getLsbD 2
      errCode := if v.getLsbD 2 then .noError else s.regs.errCode
      sovr := s.regs.sovr && !v.getLsbD 3 } }

/-- The interrupt output (10_state.md R35; 60_exceptions.md R247). -/
def State.irq (s : State) : Bool := s.regs.irqEn && s.regs.done

/-- A start request: accepted while IDLE (40_control.md R123), recorded in SOVR while BUSY (R124). -/
def startRequest (s : State) : State :=
  match s.phase with
  | .idle => acceptStart s
  | .busy => { s with regs := { s.regs with sovr := true } }

end Sys2Proof.Machine
end

