-- ==== Sys2Proof/Machine/Registers.lean ====
section
/-! DEFINITION. Host accesses to the register block (10_state.md R20 to R34; 40_control.md R120 to R126). -/

namespace Sys2Proof.Machine

/-- The registers of the block (10_state.md R20). -/
inductive Reg where
  | id
  | ctrl
  | status
  | cmd
  | srcAddr
  | dstAddr
  | coefAddr
  | len
  | count
  | divider
  | shift
  | result
  | errAddr
  deriving DecidableEq, Repr

/-- Register offsets (10_state.md R20). -/
def Reg.offset : Reg → Nat
  | .id => 0x00
  | .ctrl => 0x04
  | .status => 0x08
  | .cmd => 0x0C
  | .srcAddr => 0x10
  | .dstAddr => 0x14
  | .coefAddr => 0x18
  | .len => 0x1C
  | .count => 0x20
  | .divider => 0x24
  | .shift => 0x28
  | .result => 0x2C
  | .errAddr => 0x30

/-- The register at an offset; none at the reserved offsets 0x34 to 0xFC (10_state.md R34). -/
def Reg.ofOffset (off : Nat) : Option Reg :=
  [Reg.id, .ctrl, .status, .cmd, .srcAddr, .dstAddr, .coefAddr, .len, .count, .divider, .shift, .result,
    .errAddr].find? fun r => decide (r.offset = off)

/-- ID (10_state.md R21): IDENT, reserved, ACC64, MODE, VERSION. -/
def idWord (c : Config) : Word :=
  0xF1C5#16 ++ 0#6 ++ BitVec.ofBool (decide (c.sampleMode = .fixed) && decide (c.accBits = .w64)) ++
    BitVec.ofBool (decide (c.sampleMode = .float)) ++ 0x01#8

/-- CTRL as read: START reads 0 (10_state.md R22). -/
def State.ctrlWord (s : State) : Word := 0#30 ++ BitVec.ofBool s.regs.irqEn ++ 0#1

/-- The value of a register as the host reads it (40_control.md R121). -/
def readRegister (s : State) : Reg → Word
  | .id => idWord s.cfg
  | .ctrl => s.ctrlWord
  | .status => s.statusWord
  | .cmd => s.regs.cmd
  | .srcAddr => s.regs.srcAddr
  | .dstAddr => s.regs.dstAddr
  | .coefAddr => s.regs.coefAddr
  | .len => s.regs.len
  | .count => s.regs.count
  | .divider => s.regs.divider
  | .shift => 0#26 ++ s.regs.shift
  | .result => s.regs.result
  | .errAddr => s.regs.errAddr

/-- A write to CTRL: IRQ_EN in the same step as the start request (40_control.md R120). -/
def writeCtrl (s : State) (v : Word) : State :=
  let t : State := { s with regs := { s.regs with irqEn := v.getLsbD 1 } }
  if v.getLsbD 0 then startRequest t else t

/-- A write of `v` to a register (40_control.md R120), in either engine phase (R125). -/
def writeRegister (s : State) (v : Word) : Reg → State
  | .id => s
  | .ctrl => writeCtrl s v
  | .status => clearStatus s v
  | .cmd => { s with regs := { s.regs with cmd := v } }
  | .srcAddr => { s with regs := { s.regs with srcAddr := v } }
  | .dstAddr => { s with regs := { s.regs with dstAddr := v } }
  | .coefAddr => { s with regs := { s.regs with coefAddr := v } }
  | .len => { s with regs := { s.regs with len := v } }
  | .count => { s with regs := { s.regs with count := v } }
  | .divider => { s with regs := { s.regs with divider := v } }
  | .shift => { s with regs := { s.regs with shift := v.extractLsb' 0 6 } }
  | .result => s
  | .errAddr => s

/-- A read at an offset of the block; a reserved offset reads 0 (10_state.md R34). -/
def readOffset (s : State) (off : Nat) : Word :=
  match Reg.ofOffset off with
  | some r => readRegister s r
  | none => 0#32

/-- A write at an offset of the block; a reserved offset ignores it (10_state.md R34). -/
def writeOffset (s : State) (off : Nat) (v : Word) : State :=
  match Reg.ofOffset off with
  | some r => writeRegister s v r
  | none => s

/-- A naturally aligned 32-bit access inside the block (40_control.md R122; log 10). -/
def blockAccess (c : Config) (addr width : Nat) : Bool :=
  decide (width = 4) && decide (c.engineBase ≤ addr) && decide (addr < c.engineBase + 256) &&
    decide ((addr - c.engineBase) % 4 = 0) && decide (addr % 4 = 0)

/-- The host's register write (40_control.md R120, R122). -/
def hostRegWrite (addr width : Nat) (v : Word) (s : State) : Host.Outcome State Fault Refusal :=
  if blockAccess s.cfg addr width then .next (writeOffset s (addr - s.cfg.engineBase) v)
  else .fault .registerAccess

/-- The host's register read: no side effect but the answer (40_control.md R121, R122). -/
def hostRegRead (addr width : Nat) (s : State) : Host.Outcome State Fault Refusal :=
  if blockAccess s.cfg addr width then
    .next { s with replies := .reg addr (readOffset s (addr - s.cfg.engineBase)) :: s.replies }
  else .fault .registerAccess

end Sys2Proof.Machine
end

