-- ==== Sys2Proof/Machine/Platform.lean ====
section
/-! DEFINITION. What the host does to data memory and its caches, IRQ sampling, and platform reset
(20_memory.md R75 to R80; 60_exceptions.md R247; 70_reset_and_hazards.md R270, R271, R277). -/

namespace Sys2Proof.Machine

/-- The command the latched word stands for, if it is legal (40_control.md R127). -/
def State.running (s : State) : Option Instr :=
  match decode s.P.cmd with
  | .command i => some i
  | .illegal _ => none

/-- The regions of the running command, the destination first; none while IDLE or for an illegal word. -/
def State.busyRegions (s : State) : List Region :=
  if s.isBusy then
    match s.running with
    | some i => destRegion i s.P s.esz :: readRegions i s.P s.esz
    | none => []
  else []

/-- The destination region of the running command; empty when there is none. -/
def State.busyDest (s : State) : Region :=
  if s.isBusy then
    match s.running with
    | some i => destRegion i s.P s.esz
    | none => ⟨0, 0⟩
  else ⟨0, 0⟩

/-- The range `[addr, addr + n)` lies in the data space (20_memory.md R60). -/
def inDataSpace (addr n : Nat) : Bool := decide (addr + n ≤ 4294967296)

/-- A data-memory write of the host or another bus agent. While BUSY none may write a region of the running
command: the spec gives no such step (70_reset_and_hazards.md R277; log 11). -/
def hostMemWrite (addr : Nat) (bytes : List Byte) (s : State) : Host.Outcome State Fault Refusal :=
  if !inDataSpace addr bytes.length then .fault .outsideDataSpace
  else if s.busyRegions.any (Region.meets ⟨addr, bytes.length⟩) then .refused .bufferHazard
  else .next ({ s with mem := Memory.writeBytes s.mem addr bytes }.mark .hostWrote addr bytes.length)

/-- The byte a host read sees: free in the destination of the running command (20_memory.md R77), and where a
non-coherent host has not invalidated after an engine write (R80); else memory. DESIGN CHOICE (log 23): a byte that is
both in the destination and in an input region, of a command that will end with OVERLAP, is free; R77 says of the
first a draw and of the second memory contents. -/
def State.hostByte (s : State) (a : Nat) : Byte :=
  if s.busyDest.contains a || (!s.cfg.hostCoherent && isStale s.cache a) then Config.freeByte s.draws a
  else Memory.byteAt s.mem a

/-- A data-memory read of the host. The draw number moves on: two reads may see different free values. -/
def hostMemRead (addr count : Nat) (s : State) : Host.Outcome State Fault Refusal :=
  if !inDataSpace addr count then .fault .outsideDataSpace
  else .next { s with
    replies := .data addr ((List.range count).map fun k => s.hostByte (addr + k)) :: s.replies
    draws := s.draws + 1 }

/-- The host samples the interrupt output on the platform's line (60_exceptions.md R247). -/
def hostSampleIrq (s : State) : State := { s with replies := .irq s.cfg.irqLine s.irq :: s.replies }

/-- Platform reset, also at power loss (70_reset_and_hazards.md R270, R271; 60_exceptions.md R255): registers and
phase at their reset values, data memory unchanged except that the destination of a command it cuts short is
free. The parameters stay; so do the events still to come and the answers given. DESIGN CHOICE (log 24), the spec being
silent on host caches here: the cache marks stay, and the abandoned destination counts as written by the engine. -/
def platformReset (s : State) : State :=
  ({ s with
    regs := .reset
    phase := .idle
    P := .reset
    m0 := .reset
    hidden := .reset
    mem := Memory.scramble s.mem s.draws s.busyDest.base s.busyDest.size
    draws := s.draws + 1 } : State).mark .engineWrote s.busyDest.base s.busyDest.size

end Sys2Proof.Machine
end

