-- ==== Sys2Proof/Machine/Engine.lean ====
section
/-! DEFINITION. The engine's turn and the meaning of every event of the agenda (40_control.md R127, R131;
60_exceptions.md R248). -/

namespace Sys2Proof.Machine

/-- The engine's turn. While BUSY it takes the completion step of the latched command, an illegal word being
static check 1 (40_control.md R127, R128); while IDLE it waits (60_exceptions.md R255). -/
def engineTurn (s : State) : Host.Outcome State Fault Refusal :=
  match s.phase with
  | .idle => .next s
  | .busy =>
    match decode s.P.cmd with
    | .illegal _ => .next (completeErr s .illegalOp 0)
    | .command i => exec i s

/-- One event, as one atomic step (60_exceptions.md R248). -/
def runEvent (e : Event) (s : State) : Host.Outcome State Fault Refusal :=
  match e with
  | .regWrite addr width v => hostRegWrite addr width v s
  | .regRead addr width => hostRegRead addr width s
  | .memWrite addr bytes => hostMemWrite addr bytes s
  | .memRead addr count => hostMemRead addr count s
  | .sampleIrq => .next (hostSampleIrq s)
  | .cacheClean base size => .next (s.mark .cleaned base size)
  | .cacheInvalidate base size => .next (s.mark .invalidated base size)
  | .engine => engineTurn s
  | .reset => .next (platformReset s)

/-- The next event of the agenda takes effect; when nothing is pending the engine moves, so that every accepted
command completes (40_control.md R131; log 7). -/
def runAgenda (s : State) : Host.Outcome State Fault Refusal :=
  match s.agenda with
  | [] => engineTurn s
  | e :: rest => runEvent e { s with agenda := rest }

/-- The machine with `w` in CMD, a start accepted, and the engine's turn next (log 9). -/
def armCommand (s : State) (w : Word) : State :=
  acceptStart { s with regs := { s.regs with cmd := w }, agenda := .engine :: s.agenda }

end Sys2Proof.Machine
end

