-- ==== Sys2Proof/Machine/Step.lean ====
section
/-! DEFINITION. One step of the machine, and how a command word is put where the next step runs it. -/

namespace Sys2Proof.Machine

/-- One atomic step: a register access, an acceptance, a completion, or another event (60_exceptions.md R248). -/
def step (s : State) : Host.Outcome State Fault Refusal := runAgenda s

/-- `s` with the command word `w` about to run: in CMD, latched by an accepted start (40_control.md R123), with
the engine's completion step next. The engine fetches nothing (10_state.md R36); this stands for the host's
writes of CMD and CTRL.START (log 9). -/
def State.withFetchWord (s : State) (nbits w : Nat) : State := armCommand s (BitVec.ofNat 32 (w % 2 ^ nbits))

end Sys2Proof.Machine
end

