-- ==== Sys2Proof/Machine/Script.lean ====
section
/-! DEFINITION. The host script (30_encoding.md R100 to R102): statements, their bus transactions, the run of a script
beside the machine, the assembler and the pseudo-instructions. The host's own control flow is an automaton over its
variables (log 18). -/

namespace Sys2Proof.Machine

/-- Host-side arithmetic on host variables (30_encoding.md R100; log 18). DESIGN CHOICE (log 25): a shift amount and an
and-mask are constants, where the rule gives no grammar of `expr`. -/
inductive HostExpr where
  | lit (n : Nat)
  | var (x : String)
  | add (a b : HostExpr)
  | mul (a b : HostExpr)
  | shr (a : HostExpr) (n : Nat)
  | band (a : HostExpr) (m : Nat)
  deriving DecidableEq, Repr

/-- A statement of a host script (30_encoding.md R100). DESIGN CHOICE (log 25): the address and the elements of `mem16`
and `mem32` and the comparand of `beq` are constants, where the rule does not say whether they may be host variables. -/
inductive Stmt where
  | wr (r : Reg) (v : HostExpr)
  | rd (r : Reg) (x : String)
  | mem16 (a : Nat) (vs : List (BitVec 16))
  | mem32 (a : Nat) (vs : List Word)
  | letVar (x : String) (e : HostExpr)
  | label (l : String)
  | bnz (x l : String)
  | beq (x : String) (k : Nat) (l : String)
  deriving DecidableEq, Repr

/-- The host's own state: the statement it is at, and the variables, the newest binding first. -/
structure HostState where
  pc   : Nat
  vars : List (String × Nat)
  deriving DecidableEq, Repr

/-- The value of a host variable; one never set counts as 0 (log 18). -/
def HostState.get (h : HostState) (x : String) : Nat := (h.vars.lookup x).getD 0

def HostExpr.eval (h : HostState) : HostExpr → Nat
  | .lit n => n
  | .var x => h.get x
  | .add a b => a.eval h + b.eval h
  | .mul a b => a.eval h * b.eval h
  | .shr a n => a.eval h / 2 ^ n
  | .band a m => a.eval h &&& m

/-- Little-endian 16-bit element writes at `a`, `a + 2`, … -/
def writes16 (a : Nat) : List (BitVec 16) → List Event
  | [] => []
  | v :: rest => .memWrite a [v.extractLsb' 0 8, v.extractLsb' 8 8] :: writes16 (a + 2) rest

/-- Little-endian 32-bit element writes at `a`, `a + 4`, … -/
def writes32 (a : Nat) : List Word → List Event
  | [] => []
  | v :: rest =>
    .memWrite a [v.extractLsb' 0 8, v.extractLsb' 8 8, v.extractLsb' 16 8, v.extractLsb' 24 8] :: writes32 (a + 4) rest

/-- The encoding of a statement: the bus transactions it makes (30_encoding.md R100). -/
def Stmt.transactions (base : Nat) (h : HostState) : Stmt → List Event
  | .wr r v => [.regWrite (base + r.offset) 4 (BitVec.ofNat 32 (v.eval h))]
  | .rd r _ => [.regRead (base + r.offset) 4]
  | .mem16 a vs => writes16 a vs
  | .mem32 a vs => writes32 a vs
  | .letVar _ _ => []
  | .label _ => []
  | .bnz _ _ => []
  | .beq _ _ _ => []

/-- Where a label stands. -/
def labelIndex (prog : List Stmt) (l : String) : Nat := prog.findIdx fun st => decide (st = .label l)

/-- The host after a statement whose read, if it makes one, was answered `answer` (30_encoding.md R100). -/
def HostState.after (h : HostState) (prog : List Stmt) (answer : Nat) : Stmt → HostState
  | .wr _ _ => { h with pc := h.pc + 1 }
  | .rd _ x => { pc := h.pc + 1, vars := (x, answer) :: h.vars }
  | .mem16 _ _ => { h with pc := h.pc + 1 }
  | .mem32 _ _ => { h with pc := h.pc + 1 }
  | .letVar x e => { pc := h.pc + 1, vars := (x, e.eval h) :: h.vars }
  | .label _ => { h with pc := h.pc + 1 }
  | .bnz x l => { h with pc := if h.get x ≠ 0 then labelIndex prog l else h.pc + 1 }
  | .beq x k l => { h with pc := if h.get x = k then labelIndex prog l else h.pc + 1 }

/-! ### A script beside the machine -/

/-- A script in progress: the host, the transactions of its statement still to make, the machine, and the sequence of
transactions made so far, newest first, each read with its answer: the encoding of the script (30_encoding.md R100). -/
structure ScriptRun where
  host    : HostState
  pending : List Event
  machine : State
  trace   : List (Event × Option Word)
  deriving DecidableEq, Repr

/-- A script at its first statement, with no variable set. -/
def ScriptRun.start (s : State) : ScriptRun :=
  { host := { pc := 0, vars := [] }, pending := [], machine := s, trace := [] }

/-- What the host was answered when its transaction `e` left the machine in `t`. -/
def scriptAnswer (e : Event) (t : State) : Option Word :=
  match e, t.replies with
  | .regRead _ _, .reg _ v :: _ => some v
  | _, _ => none

/-- The transactions the host has still to make for the statement `st` it is at. -/
def ScriptRun.todo (r : ScriptRun) (st : Stmt) : List Event :=
  if r.pending = [] then st.transactions r.machine.cfg.engineBase r.host else r.pending

/-- The machine takes the transaction `e` of statement `st`, `rest` being left of it: one step. -/
def ScriptRun.transact (r : ScriptRun) (prog : List Stmt) (st : Stmt) (e : Event) (rest : List Event) :
    Host.Outcome ScriptRun Fault Refusal :=
  match step { r.machine with agenda := e :: r.machine.agenda } with
  | .next t => .next
      { host := if rest = [] then r.host.after prog ((scriptAnswer e t).getD 0#32).toNat st else r.host
        pending := rest
        machine := t
        trace := (e, scriptAnswer e t) :: r.trace }
  | .fault f => .fault f
  | .refused q => .refused q

/-- The host moves: it makes the next transaction of the statement at `pc`, or takes a statement that makes none; past
the end of the script it does nothing. -/
def ScriptRun.hostMove (prog : List Stmt) (r : ScriptRun) : Host.Outcome ScriptRun Fault Refusal :=
  match prog[r.host.pc]? with
  | none => .next r
  | some st =>
    match r.todo st with
    | [] => .next { r with host := r.host.after prog 0 st }
    | e :: rest => r.transact prog st e rest

/-- The rest of the world moves: the machine's own next step, which is the engine's turn when nothing is pending. -/
def ScriptRun.worldMove (r : ScriptRun) : Host.Outcome ScriptRun Fault Refusal :=
  match step r.machine with
  | .next t => .next { r with machine := t }
  | .fault f => .fault f
  | .refused q => .refused q

/-- Who moves next. -/
inductive Mover where
  | host
  | world
  deriving DecidableEq, Repr

def ScriptRun.move (prog : List Stmt) (r : ScriptRun) : Mover → Host.Outcome ScriptRun Fault Refusal
  | .host => r.hostMove prog
  | .world => r.worldMove

/-- A script run under a schedule; every interleaving of host and engine is one (60_exceptions.md R248). -/
def runScript (prog : List Stmt) : List Mover → ScriptRun → Host.Outcome ScriptRun Fault Refusal
  | [], r => .next r
  | m :: rest, r =>
    match r.move prog m with
    | .next r' => runScript prog rest r'
    | .fault f => .fault f
    | .refused q => .refused q

/-! ### The assembler and the pseudo-instructions -/

/-- The assembler: it refuses C outside 1 to 15 (30_encoding.md R101). -/
def assemble (i : Instr) : Option Word := if i.assemblable then some (encode i) else none

/-- `start` (30_encoding.md R102). -/
def pseudoStart : List Stmt := [.wr .ctrl (.lit 0x00000001)]

/-- `start.irq` (30_encoding.md R102). -/
def pseudoStartIrq : List Stmt := [.wr .ctrl (.lit 0x00000003)]

/-- `wait`: the poll loop, with the label and the variables it uses (30_encoding.md R102). -/
def pseudoWait (w s d : String) : List Stmt :=
  [.label w, .rd .status s, .letVar d (.band (.shr (.var s) 1) 1), .beq d 0 w]

/-- `clr` (30_encoding.md R102). -/
def pseudoClr : List Stmt := [.wr .status (.lit 0x0000000E)]

/-- The fixed order of `run`'s operand writes (30_encoding.md R102). -/
def runOrder : List Reg := [.srcAddr, .dstAddr, .coefAddr, .len, .count, .divider, .shift]

/-- `run MNEMONIC, NAME=v, …`: an operand not named is not written (30_encoding.md R102). DESIGN CHOICE (log 26), the rule
being silent: of an operand named twice the first value counts, and a name outside `runOrder` makes no write. -/
def pseudoRun (i : Instr) (operands : List (Reg × HostExpr)) (w s d : String) : Option (List Stmt) :=
  match assemble i with
  | none => none
  | some cmd =>
    some ((runOrder.filterMap fun r => (operands.lookup r).map fun v => Stmt.wr r v) ++
      [.wr .cmd (.lit cmd.toNat)] ++ pseudoStart ++ pseudoWait w s d)

end Sys2Proof.Machine
end

