-- ==== Sys2Proof/Safety.lean ====
section
/-! DEFINITION. What a safe run is, the invariant of the machine, and the words statements about it use: the values the
rules name (x, h, A, y, D, Q, score), written over single elements and independently of the loops of the meanings. -/

namespace Sys2Proof.Machine

/-! ### Safe runs -/

/-- The step goes on: no fault, no refusal. -/
def Runs (s : State) : Prop := ∃ t, step s = .next t

/-- `n` steps, as far as they go on. -/
def runSteps : Nat → State → Host.Outcome State Fault Refusal
  | 0, s => .next s
  | n + 1, s =>
    match step s with
    | .next t => runSteps n t
    | .fault f => .fault f
    | .refused r => .refused r

/-- What a host may do next (40_control.md R133): register accesses are aligned 32-bit accesses of the block (R122),
data accesses lie in the data space, and no write touches a region of the running command
(70_reset_and_hazards.md R277). -/
def Event.keepsDuties (s : State) : Event → Bool
  | .regWrite addr width _ => blockAccess s.cfg addr width
  | .regRead addr width => blockAccess s.cfg addr width
  | .memWrite addr bytes =>
    inDataSpace addr bytes.length && !s.busyRegions.any (Region.meets ⟨addr, bytes.length⟩)
  | .memRead addr count => inDataSpace addr count
  | .sampleIrq => true
  | .cacheClean _ _ => true
  | .cacheInvalidate _ _ => true
  | .engine => true
  | .reset => true

/-! ### Completion -/

/-- The state of a successful completion (40_control.md R129). -/
structure Succeeded (t : State) (value : Nat) : Prop where
  result  : t.regs.result = BitVec.ofNat 32 value
  err     : t.regs.err = false
  errCode : t.regs.errCode = .noError
  errAddr : t.regs.errAddr = 0#32
  done    : t.regs.done = true
  idle    : t.phase = .idle

/-- The state of an error completion (40_control.md R130). -/
structure Failed (t : State) (code : ErrCode) (addr : Nat) : Prop where
  result  : t.regs.result = 0#32
  err     : t.regs.err = true
  errCode : t.regs.errCode = code
  errAddr : t.regs.errAddr = BitVec.ofNat 32 addr
  done    : t.regs.done = true
  idle    : t.phase = .idle

/-- Everything but the completion's own registers, the hidden registers, memory, cache marks and the draw number is
as before. -/
structure KeepsRest (s t : State) : Prop where
  cfg      : t.cfg = s.cfg
  params   : t.P = s.P
  snapshot : t.m0 = s.m0
  agenda   : t.agenda = s.agenda
  replies  : t.replies = s.replies
  irqEn    : t.regs.irqEn = s.regs.irqEn
  sovr     : t.regs.sovr = s.regs.sovr
  cmd      : t.regs.cmd = s.regs.cmd
  srcAddr  : t.regs.srcAddr = s.regs.srcAddr
  dstAddr  : t.regs.dstAddr = s.regs.dstAddr
  coefAddr : t.regs.coefAddr = s.regs.coefAddr
  len      : t.regs.len = s.regs.len
  count    : t.regs.count = s.regs.count
  divider  : t.regs.divider = s.regs.divider
  shift    : t.regs.shift = s.regs.shift

/-! ### Invariant -/

/-- The datum is a value of the format, in canonical form. -/
def fpFits (f : FpFormat) : Fp → Bool
  | .nan => true
  | .inf _ => true
  | .fin _ m e =>
    (decide (m = 0) && decide (e = 0)) ||
      (decide (m % 2 = 1) && decide (m < 2 ^ f.prec) && decide (f.lsbMin ≤ e) && decide (e + m.log2 ≤ f.maxExp))

/-- An accumulator slot holds an ACC_BITS-wide integer or a binary64 value (10_state.md R39). -/
def AccReg.fits (w : AccBits) : AccReg → Bool
  | .fixed v => accFits w v
  | .float x => fpFits binary64 x

/-- NORM holds a natural number or a binary64 value (10_state.md R40). -/
def NormReg.fits : NormReg → Bool
  | .fixed _ => true
  | .float x => fpFits binary64 x

/-- The invariant of the machine. -/
structure EngineInv (s : State) : Prop where
  /-- Data memory keeps its canonical form. -/
  memWf : Memory.wf s.mem = true
  m0Wf  : Memory.wf s.m0.mem = true
  /-- While BUSY the host sees DONE = 0, ERR = 0, RESULT = 0 and ERR_ADDR = 0 (40_control.md R121, R127). -/
  busy  : s.phase = .busy →
    s.regs.done = false ∧ s.regs.err = false ∧ s.regs.result = 0#32 ∧ s.regs.errAddr = 0#32
  /-- ERR_CODE is 0 exactly while ERR = 0 (60_exceptions.md R240; 40_control.md R126). -/
  code  : s.regs.err = false ↔ s.regs.errCode = .noError
  /-- RESULT keeps 0 after an error (10_state.md R32). -/
  errResult : s.regs.err = true → s.regs.result = 0#32
  /-- ERR_ADDR is 0 after an error other than BUS (10_state.md R33). -/
  errAddr : s.regs.err = true → s.regs.errCode ≠ .bus → s.regs.errAddr = 0#32
  /-- The internal registers hold values of their widths (10_state.md R39 to R41). -/
  acc   : ∀ k, (h : k < 16) → (s.hidden.acc[k]).fits s.cfg.accBits = true
  recip : fpFits binary64 s.hidden.recip = true
  norm  : s.hidden.norm.fits = true
  best  : fpFits binary64 s.hidden.bestScore = true

/-! ### The real number of a datum -/

/-- The number a finite datum stands for. -/
def fpRat : Fp → ℚ
  | .nan => 0
  | .inf _ => 0
  | .fin neg m e => (if neg then -1 else 1) * (m : ℚ) * (2 : ℚ) ^ e

/-! ### The values of a FIR command (41_fir.md R150 to R159) -/

/-- The int16 at `a` in data memory (20_memory.md R62). -/
def memHalf (m : Memory) (a : Nat) : BitVec 16 := m.byteAt (a + 1) ++ m.byteAt a

/-- The 32-bit word at `a` in data memory (20_memory.md R62). -/
def memWord (m : Memory) (a : Nat) : Word :=
  m.byteAt (a + 3) ++ m.byteAt (a + 2) ++ m.byteAt (a + 1) ++ m.byteAt a

/-- The source frame element x(k, c), byte address (41_fir.md R150). -/
def frameElem (p : Params) (esz c k ch : Nat) : Nat := p.srcAddr.toNat + (k * c + ch) * esz

/-- h(k) in FIXED mode. -/
def tap16 (s : State) (k : Nat) : Int := (s.half (coefElem s.P 2 k)).toInt

/-- x(k, c) in FIXED mode. -/
def sample16 (s : State) (c k ch : Nat) : Int := (s.half (frameElem s.P 2 c k ch)).toInt

/-- A(j, c) = Σ h(k) x(j+k, c) (41_fir.md R153). -/
def firSum (s : State) (c j ch : Nat) : Int :=
  ∑ k ∈ Finset.range s.P.len.toNat, tap16 s k * sample16 s c (j + k) ch

/-- y(j, c) in FIXED mode (41_fir.md R155, R156). -/
def firOut (s : State) (c j ch : Nat) : Int := sat16 (asr (firSum s c j ch) s.P.shift.toNat)

/-- h(k) in FLOAT mode. -/
def tap32 (s : State) (k : Nat) : Fp := fp32 (s.word (coefElem s.P 4 k))

/-- x(k, c) in FLOAT mode. -/
def sample32 (s : State) (c k ch : Nat) : Fp := fp32 (s.word (frameElem s.P 4 c k ch))

/-- The binary64 sum of position (j, c), in tap order from +0.0 (41_fir.md R158). -/
def firSum64 (s : State) (c j ch : Nat) : Fp :=
  (List.range s.P.len.toNat).foldl (fun a k => add64 a (mul64 (tap32 s k) (sample32 s c (j + k) ch))) .posZero

/-- The binary64 reciprocal of the divider (41_fir.md R157). -/
def recip64 (s : State) : Fp := div64 fpOne (fp32 s.P.divider)

/-- y(j, c) in FLOAT mode (41_fir.md R159). -/
def firOut64 (s : State) (c j ch : Nat) : Fp := cvt32 (mul64 (firSum64 s c j ch) (recip64 s))

/-- Every element a FIR command reads is answered by the platform. -/
def FirReadable (s : State) (c : Nat) : Prop :=
  (∀ k, k < s.P.len.toNat → memOk s.cfg (coefElem s.P s.esz k) s.esz .read = true) ∧
  ∀ j ch k, j < s.P.outputs → ch < c → k < s.P.len.toNat →
    memOk s.cfg (sourceElem s.P s.esz c j ch k) s.esz .read = true

/-- Every element a FIR command writes is accepted by the platform. -/
def FirWritable (s : State) (c : Nat) : Prop :=
  ∀ e, e < s.P.outputs * c → memOk s.cfg (destElem s.P s.esz e) s.esz .write = true

/-- Every sum fits the accumulator (41_fir.md R154). -/
def FirFits (s : State) (c : Nat) : Prop :=
  ∀ j ch, j < s.P.outputs → ch < c → accFits s.cfg.accBits (firSum s c j ch) = true

/-! ### The events of a FIR command, in the architectural order (20_memory.md R73; 60_exceptions.md R241) -/

/-- An event that can end a FIR command: an element access, or the overflow check of a position. -/
inductive FirEvent where
  | access (kind : AccessKind) (addr : Nat)
  | sum (j ch : Nat)
  deriving DecidableEq, Repr

/-- The events of destination element `e` = j*C + c: the read pairs, the overflow check, the write. -/
def positionEvents (s : State) (c e : Nat) : List FirEvent :=
  ((List.range s.P.len.toNat).flatMap fun k =>
    [.access .read (coefElem s.P s.esz k), .access .read (sourceElem s.P s.esz c (e / c) (e % c) k)]) ++
  [.sum (e / c) (e % c), .access .write (destElem s.P s.esz e)]

/-- All events of the command, each with its destination element. -/
def firEvents (s : State) (c : Nat) : List (Nat × FirEvent) :=
  (List.range (s.P.outputs * c)).flatMap fun e => (positionEvents s c e).map fun v => (e, v)

/-- The event fails: the platform rejects the access, or the FIXED-mode sum does not fit. -/
def FirEvent.fails (s : State) (c : Nat) : FirEvent → Bool
  | .access kind addr => !memOk s.cfg addr s.esz kind
  | .sum j ch => decide (s.cfg.sampleMode = .fixed) && !accFits s.cfg.accBits (firSum s c j ch)

/-- The error code of a failing event (60_exceptions.md R240). -/
def FirEvent.code : FirEvent → ErrCode
  | .access _ _ => .bus
  | .sum _ _ => .accOvf

/-- ERR_ADDR of a failing event (60_exceptions.md R243). -/
def FirEvent.addr : FirEvent → Nat
  | .access _ a => a
  | .sum _ _ => 0

/-! ### The values of CORR_SEARCH (42_corr.md R190 to R202) -/

/-- r_i(k) in FIXED mode. -/
def ref16 (s : State) (c i k : Nat) : Int := (s.half (refElem s.P 2 c i k)).toInt

/-- c(k) in FIXED mode. -/
def cmp16 (s : State) (k : Nat) : Int := (s.half (cmpElem s.P 2 k)).toInt

/-- r_i(k) in FLOAT mode. -/
def ref32 (s : State) (c i k : Nat) : Fp := fp32 (s.word (refElem s.P 4 c i k))

/-- c(k) in FLOAT mode. -/
def cmp32 (s : State) (k : Nat) : Fp := fp32 (s.word (cmpElem s.P 4 k))

/-- D_i (42_corr.md R193). -/
def corrD (s : State) (c i : Nat) : Int := ∑ k ∈ Finset.range (s.P.window c), ref16 s c i k * cmp16 s k

/-- Q_i (42_corr.md R194). -/
def corrQ (s : State) (c i : Nat) : Int := ∑ k ∈ Finset.range (s.P.window c), ref16 s c i k * ref16 s c i k

/-- d_i in FLOAT mode (42_corr.md R193). -/
def dot64 (s : State) (c i : Nat) : Fp :=
  (List.range (s.P.window c)).foldl (fun a k => add64 a (mul64 (ref32 s c i k) (cmp32 s k))) .posZero

/-- f_i, the fresh normalizer in FLOAT mode (42_corr.md R194). -/
def fresh64 (s : State) (c i : Nat) : Fp :=
  (List.range (s.P.window c)).foldl (fun a k => add64 a (mul64 (ref32 s c i k) (ref32 s c i k))) .posZero

/-- The incremental normalizer in FLOAT mode: exits of window i-1 subtracted, then entries of window i added, each in
increasing channel (42_corr.md R195). -/
def incremental64 (s : State) (c : Nat) : Nat → Fp
  | 0 => fresh64 s c 0
  | i + 1 =>
    let exited := (List.range c).foldl
      (fun a ch => sub64 a (mul64 (ref32 s c i ch) (ref32 s c i ch))) (incremental64 s c i)
    (List.range c).foldl
      (fun a ch => add64 a (mul64 (ref32 s c (i + 1) (s.P.window c - c + ch)) (ref32 s c (i + 1) (s.P.window c - c + ch))))
      exited

/-- d_i of the instance's mode (42_corr.md R193). -/
def corrDotAt (s : State) (c i : Nat) : Fp :=
  match s.cfg.sampleMode with
  | .fixed => fpOfInt (corrD s c i)
  | .float => dot64 s c i

/-- n_i of the instance's mode and the normalizer mode (42_corr.md R196). -/
def corrNormAt (s : State) (c : Nat) (nm : NormMode) (i : Nat) : Fp :=
  match s.cfg.sampleMode, nm with
  | .fixed, _ => fpOfInt (corrQ s c i)
  | .float, .incremental => incremental64 s c i
  | .float, .fresh => fresh64 s c i

/-- score_i (42_corr.md R197 to R201). -/
def corrScoreAt (s : State) (c : Nat) (nm : NormMode) (i : Nat) : Fp :=
  let n := corrNormAt s c nm i
  let floored := if lt64 n fpEps then fpOne else n
  let raw := div64 (corrDotAt s c i) (sqrt64 floored)
  let t := div64 (fpOfInt (2 * (i : Int) - (s.P.count.toNat : Int))) (fpOfInt (s.P.count.toNat : Int))
  let weight := if i = 0 then fpC075 else sub64 fpOne (mul64 (mul64 fpC025 t) t)
  mul64 (add64 raw fpC01) weight

/-- The strict-improvement scan over offsets 0 to n (42_corr.md R202). -/
def bestOffset (score : Nat → Fp) : Nat → Nat
  | 0 => 0
  | n + 1 => if gt64 (score (n + 1)) (score (bestOffset score n)) then n + 1 else bestOffset score n

/-- Every element the search reads is answered by the platform. -/
def CorrReadable (s : State) (c : Nat) : Prop :=
  ∀ i k, i < s.P.count.toNat → k < s.P.window c →
    memOk s.cfg (refElem s.P s.esz c i k) s.esz .read = true ∧ memOk s.cfg (cmpElem s.P s.esz k) s.esz .read = true

/-- The element reads of CORR_SEARCH in the architectural order (20_memory.md R73). -/
def corrAccesses (s : State) (c : Nat) : List Nat :=
  (List.range s.P.count.toNat).flatMap fun i =>
    (List.range (s.P.window c)).flatMap fun k => [refElem s.P s.esz c i k, cmpElem s.P s.esz k]

/-! ### Host accesses and regions -/

/-- A latched parameter as a word (10_state.md R38). -/
def Params.value (p : Params) : Reg → Word
  | .cmd => p.cmd
  | .srcAddr => p.srcAddr
  | .dstAddr => p.dstAddr
  | .coefAddr => p.coefAddr
  | .len => p.len
  | .count => p.count
  | .divider => p.divider
  | .shift => 0#26 ++ p.shift
  | .id => 0#32
  | .ctrl => 0#32
  | .status => 0#32
  | .result => 0#32
  | .errAddr => 0#32

/-- The registers a host writes for a command (40_control.md R125). -/
def operandRegs : List Reg := [.cmd, .srcAddr, .dstAddr, .coefAddr, .len, .count, .divider, .shift]

/-- The byte addresses of destination element `e`. -/
def inDestElem (s : State) (e a : Nat) : Bool := inRange (destElem s.P s.esz e) s.esz a

/-- A register write of the host as the next event. -/
def State.thenWrites (s : State) (r : Reg) (v : Word) : State :=
  { s with agenda := .regWrite (s.cfg.engineBase + r.offset) 4 v :: s.agenda }

/-- An event of the outside world as the next one. -/
def State.thenDoes (s : State) (e : Event) : State := { s with agenda := e :: s.agenda }

/-- The transactions of a host script as the next events (30_encoding.md R100), for scripts whose expressions do not
change from one statement to the next. -/
def State.thenScript (s : State) (h : HostState) (prog : List Stmt) : State :=
  { s with agenda := prog.flatMap (Stmt.transactions s.cfg.engineBase h) ++ s.agenda }

/-- A register read of the host as the next event. -/
def State.thenReads (s : State) (r : Reg) : State :=
  { s with agenda := .regRead (s.cfg.engineBase + r.offset) 4 :: s.agenda }

end Sys2Proof.Machine
end

