-- ==== Sys2Proof/Certificates/Slice0/Obligations.lean ====
section
/-! DEFINITION. The statements for the provers: the numbered rules of the spec that say what a command, a register access or
the machine does. -/

open Sys2Proof Sys2Proof.Machine

/-! ### Command words (30_encoding.md) -/

/-- Every well-formed command is what the decoder reads from its own command word. -/
def Obligations.EncodeThenDecode : Prop :=
  ∀ i : Instr, i.wellFormed = true → decode (encode i) = .command i

/-- A word the decoder accepts is the command word of the command it answers: no bit of a word is dropped. -/
def Obligations.DecodeThenEncode : Prop :=
  ∀ (w : Word) (i : Instr), decode w = .command i → i.wellFormed = true ∧ encode i = w

/-- R95: exactly the reserved encodings are illegal, and a running command with one ends with ILLEGAL_OP. -/
def Obligations.ReservedWordsEndInIllegalOp : Prop :=
  (∀ w : Word, (∃ why, decode w = .illegal why) ↔
    (w.toNat % 16 = 0 ∨ 5 ≤ w.toNat % 16) ∨ w.toNat / 512 ≠ 0 ∨
    (w.toNat / 16 % 16 ≠ 0 ∧ (w.toNat % 16 = 1 ∨ w.toNat % 16 = 2)) ∨
    (w.toNat / 256 % 2 ≠ 0 ∧ (w.toNat % 16 = 1 ∨ w.toNat % 16 = 2 ∨ w.toNat % 16 = 3))) ∧
  ∀ (s : State) (why : Illegal), s.phase = .busy → decode s.P.cmd = .illegal why →
    ∃ t, step (s.thenDoes .engine) = .next t ∧ Failed t .illegalOp 0 ∧ t.mem = s.mem ∧ KeepsRest s t

/-- Command words of 95_test_vectors.md section 2 decode to the commands they stand for. -/
def Obligations.SpecWordsDecode : Prop :=
  decode 0x00000001#32 = .command .firMono ∧ decode 0x00000002#32 = .command .firStereo ∧
  decode 0x000000F3#32 = .command (.firMulti 15) ∧ decode 0x00000014#32 = .command (.corrSearch 1 .incremental) ∧
  decode 0x00000124#32 = .command (.corrSearch 2 .fresh) ∧ decode 0x00000214#32 = .illegal .reservedBits ∧
  decode 0x00000011#32 = .illegal .channelField ∧ decode 0x00000102#32 = .illegal .normField

/-- R101: the assembler's words, and its refusal of C outside 1 to 15. -/
def Obligations.AssemblerWords : Prop :=
  assemble .firMono = some 0x00000001#32 ∧ assemble .firStereo = some 0x00000002#32 ∧
  (∀ c, 1 ≤ c → c ≤ 15 →
    assemble (.firMulti c) = some (BitVec.ofNat 32 c <<< 4 ||| 0x3#32) ∧
    assemble (.corrSearch c .incremental) = some (BitVec.ofNat 32 c <<< 4 ||| 0x4#32) ∧
    assemble (.corrSearch c .fresh) = some (0x100#32 ||| BitVec.ofNat 32 c <<< 4 ||| 0x4#32)) ∧
  (∀ c nm, (c = 0 ∨ 15 < c) → assemble (.firMulti c) = none ∧ assemble (.corrSearch c nm) = none) ∧
  ∀ i w, assemble i = some w → ∃ j, decode w = .command j

/-- The engine's step runs the command the latched word decodes to; the only thing a pending engine event adds is that
it leaves the agenda. -/
def Obligations.StepRunsDecodedCommand : Prop :=
  ∀ (s : State) (i : Instr), s.phase = .busy → decode s.P.cmd = .command i →
    (s.agenda = [] → step s = exec i s) ∧ step (s.thenDoes .engine) = exec i s

/-- A command word placed by `withFetchWord` runs in the very next step, on the registers of the moment. -/
def Obligations.PlacedWordRunsNext : Prop :=
  ∀ (s : State) (w : Word) (i : Instr), decode w = .command i →
    step (s.withFetchWord 32 w.toNat) = exec i (acceptStart { s with regs := { s.regs with cmd := w } })

/-! ### Registers (10_state.md, 40_control.md) -/

/-- R120: the effect of a write to each register, at its offset (10_state.md R20), in either engine phase. -/
def Obligations.RegisterWritesTakeEffect : Prop :=
  ∀ (s : State) (v : Word), s.cfg.engineBase % 4 = 0 →
    let written (off : Nat) := step (s.thenDoes (.regWrite (s.cfg.engineBase + off) 4 v))
    written 0x00 = .next s ∧
    written 0x04 =
      .next (if v.getLsbD 0 then startRequest { s with regs := { s.regs with irqEn := v.getLsbD 1 } }
        else { s with regs := { s.regs with irqEn := v.getLsbD 1 } }) ∧
    written 0x08 = .next (clearStatus s v) ∧
    written 0x0C = .next { s with regs := { s.regs with cmd := v } } ∧
    written 0x10 = .next { s with regs := { s.regs with srcAddr := v } } ∧
    written 0x14 = .next { s with regs := { s.regs with dstAddr := v } } ∧
    written 0x18 = .next { s with regs := { s.regs with coefAddr := v } } ∧
    written 0x1C = .next { s with regs := { s.regs with len := v } } ∧
    written 0x20 = .next { s with regs := { s.regs with count := v } } ∧
    written 0x24 = .next { s with regs := { s.regs with divider := v } } ∧
    written 0x28 = .next { s with regs := { s.regs with shift := v.extractLsb' 0 6 } } ∧
    written 0x2C = .next s ∧ written 0x30 = .next s ∧
    ∀ off, 0x34 ≤ off → off ≤ 0xFC → off % 4 = 0 → written off = .next s

/-- R121: a read at a register's offset (10_state.md R20) answers its value and does nothing else; START and reserved
fields read 0, BUSY is the phase, RESULT and ERR_ADDR read 0 while BUSY (in states of the invariant). -/
def Obligations.RegisterReadsAnswerValues : Prop :=
  ∀ (s : State) (r : Reg), s.cfg.engineBase % 4 = 0 →
    let off := match r with
      | .id => 0x00
      | .ctrl => 0x04
      | .status => 0x08
      | .cmd => 0x0C
      | .srcAddr => 0x10
      | .dstAddr => 0x14
      | .coefAddr => 0x18
      | .len => 0x1C
      | .count => 0x20
      | .divider => 0x24
      | .shift => 0x28
      | .result => 0x2C
      | .errAddr => 0x30
    step (s.thenDoes (.regRead (s.cfg.engineBase + off) 4)) =
      .next { s with replies := .reg (s.cfg.engineBase + off) (readRegister s r) :: s.replies } ∧
    (∀ b, b ≠ 1 → (readRegister s .ctrl).getLsbD b = false) ∧ (readRegister s .ctrl).getLsbD 1 = s.regs.irqEn ∧
    (∀ b, 6 ≤ b → (readRegister s .shift).getLsbD b = false) ∧
    (∀ b, b < 6 → (readRegister s .shift).getLsbD b = s.regs.shift.getLsbD b) ∧
    ((readRegister s .status).getLsbD 0 = true ↔ s.phase = .busy) ∧
    (∀ b, (4 ≤ b ∧ b < 8) ∨ 12 ≤ b → (readRegister s .status).getLsbD b = false) ∧
    (EngineInv s → s.phase = .busy → readRegister s .result = 0#32 ∧ readRegister s .errAddr = 0#32) ∧
    readRegister s .cmd = s.regs.cmd ∧ readRegister s .srcAddr = s.regs.srcAddr ∧
    readRegister s .dstAddr = s.regs.dstAddr ∧ readRegister s .coefAddr = s.regs.coefAddr ∧
    readRegister s .len = s.regs.len ∧ readRegister s .count = s.regs.count ∧
    readRegister s .divider = s.regs.divider ∧ readRegister s .result = s.regs.result ∧
    readRegister s .errAddr = s.regs.errAddr ∧
    ∀ off, 0x34 ≤ off → off ≤ 0xFC → off % 4 = 0 →
      step (s.thenDoes (.regRead (s.cfg.engineBase + off) 4)) =
        .next { s with replies := .reg (s.cfg.engineBase + off) 0#32 :: s.replies }

/-- R122: an access of another width, not aligned to 4, or outside the block is refused by a fault. -/
def Obligations.OtherRegisterAccessesFault : Prop :=
  ∀ (s : State) (addr width : Nat) (v : Word),
    (width ≠ 4 ∨ addr % 4 ≠ 0 ∨ addr < s.cfg.engineBase ∨ s.cfg.engineBase + 256 ≤ addr) →
    step (s.thenDoes (.regWrite addr width v)) = .fault .registerAccess ∧
    step (s.thenDoes (.regRead addr width)) = .fault .registerAccess

/-- R34: the reserved offsets read 0 and ignore writes. -/
def Obligations.ReservedOffsetsReadZero : Prop :=
  ∀ (s : State) (off : Nat) (v : Word), 0x34 ≤ off → off ≤ 0xFC →
    readOffset s off = 0#32 ∧ writeOffset s off v = s

/-- R21: the fields of ID, its three legal values, and that neither a write nor reset changes it. -/
def Obligations.IdHasThreeValues : Prop :=
  ∀ s : State,
    (readRegister s .id).extractLsb' 16 16 = 0xF1C5#16 ∧ (readRegister s .id).extractLsb' 10 6 = 0#6 ∧
    ((readRegister s .id).getLsbD 9 = true ↔ s.cfg.sampleMode = .fixed ∧ s.cfg.accBits = .w64) ∧
    ((readRegister s .id).getLsbD 8 = true ↔ s.cfg.sampleMode = .float) ∧
    (readRegister s .id).extractLsb' 0 8 = 0x01#8 ∧
    readRegister s .id = (match s.cfg.sampleMode, s.cfg.accBits with
      | .fixed, .w32 => 0xF1C50001#32
      | .fixed, .w64 => 0xF1C50201#32
      | .float, _ => 0xF1C50101#32) ∧
    (∀ v, writeOffset s Reg.id.offset v = s) ∧
    ∃ t, step (s.thenDoes .reset) = .next t ∧ readRegister t .id = readRegister s .id

/-- The bits of STATUS (10_state.md R23), the numbers of the error codes (60_exceptions.md R240), and, in states of the
invariant, never BUSY and DONE together (R248). -/
def Obligations.StatusBits : Prop :=
  ∀ s : State, (s.statusWord.getLsbD 0 = true ↔ s.phase = .busy) ∧ s.statusWord.getLsbD 1 = s.regs.done ∧
    s.statusWord.getLsbD 2 = s.regs.err ∧ s.statusWord.getLsbD 3 = s.regs.sovr ∧
    s.statusWord.toNat / 16 % 16 = 0 ∧
    s.statusWord.toNat / 256 = (match s.regs.errCode with
      | .noError => 0
      | .illegalOp => 1
      | .badChannels => 2
      | .badLength => 3
      | .badSeek => 4
      | .badOvl => 5
      | .nullAddr => 6
      | .misaligned => 7
      | .range => 8
      | .overlap => 9
      | .bus => 10
      | .accOvf => 11) ∧
    (EngineInv s → ¬ (s.statusWord.getLsbD 0 = true ∧ s.statusWord.getLsbD 1 = true))

/-- R123: what an accepted start latches, clears and leaves. -/
def Obligations.AcceptedStartLatchesParameters : Prop :=
  ∀ (s : State) (v : Word), s.cfg.engineBase % 4 = 0 → s.phase = .idle → v.getLsbD 0 = true →
    ∃ t, step (s.thenWrites .ctrl v) = .next t ∧
      t.P = { cmd := s.regs.cmd, srcAddr := s.regs.srcAddr, dstAddr := s.regs.dstAddr, coefAddr := s.regs.coefAddr,
              len := s.regs.len, count := s.regs.count, divider := s.regs.divider, shift := s.regs.shift } ∧
      t.regs = { s.regs with irqEn := v.getLsbD 1, done := false, err := false, errCode := .noError, result := 0#32,
                             errAddr := 0#32 } ∧
      t.phase = .busy ∧ t.m0.mem = s.mem ∧ t.mem = s.mem ∧ t.hidden = s.hidden ∧ t.cfg = s.cfg ∧ t.agenda = s.agenda

/-- R124: a start request while BUSY sets SOVR, updates IRQ_EN, and does nothing else. -/
def Obligations.StartWhileBusyIsLost : Prop :=
  ∀ (s : State) (v : Word), s.cfg.engineBase % 4 = 0 → s.phase = .busy → v.getLsbD 0 = true →
    step (s.thenWrites .ctrl v) = .next { s with regs := { s.regs with irqEn := v.getLsbD 1, sovr := true } }

/-- R125: an operand or command write while BUSY changes the register, not the running command; the next accepted start
latches it. -/
def Obligations.WritesWhileBusyWaitForNextStart : Prop :=
  ∀ (s : State) (v : Word) (r : Reg), s.cfg.engineBase % 4 = 0 → s.phase = .busy → r ∈ operandRegs →
    ∃ t, step (s.thenWrites r v) = .next t ∧
      readRegister t r = (if r = .shift then 0#26 ++ v.extractLsb' 0 6 else v) ∧
      t.P = s.P ∧ t.phase = .busy ∧ (acceptStart t).P.value r = readRegister t r ∧
      ∀ (i : Instr) (u : State), exec i s = .next u →
        ∃ u', exec i t = .next u' ∧ u'.regs.result = u.regs.result ∧ u'.statusWord = u.statusWord ∧
          u'.regs.errAddr = u.regs.errAddr ∧ u'.mem = u.mem ∧ u'.hidden = u.hidden

/-- R126: the write-1-to-clear of STATUS. -/
def Obligations.StatusWriteClears : Prop :=
  ∀ (s : State) (v : Word), s.cfg.engineBase % 4 = 0 →
    ∃ t, step (s.thenWrites .status v) = .next t ∧
      t = { s with regs := { s.regs with
        done := if v.getLsbD 1 then false else s.regs.done
        err := if v.getLsbD 2 then false else s.regs.err
        errCode := if v.getLsbD 2 then .noError else s.regs.errCode
        sovr := if v.getLsbD 3 then false else s.regs.sovr } } ∧
      (v.getLsbD 1 = true → t.irq = false) ∧
      (EngineInv s → s.phase = .busy →
        t = { s with regs := { s.regs with sovr := if v.getLsbD 3 then false else s.regs.sovr } })

/-- R35 and R247: IRQ is IRQ_EN and DONE; completion raises it when enabled, and clearing DONE, an accepted start,
IRQ_EN = 0 and reset drop it. How the host samples it, as an event that answers the level on the platform's line, is the
model's choice (log 20), and so is that a command completes in one engine turn (log 8). -/
def Obligations.InterruptFollowsDone : Prop :=
  ∀ s : State, s.cfg.engineBase % 4 = 0 →
    (s.irq = true ↔ s.regs.irqEn = true ∧ s.regs.done = true) ∧
    step (s.thenDoes .sampleIrq) = .next { s with replies := .irq s.cfg.irqLine s.irq :: s.replies } ∧
    (s.phase = .busy → ∃ t, step (s.thenDoes .engine) = .next t ∧ t.irq = s.regs.irqEn) ∧
    (∃ t, step (s.thenWrites .status 0x2#32) = .next t ∧ t.irq = false) ∧
    (s.phase = .idle → ∃ t, step (s.thenWrites .ctrl 0x3#32) = .next t ∧ t.irq = false) ∧
    (∃ t, step (s.thenWrites .ctrl 0x0#32) = .next t ∧ t.irq = false ∧ t.regs.done = s.regs.done) ∧
    (∃ t, step (s.thenDoes .reset) = .next t ∧ t.irq = false) ∧ State.reset.irq = false

/-! ### Reset (70_reset_and_hazards.md) -/

/-- What reset puts in the registers and the phase (70_reset_and_hazards.md R270), and what it does to data memory
(R271): the destination of a command it cuts short is free, every other byte unchanged. That the destination is freed
also where a static check would fail or where it overlaps an input, and that an illegal word has none, is the model's
reading (log 12). -/
def Obligations.ResetRestoresRegisters : Prop :=
  ∀ s : State, ∃ t, step (s.thenDoes .reset) = .next t ∧
    t.regs = { irqEn := false, done := false, err := false, sovr := false, errCode := .noError, cmd := 0#32,
               srcAddr := 0#32, dstAddr := 0#32, coefAddr := 0#32, len := 0#32, count := 0#32,
               divider := 0x3F800000#32, shift := 0#6, result := 0#32, errAddr := 0#32 } ∧
    t.statusWord = 0#32 ∧ t.phase = .idle ∧ t.irq = false ∧ readRegister t .id = readRegister s .id ∧
    (s.phase = .idle → ∀ a, Memory.byteAt t.mem a = Memory.byteAt s.mem a) ∧
    (∀ i, s.phase = .busy → decode s.P.cmd = .command i → ∀ a,
      ((destRegion i s.P s.esz).contains a = false → Memory.byteAt t.mem a = Memory.byteAt s.mem a) ∧
      ((destRegion i s.P s.esz).contains a = true → a < 4294967296 →
        Memory.byteAt t.mem a = Config.freeByte s.draws a)) ∧
    (∀ why, s.phase = .busy → decode s.P.cmd = .illegal why → ∀ a, Memory.byteAt t.mem a = Memory.byteAt s.mem a)

/-- The state after power-on reset has the spec's reset values, whatever the parameters (10_state.md R20;
70_reset_and_hazards.md R272). -/
def Obligations.PowerOnState : Prop :=
  ∀ c : Config, (State.resetWith c).cfg = c ∧ (State.resetWith c).phase = .idle ∧
    (State.resetWith c).statusWord = 0#32 ∧ (State.resetWith c).ctrlWord = 0#32 ∧
    (∀ r : Reg, r ≠ .id → r ≠ .divider → readRegister (State.resetWith c) r = 0#32) ∧
    readRegister (State.resetWith c) .divider = 0x3F800000#32 ∧ (State.resetWith c).mem = [] ∧
    step (State.resetWith c) = .next (State.resetWith c)

/-- The invariant holds right after reset, whatever the parameters (log 3 names the values of the hidden registers). -/
def Obligations.ResetMeetsInvariant : Prop := EngineInv State.reset ∧ ∀ c : Config, EngineInv (State.resetWith c)

/-! ### The machine -/

/-- Every step keeps the invariant, from every state that meets it. -/
def Obligations.StepKeepsInvariant : Prop := ∀ s t : State, EngineInv s → step s = .next t → EngineInv t

/-- R131: an accepted command completes at the engine's next turn, whatever the command and the data. -/
def Obligations.BusyEngineCompletes : Prop :=
  ∀ s : State, s.phase = .busy →
    (∃ t, step (s.thenDoes .engine) = .next t ∧ t.phase = .idle ∧ t.regs.done = true) ∧
    (s.agenda = [] → ∃ t, step s = .next t ∧ t.phase = .idle ∧ t.regs.done = true)

/-- R132: only the engine's completion and reset end a command; no register access does. -/
def Obligations.NothingElseEndsACommand : Prop :=
  ∀ s t : State, s.phase = .busy → step s = .next t → t.phase = .idle →
    s.agenda = [] ∨ ∃ e rest, s.agenda = e :: rest ∧ (e = .engine ∨ e = .reset)

/-- R255 and R272: an accepted START is the only thing that leaves IDLE, and an idle engine with nothing pending waits. -/
def Obligations.OnlyStartLeavesIdle : Prop :=
  ∀ s : State, s.phase = .idle →
    (s.agenda = [] → step s = .next s) ∧
    ∀ t, step s = .next t → t.phase = .busy →
      ∃ v rest, s.agenda = .regWrite (s.cfg.engineBase + Reg.ctrl.offset) 4 v :: rest ∧ v.getLsbD 0 = true

/-- No step changes the parameters of the instance, so ID always reads the same (00_scope.md R4; 10_state.md R21). -/
def Obligations.ParametersNeverChange : Prop :=
  ∀ s t : State, step s = .next t → t.cfg = s.cfg ∧ readRegister t .id = readRegister s .id

/-- Where the machine stops: it goes on with nothing pending, and with an event pending exactly when that event keeps
the duties of `Event.keepsDuties`. The model's choice in part: which register accesses fault is log 10, which writes are
refused log 11, and that a host data access goes on exactly inside the data space log 15. -/
def Obligations.OnlyBrokenDutiesStopTheMachine : Prop :=
  ∀ s : State, (s.agenda = [] → Runs s) ∧
    ∀ (e : Event) (rest : List Event), s.agenda = e :: rest → (Runs s ↔ e.keepsDuties s = true)

/-! ### Static checks (40_control.md R128, R130) -/

/-- R128: the static checks in their order, with the regions computed in ℤ (20_memory.md R64, R65). -/
def Obligations.StaticChecksInOrder : Prop :=
  ∀ (i : Instr) (p : Params) (esz : Nat), esz = 2 ∨ esz = 4 →
    let C : ℤ := i.channels
    let L : ℤ := p.len.toNat
    let N : ℤ := p.count.toNat
    let src : ℤ := p.srcAddr.toNat
    let dst : ℤ := p.dstAddr.toNat
    let coef : ℤ := p.coefAddr.toNat
    let srcSize : ℤ := if i.isFir then (if N - L > 0 then (N - 1) * C * esz else 0) else ((N - 1) * C + C * L) * esz
    let coefSize : ℤ := if i.isFir then (if N - L > 0 then L * esz else 0) else C * L * esz
    let dstSize : ℤ := if i.isFir then (if N - L > 0 then (N - L) * C * esz else 0) else 0
    staticCheck i p esz =
      if C = 0 then some .badChannels
      else if i.isFir ∧ (L = 0 ∨ L % 4 ≠ 0) then some .badLength
      else if ¬ i.isFir ∧ N = 0 then some .badSeek
      else if ¬ i.isFir ∧ L = 0 then some .badOvl
      else if src = 0 ∨ (i.isFir ∧ dst = 0) ∨ coef = 0 then some .nullAddr
      else if src % esz ≠ 0 ∨ (i.isFir ∧ dst % esz ≠ 0) ∨ coef % esz ≠ 0 then some .misaligned
      else if (srcSize > 0 ∧ src + srcSize > 2 ^ 32) ∨ (coefSize > 0 ∧ coef + coefSize > 2 ^ 32) ∨
          (dstSize > 0 ∧ dst + dstSize > 2 ^ 32) then some .range
      else if dstSize > 0 ∧ ((srcSize > 0 ∧ dst < src + srcSize ∧ src < dst + dstSize) ∨
          (coefSize > 0 ∧ dst < coef + coefSize ∧ coef < dst + dstSize)) then some .overlap
      else none

/-- A command whose static check fails completes in error with that code and accesses no data memory (40_control.md R128,
R130). That the internal registers keep their values is the model's choice (log 14). -/
def Obligations.StaticErrorCompletes : Prop :=
  ∀ (i : Instr) (s : State) (code : ErrCode), staticCheck i s.P s.esz = some code →
    ∃ t, exec i s = .next t ∧ Failed t code 0 ∧ code ≠ .noError ∧ code ≠ .bus ∧ code ≠ .accOvf ∧ t.mem = s.mem ∧
      t.hidden = s.hidden ∧ t.cache = s.cache ∧ KeepsRest s t

/-! ### FIR commands (41_fir.md) -/

/-- With N ≤ L a FIR command succeeds with RESULT 0 and the destination untouched, with no access, whatever the platform
answers (41_fir.md R151). That the internal registers keep their values is the model's choice (log 14). -/
def Obligations.FirWithNothingToDo : Prop :=
  ∀ (i : Instr) (s : State), i.isFir = true → staticCheck i s.P s.esz = none → s.P.count.toNat ≤ s.P.len.toNat →
    ∃ t, exec i s = .next t ∧ Succeeded t 0 ∧ t.mem = s.mem ∧ t.hidden = s.hidden ∧ KeepsRest s t

/-- R153, R155, R156 and R165: a FIXED-mode FIR command whose accesses and sums all go through writes exactly
y(j, c) = sat16(asr(A(j, c), SH)), the floor of A / 2^SH clamped to -32768 and 32767, to destination element j*C + c, and
RESULT = N - L. It completes, and writes no other byte (20_memory.md R74). -/
def Obligations.FirFixedWritesOutputs : Prop :=
  ∀ (i : Instr) (s : State), i.isFir = true → s.cfg.sampleMode = .fixed → staticCheck i s.P s.esz = none →
    s.P.len.toNat < s.P.count.toNat → FirReadable s i.channels → FirWritable s i.channels → FirFits s i.channels →
    ∃ t, exec i s = .next t ∧ Succeeded t (s.P.count.toNat - s.P.len.toNat) ∧ KeepsRest s t ∧
      (∀ j ch, j < s.P.count.toNat - s.P.len.toNat → ch < i.channels →
        (memHalf t.mem (s.P.dstAddr.toNat + (j * i.channels + ch) * 2)).toInt =
          max (-32768) (min 32767 (firSum s i.channels j ch / 2 ^ s.P.shift.toNat))) ∧
      ∀ a, (∀ e, e < (s.P.count.toNat - s.P.len.toNat) * i.channels → inDestElem s e a = false) →
        Memory.byteAt t.mem a = Memory.byteAt s.mem a

/-- A FLOAT-mode FIR command whose accesses all go through writes y(j, c), the binary32 conversion of the binary64 sum
times the reciprocal of the divider, whatever the data (41_fir.md R157 to R159, R165), and no other byte (20_memory.md
R74). That a NaN is stored as the free pattern of its element is the model's reading (log 6). -/
def Obligations.FirFloatWritesOutputs : Prop :=
  ∀ (i : Instr) (s : State), i.isFir = true → s.cfg.sampleMode = .float → staticCheck i s.P s.esz = none →
    s.P.len.toNat < s.P.count.toNat → FirReadable s i.channels → FirWritable s i.channels →
    ∃ t, exec i s = .next t ∧ Succeeded t (s.P.count.toNat - s.P.len.toNat) ∧ KeepsRest s t ∧
      (∀ j ch, j < s.P.count.toNat - s.P.len.toNat → ch < i.channels →
        memWord t.mem (s.P.dstAddr.toNat + (j * i.channels + ch) * 4) =
          fp32Bits s.draws (j * i.channels + ch)
            (cvt32 (mul64 (firSum64 s i.channels j ch) (div64 fpOne (fp32 s.P.divider))))) ∧
      ∀ a, (∀ e, e < (s.P.count.toNat - s.P.len.toNat) * i.channels → inDestElem s e a = false) →
        Memory.byteAt t.mem a = Memory.byteAt s.mem a

/-- `asr` is floor division by 2^SH, and at or past the accumulator width it gives 0 or -1 (41_fir.md R155); `sat16`
clamps to -32768 and 32767 (00_scope.md R7). -/
def Obligations.ShiftIsFloorDivision : Prop :=
  (∀ (a : ℤ) (sh : Nat), asr a sh * 2 ^ sh ≤ a ∧ a < (asr a sh + 1) * 2 ^ sh) ∧
  (∀ (w : AccBits) (a : ℤ) (sh : Nat), accFits w a = true → w.width ≤ sh → asr a sh = if 0 ≤ a then 0 else -1) ∧
  ∀ a : ℤ, sat16 a = max (-32768) (min 32767 a)

/-- R154: with ACC_BITS = 64 no FIR command ends with ACC_OVF, and in FLOAT mode none does. -/
def Obligations.WideAccumulatorNeverOverflows : Prop :=
  ∀ (i : Instr) (s t : State), s.cfg.accBits = .w64 ∨ s.cfg.sampleMode = .float → exec i s = .next t →
    t.regs.errCode ≠ .accOvf

/-- R241: a static error comes first; otherwise the one error reported is the first failing event of the architectural
order, each position's overflow check standing after its reads and before its write. With no failing event the
command succeeds. -/
def Obligations.FirReportsFirstFailingEvent : Prop :=
  ∀ (i : Instr) (s : State), i.isFir = true →
    ∃ t, exec i s = .next t ∧
      (∀ code, staticCheck i s.P s.esz = some code → Failed t code 0) ∧
      (staticCheck i s.P s.esz = none →
        ((∀ v ∈ firEvents s i.channels, v.2.fails s i.channels = false) →
          Succeeded t (s.P.count.toNat - s.P.len.toNat)) ∧
        ∀ v, (firEvents s i.channels).find? (fun v => v.2.fails s i.channels) = some v → Failed t v.2.code v.2.addr)

/-- R244: after a run-time error at destination element e the elements before it are exact, the bytes of element e and
all later ones are free, and every byte outside the destination region is unchanged; after a static error, and after
any error of CORR_SEARCH, data memory is unchanged. That a NaN before element e is stored as the free pattern of its
element is the model's reading (log 6). -/
def Obligations.DestinationAfterAnError : Prop :=
  (∀ (i : Instr) (s t : State) (e : Nat) (ev : FirEvent), i.isFir = true → staticCheck i s.P s.esz = none →
    (firEvents s i.channels).find? (fun v => v.2.fails s i.channels) = some (e, ev) → exec i s = .next t →
    (∀ k, k < e → s.cfg.sampleMode = .fixed →
      (memHalf t.mem (destElem s.P 2 k)).toInt = firOut s i.channels (k / i.channels) (k % i.channels)) ∧
    (∀ k, k < e → s.cfg.sampleMode = .float →
      memWord t.mem (destElem s.P 4 k) = fp32Bits s.draws k (firOut64 s i.channels (k / i.channels) (k % i.channels))) ∧
    (∀ a, destElem s.P s.esz e ≤ a → a < s.P.dstAddr.toNat + (s.P.count.toNat - s.P.len.toNat) * i.channels * s.esz →
      Memory.byteAt t.mem a = Config.freeByte s.draws a) ∧
    ∀ a, a < s.P.dstAddr.toNat ∨
        s.P.dstAddr.toNat + (s.P.count.toNat - s.P.len.toNat) * i.channels * s.esz ≤ a →
      Memory.byteAt t.mem a = Memory.byteAt s.mem a) ∧
  (∀ (i : Instr) (s t : State) (code : ErrCode), staticCheck i s.P s.esz = some code → exec i s = .next t →
    t.mem = s.mem) ∧
  ∀ (c : Nat) (nm : NormMode) (s t : State), exec (.corrSearch c nm) s = .next t → t.regs.err = true → t.mem = s.mem

/-- The frame of FIR_MONO, FIR_STEREO and FIR_MULTI, however they complete: only RESULT, DONE, ERR, ERR_CODE, ERR_ADDR,
the accumulators, RECIP, and the bytes of destination elements 0 to R*C-1 may change (20_memory.md R74). That NORM,
BEST_SCORE, BEST_OFF and i keep their values is the model's choice (log 14). -/
def Obligations.FirFrame : Prop :=
  ∀ (i : Instr) (s t : State), i.isFir = true → exec i s = .next t →
    KeepsRest s t ∧ t.phase = .idle ∧ t.hidden.norm = s.hidden.norm ∧ t.hidden.bestScore = s.hidden.bestScore ∧
    t.hidden.bestOff = s.hidden.bestOff ∧ t.hidden.offset = s.hidden.offset ∧
    (s.cfg.hostCoherent = true → t.cache = s.cache) ∧
    ∀ a, (∀ e, e < (s.P.count.toNat - s.P.len.toNat) * i.channels → inDestElem s e a = false) →
      Memory.byteAt t.mem a = Memory.byteAt s.mem a

/-- R164: FIR_MULTI with C = 1 is FIR_MONO, with C = 2 FIR_STEREO, bit for bit. -/
def Obligations.MultiChannelEqualsMonoAndStereo : Prop :=
  ∀ s : State, exec (.firMulti 1) s = exec .firMono s ∧ exec (.firMulti 2) s = exec .firStereo s

/-- R167: in FIXED mode the divider, and in FLOAT mode the shift, has no effect on any result of a FIR command. -/
def Obligations.UnusedScaleHasNoEffect : Prop :=
  ∀ (i : Instr) (s t : State), i.isFir = true → exec i s = .next t →
    (s.cfg.sampleMode = .fixed → ∀ d : Word,
      exec i { s with P := { s.P with divider := d } } = .next { t with P := { t.P with divider := d } }) ∧
    (s.cfg.sampleMode = .float → ∀ sh : BitVec 6,
      exec i { s with P := { s.P with shift := sh } } = .next { t with P := { t.P with shift := sh } })

/-- Output (j, c) depends only on P, the coefficients and its own window (41_fir.md R166): two runs that agree on those
elements, as the instance's mode reads them, store the same bytes there. -/
def Obligations.OutputDependsOnItsWindow : Prop :=
  ∀ (i : Instr) (s s' t t' : State) (j ch : Nat), i.isFir = true → s'.cfg = s.cfg → s'.P = s.P → s'.draws = s.draws →
    exec i s = .next t → exec i s' = .next t' → t.regs.err = false → t'.regs.err = false →
    j < s.P.count.toNat - s.P.len.toNat → ch < i.channels →
    (s.cfg.sampleMode = .fixed → ∀ k, k < s.P.len.toNat →
      s'.half (coefElem s.P 2 k) = s.half (coefElem s.P 2 k) ∧
      s'.half (sourceElem s.P 2 i.channels j ch k) = s.half (sourceElem s.P 2 i.channels j ch k)) →
    (s.cfg.sampleMode = .float → ∀ k, k < s.P.len.toNat →
      s'.word (coefElem s.P 4 k) = s.word (coefElem s.P 4 k) ∧
      s'.word (sourceElem s.P 4 i.channels j ch k) = s.word (sourceElem s.P 4 i.channels j ch k)) →
    ∀ a, inDestElem s (j * i.channels + ch) a = true → Memory.byteAt t'.mem a = Memory.byteAt t.mem a

/-- R72 and R127: on a coherent platform the effect of a command is a function of P, the parameters and the bytes M0
holds in the regions the command reads: what else M0 or the registers hold makes no difference. -/
def Obligations.CommandDependsOnlyOnItsRegions : Prop :=
  ∀ (i : Instr) (s s' t t' : State), s'.cfg = s.cfg → s'.P = s.P → s'.draws = s.draws → s.cfg.hostCoherent = true →
    (∀ r ∈ readRegions i s.P s.esz, ∀ a, r.contains a = true →
      Memory.byteAt s'.m0.mem a = Memory.byteAt s.m0.mem a) →
    exec i s = .next t → exec i s' = .next t' →
    t'.regs.result = t.regs.result ∧ t'.regs.err = t.regs.err ∧ t'.regs.errCode = t.regs.errCode ∧
    t'.regs.errAddr = t.regs.errAddr ∧
    (staticCheck i s.P s.esz = none → ∀ a, (destRegion i s.P s.esz).contains a = true →
      Memory.byteAt t'.mem a = Memory.byteAt t.mem a)

/-! ### Floating point (00_scope.md R8) -/

/-- `rne64` and `rne32` are roundTiesToEven: the answer is a value of the format, none is nearer, a tie goes to the
pattern with last bit 0, and the overflow threshold is that of IEEE 754. -/
def Obligations.RoundingIsNearestTiesToEven : Prop :=
  ∀ f : FpFormat, f = binary32 ∨ f = binary64 → ∀ (neg : Bool) (m : Nat) (e : ℤ),
    fpFits f (fpRound f neg m e) = true ∧ fpRound f neg m e ≠ .nan ∧
    (fpRound f neg m e = .inf neg ↔ (2 - (2 : ℚ) ^ (-(f.prec : ℤ))) * 2 ^ f.maxExp ≤ (m : ℚ) * 2 ^ e) ∧
    ∀ (s : Bool) (n : Nat) (g : ℤ), fpRound f neg m e = .fin s n g → s = neg ∧
      ∀ (t : Bool) (k : Nat) (h : ℤ), fpFits f (.fin t k h) = true →
        |fpRat (.fin neg m e) - fpRat (.fin s n g)| ≤ |fpRat (.fin neg m e) - fpRat (.fin t k h)| ∧
        (|fpRat (.fin neg m e) - fpRat (.fin s n g)| = |fpRat (.fin neg m e) - fpRat (.fin t k h)| →
          fpRat (.fin t k h) ≠ fpRat (.fin s n g) → fpEncode f 0 (.fin false n g) % 2 = 0)

/-- R8 for `add64`, `sub64`, `mul64` and `lt64` on finite data: the exact sum, difference or product is rounded once, an
exact zero sum is -0 only of two negative zeros, a zero product has the exclusive or of the signs, and the order is that
of the numbers. -/
def Obligations.SumsAndProductsRoundOnce : Prop :=
  ∀ (s t : Bool) (m n : Nat) (e g : ℤ),
    (∃ (u : Bool) (k : Nat) (h : ℤ), fpRat (.fin u k h) = fpRat (.fin s m e) + fpRat (.fin t n g) ∧
      add64 (.fin s m e) (.fin t n g) = fpRound binary64 u k h) ∧
    (fpRat (.fin s m e) + fpRat (.fin t n g) = 0 → add64 (.fin s m e) (.fin t n g) = .fin (s && t) 0 0) ∧
    (∃ (u : Bool) (k : Nat) (h : ℤ), fpRat (.fin u k h) = fpRat (.fin s m e) - fpRat (.fin t n g) ∧
      sub64 (.fin s m e) (.fin t n g) = fpRound binary64 u k h) ∧
    (fpRat (.fin s m e) - fpRat (.fin t n g) = 0 → sub64 (.fin s m e) (.fin t n g) = .fin (s && !t) 0 0) ∧
    (∃ (k : Nat) (h : ℤ), fpRat (.fin (s ^^ t) k h) = fpRat (.fin s m e) * fpRat (.fin t n g) ∧
      mul64 (.fin s m e) (.fin t n g) = fpRound binary64 (s ^^ t) k h) ∧
    (m * n = 0 → mul64 (.fin s m e) (.fin t n g) = .fin (s ^^ t) 0 0) ∧
    (lt64 (.fin s m e) (.fin t n g) = true ↔ fpRat (.fin s m e) < fpRat (.fin t n g))

/-- R8 for `div64` and `sqrt64`. A quotient of finite data by a non-zero number is the infinity of the exclusive or of
the signs from IEEE's overflow threshold on, and otherwise the finite binary64 value nearest the exact quotient, a tie
going to the pattern with last bit 0. The root of a positive binary64 number is the finite value nearest the exact root
(the root lies on one side of the midpoint of two values as its square does). Then the special operands. -/
def Obligations.QuotientsAndRootsAreNearest : Prop :=
  (∀ (s t : Bool) (m n : Nat) (e g : ℤ), n ≠ 0 →
    let x := fpRat (.fin s m e)
    let y := fpRat (.fin t n g)
    if (2 - (2 : ℚ) ^ (-53 : ℤ)) * 2 ^ (1023 : ℤ) * |y| ≤ |x| then div64 (.fin s m e) (.fin t n g) = .inf (s ^^ t)
    else ∃ (k : Nat) (h : ℤ), div64 (.fin s m e) (.fin t n g) = .fin (s ^^ t) k h ∧
      fpFits binary64 (.fin (s ^^ t) k h) = true ∧
      ∀ (v : Bool) (l : Nat) (i : ℤ), fpFits binary64 (.fin v l i) = true →
        |x - fpRat (.fin (s ^^ t) k h) * y| ≤ |x - fpRat (.fin v l i) * y| ∧
        (|x - fpRat (.fin (s ^^ t) k h) * y| = |x - fpRat (.fin v l i) * y| →
          fpRat (.fin v l i) ≠ fpRat (.fin (s ^^ t) k h) → fpEncode binary64 0 (.fin false k h) % 2 = 0)) ∧
  (∀ (m : Nat) (e : ℤ), m ≠ 0 → fpFits binary64 (.fin false m e) = true →
    let x := fpRat (.fin false m e)
    ∃ (k : Nat) (h : ℤ), sqrt64 (.fin false m e) = .fin false k h ∧ fpFits binary64 (.fin false k h) = true ∧
      ∀ (l : Nat) (i : ℤ), fpFits binary64 (.fin false l i) = true →
        (fpRat (.fin false k h) < fpRat (.fin false l i) →
          x ≤ ((fpRat (.fin false k h) + fpRat (.fin false l i)) / 2) ^ 2) ∧
        (fpRat (.fin false l i) < fpRat (.fin false k h) →
          ((fpRat (.fin false k h) + fpRat (.fin false l i)) / 2) ^ 2 ≤ x)) ∧
  (∀ (s t : Bool) (m : Nat) (e g : ℤ), m ≠ 0 → div64 (.fin s m e) (.fin t 0 g) = .inf (s ^^ t) ∧
    sqrt64 (.fin true m e) = .nan) ∧
  (∀ (s t : Bool) (m : Nat) (e g : ℤ), div64 (.fin s 0 e) (.fin t 0 g) = .nan ∧ div64 (.inf s) (.inf t) = .nan ∧
    div64 (.inf s) (.fin t m e) = .inf (s ^^ t) ∧ div64 (.fin s m e) (.inf t) = .fin (s ^^ t) 0 0 ∧
    sqrt64 (.fin s 0 e) = .fin s 0 0 ∧ sqrt64 (.inf false) = .inf false ∧ sqrt64 (.inf true) = .nan) ∧
  ∀ x : Fp, div64 .nan x = .nan ∧ div64 x .nan = .nan ∧ sqrt64 .nan = .nan

/-- R158: the binary64 product of two finite binary32 values is exact. -/
def Obligations.ProductsOfSinglesAreExact : Prop :=
  ∀ (v w : Word) (s t : Bool) (m n : Nat) (e g : ℤ), fp32 v = .fin s m e → fp32 w = .fin t n g →
    fpRat (mul64 (fp32 v) (fp32 w)) = fpRat (fp32 v) * fpRat (fp32 w) ∧ ∃ k h, mul64 (fp32 v) (fp32 w) = .fin (s ^^ t) k h

/-- R62 and R8: which datum a binary32 word stands for, by its sign, biased exponent and fraction; a binary32 value is
stored as its own pattern and reads back as itself; a NaN is stored as a NaN, of free sign and payload (log 6). -/
def Obligations.StoredFloatsReadBack : Prop :=
  (∀ w : Word,
    let s : Bool := w.getLsbD 31
    let ex : Nat := w.toNat / 2 ^ 23 % 256
    let frac : Nat := w.toNat % 2 ^ 23
    if ex = 255 then fp32 w = if frac = 0 then .inf s else .nan
    else ∃ (m : Nat) (e : ℤ), fp32 w = .fin s m e ∧
      fpRat (fp32 w) = (if s then -1 else 1) *
        (if ex = 0 then (frac : ℚ) * 2 ^ (-149 : ℤ) else ((2 ^ 23 + frac : Nat) : ℚ) * 2 ^ ((ex : ℤ) - 150))) ∧
  (∀ (d k : Nat) (w : Word), fp32 w ≠ .nan → fp32Bits d k (fp32 w) = w) ∧
  (∀ d k : Nat, fp32 (fp32Bits d k .nan) = .nan) ∧
  ∀ (d k : Nat) (x : Fp), fp32 (fp32Bits d k (cvt32 x)) = cvt32 x

/-- R160, and R8 for operands that are no finite numbers: the special dividers; NaN; infinities in `add64`, `sub64`,
`mul64`, `lt64` and `cvt32`; overflow and subnormals in `cvt32`, which keeps every binary32 value. -/
def Obligations.SpecialValuesFollowIeee : Prop :=
  (∀ p : Params, p.divider = 0x00000000#32 → firRecip p = .inf false) ∧
  (∀ p : Params, p.divider = 0x80000000#32 → firRecip p = .inf true) ∧
  (∀ p : Params, p.divider = 0x7F800000#32 → firRecip p = .fin false 0 0) ∧
  (∀ p : Params, p.divider = 0xFF800000#32 → firRecip p = .fin true 0 0) ∧
  (∀ p : Params, fp32 p.divider = .nan → firRecip p = .nan) ∧
  (∀ x : Fp, mul64 .nan x = .nan ∧ mul64 x .nan = .nan ∧ add64 .nan x = .nan ∧ add64 x .nan = .nan ∧
    sub64 .nan x = .nan ∧ sub64 x .nan = .nan ∧ lt64 .nan x = false ∧ lt64 x .nan = false) ∧
  (∀ (s t : Bool) (e : ℤ), mul64 (.inf s) (.fin t 0 e) = .nan ∧ mul64 (.fin t 0 e) (.inf s) = .nan) ∧
  (∀ (s t : Bool) (m : Nat) (e : ℤ), m ≠ 0 →
    mul64 (.inf s) (.fin t m e) = .inf (s ^^ t) ∧ mul64 (.fin t m e) (.inf s) = .inf (s ^^ t)) ∧
  (∀ (s t : Bool) (m : Nat) (e : ℤ), add64 (.inf s) (.fin t m e) = .inf s ∧ add64 (.fin t m e) (.inf s) = .inf s ∧
    sub64 (.inf s) (.fin t m e) = .inf s ∧ sub64 (.fin t m e) (.inf s) = .inf (!s) ∧
    lt64 (.inf s) (.fin t m e) = s ∧ lt64 (.fin t m e) (.inf s) = !s) ∧
  (∀ s t : Bool, mul64 (.inf s) (.inf t) = .inf (s ^^ t) ∧ lt64 (.inf s) (.inf t) = (s && !t)) ∧
  (∀ s : Bool, add64 (.inf s) (.inf (!s)) = .nan ∧ sub64 (.inf s) (.inf s) = .nan ∧
    add64 (.inf s) (.inf s) = .inf s ∧ sub64 (.inf s) (.inf (!s)) = .inf s) ∧
  cvt32 .nan = .nan ∧ (∀ s : Bool, cvt32 (.inf s) = .inf s) ∧
  (∀ (s : Bool) (m : Nat) (e : ℤ), (2 : ℚ) ^ (128 : ℤ) ≤ (m : ℚ) * 2 ^ e → cvt32 (.fin s m e) = .inf s) ∧
  (∀ x : Fp, fpFits binary32 x = true → cvt32 x = x) ∧ ∀ w : Word, cvt32 (fp32 w) = fp32 w

/-! ### CORR_SEARCH (42_corr.md) -/

/-- R202 and R204: a search whose reads all go through succeeds with RESULT = BEST_OFF, the offset of the
strict-improvement scan over the scores, below S, and BEST_SCORE its score; it writes no data memory and changes nothing
else (42_corr.md R203). -/
def Obligations.CorrSearchFindsBestOffset : Prop :=
  ∀ (c : Nat) (nm : NormMode) (s : State), staticCheck (.corrSearch c nm) s.P s.esz = none → CorrReadable s c →
    ∃ t, exec (.corrSearch c nm) s = .next t ∧
      Succeeded t (bestOffset (corrScoreAt s c nm) (s.P.count.toNat - 1)) ∧
      t.regs.result.toNat = bestOffset (corrScoreAt s c nm) (s.P.count.toNat - 1) ∧
      t.regs.result = t.hidden.bestOff ∧ t.regs.result.toNat < s.P.count.toNat ∧
      t.hidden.bestScore = corrScoreAt s c nm t.regs.result.toNat ∧ t.mem = s.mem ∧ t.cache = s.cache ∧ KeepsRest s t

/-- R202: without NaN scores no offset beats the answer, the answer beats every earlier offset, so ties keep the lower
one; a NaN score at offset 0 is never replaced, and a NaN score elsewhere never wins. -/
def Obligations.CorrWinnerIsStrictlyBest : Prop :=
  ∀ (c : Nat) (nm : NormMode) (s : State), staticCheck (.corrSearch c nm) s.P s.esz = none → CorrReadable s c →
    ∃ t, exec (.corrSearch c nm) s = .next t ∧
      ((∀ i, i < s.P.count.toNat → corrScoreAt s c nm i ≠ .nan) →
        (∀ i, i < s.P.count.toNat →
          gt64 (corrScoreAt s c nm i) (corrScoreAt s c nm t.regs.result.toNat) = false) ∧
        ∀ i, i < t.regs.result.toNat →
          gt64 (corrScoreAt s c nm t.regs.result.toNat) (corrScoreAt s c nm i) = true) ∧
      (corrScoreAt s c nm 0 = .nan → t.regs.result = 0#32) ∧
      (corrScoreAt s c nm 0 ≠ .nan → corrScoreAt s c nm t.regs.result.toNat ≠ .nan)

/-- R196: in FIXED mode the normalizer mode has no effect on any result. -/
def Obligations.FixedModeNormalizersAgree : Prop :=
  ∀ (c : Nat) (s : State), s.cfg.sampleMode = .fixed →
    ∃ t t', exec (.corrSearch c .incremental) s = .next t ∧ exec (.corrSearch c .fresh) s = .next t' ∧
      t'.regs = t.regs ∧ t'.mem = t.mem

/-- R205: with S = 1 only window 0 is read, and RESULT is 0. -/
def Obligations.SeekLengthOneAnswersZero : Prop :=
  ∀ (c : Nat) (nm : NormMode) (s : State), staticCheck (.corrSearch c nm) s.P s.esz = none → s.P.count = 1#32 →
    (∀ k, k < c * s.P.len.toNat → memOk s.cfg (s.P.srcAddr.toNat + k * s.esz) s.esz .read = true ∧
      memOk s.cfg (s.P.coefAddr.toNat + k * s.esz) s.esz .read = true) →
    ∃ t, exec (.corrSearch c nm) s = .next t ∧ Succeeded t 0 ∧ t.mem = s.mem

/-- R206: the general weight formula at offset 0 gives t = -1 and w = 0.75 exactly, the constant of R199. -/
def Obligations.WeightFormulaAtOffsetZero : Prop :=
  ∀ S : Nat, 1 ≤ S → S < 2 ^ 32 →
    scoreT 0 S = fpNeg fpOne ∧ scoreWeight 0 S = fpC075 ∧ offsetWeight 0 S = scoreWeight 0 S

/-- R197: below EPS the normalizer is replaced by 1.0, a NaN is kept, and in FIXED mode it is below EPS exactly when it
is 0; EPS is the rounded 1/10^9 and ONE is 1. -/
def Obligations.NearZeroNormalizerIsFloored : Prop :=
  (∀ n : Fp, lt64 n fpEps = true → floorNorm n = fpOne) ∧ (∀ n : Fp, lt64 n fpEps = false → floorNorm n = n) ∧
  floorNorm .nan = .nan ∧ (∀ q : Nat, lt64 (NormReg.value (.fixed q)) fpEps = true ↔ q = 0) ∧
  fpEps = div64 fpOne (fpOfInt 1000000000) ∧ fpOne = fpOfInt 1

/-- R73 and R243: a search stops at its first failing read, in the order reference, compare, with BUS and that address,
and data memory is unchanged; with no failing read it succeeds. -/
def Obligations.CorrReportsFirstFailingRead : Prop :=
  ∀ (c : Nat) (nm : NormMode) (s : State), staticCheck (.corrSearch c nm) s.P s.esz = none →
    ∃ t, exec (.corrSearch c nm) s = .next t ∧ t.mem = s.mem ∧
      ((∀ a ∈ corrAccesses s c, memOk s.cfg a s.esz .read = true) → t.regs.err = false ∧ t.regs.errCode = .noError) ∧
      ∀ a, (corrAccesses s c).find? (fun a => !memOk s.cfg a s.esz .read) = some a → Failed t .bus a

/-- The frame of CORR_SEARCH, however it completes: only RESULT, DONE, ERR, ERR_CODE, ERR_ADDR, NORM, BEST_SCORE,
BEST_OFF and i may change; every byte of data memory reads as before (20_memory.md R65). That the accumulators and RECIP
keep their values is the model's choice (log 14). -/
def Obligations.CorrFrame : Prop :=
  ∀ (c : Nat) (nm : NormMode) (s t : State), exec (.corrSearch c nm) s = .next t →
    KeepsRest s t ∧ t.phase = .idle ∧ t.hidden.acc = s.hidden.acc ∧ t.hidden.recip = s.hidden.recip ∧
    t.cache = s.cache ∧ ∀ a, Memory.byteAt t.mem a = Memory.byteAt s.mem a

/-! ### Host accesses to data memory (20_memory.md) -/

/-- A write to a region of the running command is refused (70_reset_and_hazards.md R277; log 11); any other write in the
data space stores its bytes and changes no other byte and no register. That it completes is the model's choice (log 15).
-/
def Obligations.HostWritesStoreOrAreRefused : Prop :=
  ∀ (s : State) (addr : Nat) (bytes : List Byte), addr + bytes.length ≤ 4294967296 →
    (∀ i, s.phase = .busy → decode s.P.cmd = .command i →
      (∃ r, (r = destRegion i s.P s.esz ∨ r ∈ readRegions i s.P s.esz) ∧ Region.meets ⟨addr, bytes.length⟩ r = true) →
      step (s.thenDoes (.memWrite addr bytes)) = .refused .bufferHazard) ∧
    ((∀ i, s.phase = .busy → decode s.P.cmd = .command i →
      ∀ r, (r = destRegion i s.P s.esz ∨ r ∈ readRegions i s.P s.esz) → Region.meets ⟨addr, bytes.length⟩ r = false) →
      ∃ t, step (s.thenDoes (.memWrite addr bytes)) = .next t ∧
        (∀ k, (h : k < bytes.length) → Memory.byteAt t.mem (addr + k) = bytes[k]) ∧
        (∀ a, a < addr ∨ addr + bytes.length ≤ a → Memory.byteAt t.mem a = Memory.byteAt s.mem a) ∧
        t.regs = s.regs ∧ t.P = s.P ∧ t.m0 = s.m0 ∧ t.phase = s.phase)

/-- While BUSY a host read of a destination byte answers a free value, and a read of any other byte answers memory, on a
coherent platform; no register changes (20_memory.md R77). The model's choice: that the read completes (log 15), and
that a byte which is also in an input region is free (log 23). -/
def Obligations.HostReadsOfTheDestinationAreFree : Prop :=
  ∀ (s : State) (addr n : Nat), addr + n ≤ 4294967296 → s.cfg.hostCoherent = true →
    ∃ t bytes, step (s.thenDoes (.memRead addr n)) = .next t ∧ t.replies = .data addr bytes :: s.replies ∧
      bytes.length = n ∧ t.regs = s.regs ∧ t.mem = s.mem ∧
      ∀ k, (h : k < bytes.length) →
        ((∃ i, s.phase = .busy ∧ decode s.P.cmd = .command i ∧ (destRegion i s.P s.esz).contains (addr + k) = true) →
          bytes[k] = Config.freeByte s.draws (addr + k)) ∧
        ((∀ i, s.phase = .busy → decode s.P.cmd = .command i →
            (destRegion i s.P s.esz).contains (addr + k) = false) →
          bytes[k] = Memory.byteAt s.mem (addr + k))

/-- R80, by the model's cache marks (log 13), on a non-coherent platform. An input element with a byte the host has not
cleaned is free to the engine, and one cleaned just before START is what memory holds. A host write leaves its bytes
uncleaned, so the next command sees them as free. A FIR command with outputs, however it ends, leaves every byte of its
destination free to the host, and so does a reset that cuts a command short (log 24), until the host invalidates it. -/
def Obligations.SkippedCacheMaintenanceGivesFreeData : Prop :=
  ∀ s : State, s.cfg.hostCoherent = false →
    (∀ a k, k < 2 → isCleaned s.m0.marks (a + k) = false →
      s.half a = Config.freeByte s.m0.draw (a + 1) ++ Config.freeByte s.m0.draw a) ∧
    (∀ a k, k < 4 → isCleaned s.m0.marks (a + k) = false →
      s.word a = Config.freeByte s.m0.draw (a + 3) ++ Config.freeByte s.m0.draw (a + 2) ++
        Config.freeByte s.m0.draw (a + 1) ++ Config.freeByte s.m0.draw a) ∧
    (∀ base size, ∃ t, step (s.thenDoes (.cacheClean base size)) = .next t ∧
      (∀ a, base ≤ a → a + 2 ≤ base + size → (acceptStart t).half a = memHalf s.mem a) ∧
      ∀ a, base ≤ a → a + 4 ≤ base + size → (acceptStart t).word a = memWord s.mem a) ∧
    (∀ addr bytes t, step (s.thenDoes (.memWrite addr bytes)) = .next t → ∀ a, addr ≤ a → a < addr + bytes.length →
      isCleaned (acceptStart t).m0.marks a = false ∧ isStale t.cache a = false) ∧
    (∀ i t, i.isFir = true → staticCheck i s.P s.esz = none → s.P.len.toNat < s.P.count.toNat → exec i s = .next t →
      ∀ a, (destRegion i s.P s.esz).contains a = true →
        isStale t.cache a = true ∧ t.hostByte a = Config.freeByte t.draws a) ∧
    (∀ i, s.phase = .busy → decode s.P.cmd = .command i → ∃ t, step (s.thenDoes .reset) = .next t ∧
      ∀ a, (destRegion i s.P s.esz).contains a = true →
        isStale t.cache a = true ∧ t.hostByte a = Config.freeByte t.draws a) ∧
    (∀ a, s.phase = .idle → isStale s.cache a = true → s.hostByte a = Config.freeByte s.draws a) ∧
    ∀ base size a, base ≤ a → a < base + size → s.phase = .idle →
      ∃ t, step (s.thenDoes (.cacheInvalidate base size)) = .next t ∧ t.hostByte a = Memory.byteAt t.mem a

/-! ### The host script (30_encoding.md R100, R102) -/

/-- `mem16` and `mem32` store their elements little-endian, one step each, and change no other byte and no register.
That host writes inside the data space complete is the model's choice (log 15), and so is that addresses and elements
are constants (log 25). -/
def Obligations.ScriptMemoryWritesStoreElements : Prop :=
  ∀ (s : State) (h : HostState) (a : Nat), s.phase = .idle →
    (∀ vs : List (BitVec 16), a + 2 * vs.length ≤ 4294967296 →
      ∃ t, runSteps vs.length (s.thenScript h [.mem16 a vs]) = .next t ∧ t.agenda = s.agenda ∧ t.regs = s.regs ∧
        (∀ k, (hk : k < vs.length) → memHalf t.mem (a + 2 * k) = vs[k]) ∧
        ∀ x, x < a ∨ a + 2 * vs.length ≤ x → Memory.byteAt t.mem x = Memory.byteAt s.mem x) ∧
    ∀ vs : List Word, a + 4 * vs.length ≤ 4294967296 →
      ∃ t, runSteps vs.length (s.thenScript h [.mem32 a vs]) = .next t ∧ t.agenda = s.agenda ∧ t.regs = s.regs ∧
        (∀ k, (hk : k < vs.length) → memWord t.mem (a + 4 * k) = vs[k]) ∧
        ∀ x, x < a ∨ a + 4 * vs.length ≤ x → Memory.byteAt t.mem x = Memory.byteAt s.mem x

/-- R102, by running the expansions in place in any script (log 18). `clr` clears DONE, ERR, ERR_CODE and SOVR; `start`
and `start.irq` start an idle engine with IRQ_EN 0 and 1. `wait` reads STATUS, and goes back to its read while DONE = 0
and past its end when DONE = 1. `run` writes the operands it names in the fixed order, then CMD, then CTRL, so that an
idle engine runs the command on the named values and the registers' old ones, and then stands at its `wait`. That an
operand named twice takes its first value, and that a name outside the seven makes no write, is the model's choice (log
26). -/
def Obligations.PseudoInstructionsTakeEffect : Prop :=
  ∀ (pre post : List Stmt) (r : ScriptRun), r.host.pc = pre.length → r.pending = [] →
    r.machine.cfg.engineBase % 4 = 0 →
    let base := r.machine.cfg.engineBase
    (∃ r', runScript (pre ++ pseudoClr ++ post) [.host] r = .next r' ∧ r'.host = { r.host with pc := pre.length + 1 } ∧
      r'.trace = (.regWrite (base + 0x08) 4 0x0000000E#32, none) :: r.trace ∧ r'.machine.regs.done = false ∧
      r'.machine.regs.err = false ∧ r'.machine.regs.errCode = .noError ∧ r'.machine.regs.sovr = false) ∧
    (∃ r', runScript (pre ++ pseudoStart ++ post) [.host] r = .next r' ∧
      r'.trace = (.regWrite (base + 0x04) 4 0x00000001#32, none) :: r.trace ∧ r'.machine.regs.irqEn = false ∧
      (r.machine.phase = .idle → r'.machine.phase = .busy ∧ r'.machine.P.cmd = r.machine.regs.cmd)) ∧
    (∃ r', runScript (pre ++ pseudoStartIrq ++ post) [.host] r = .next r' ∧
      r'.trace = (.regWrite (base + 0x04) 4 0x00000003#32, none) :: r.trace ∧ r'.machine.regs.irqEn = true ∧
      (r.machine.phase = .idle → r'.machine.phase = .busy ∧ r'.machine.P.cmd = r.machine.regs.cmd)) ∧
    (∀ w x d : String, Stmt.label w ∉ pre →
      ∃ r', runScript (pre ++ pseudoWait w x d ++ post) [.host, .host, .host, .host] r = .next r' ∧
        r'.host.pc = (if r.machine.regs.done then pre.length + 4 else pre.length) ∧ r'.pending = [] ∧
        (x ≠ d → r'.host.get x = r.machine.statusWord.toNat) ∧
        r'.trace = (.regRead (base + 0x08) 4, some r.machine.statusWord) :: r.trace ∧
        r'.machine.regs = r.machine.regs ∧ r'.machine.phase = r.machine.phase) ∧
    ∀ (i : Instr) (operands : List (Reg × HostExpr)) (w x d : String) (frag : List Stmt),
      pseudoRun i operands w x d = some frag →
      let named := [(Reg.srcAddr, 0x10), (.dstAddr, 0x14), (.coefAddr, 0x18), (.len, 0x1C), (.count, 0x20),
          (.divider, 0x24), (.shift, 0x28)].filterMap fun q =>
        (operands.lookup q.1).map fun v => (Event.regWrite (base + q.2) 4 (BitVec.ofNat 32 (v.eval r.host)), none)
      ∃ cmd r', assemble i = some cmd ∧
        runScript (pre ++ frag ++ post) (List.replicate (named.length + 2) .host) r = .next r' ∧
        r'.host = { r.host with pc := pre.length + named.length + 2 } ∧ r'.pending = [] ∧
        r'.trace = (.regWrite (base + 0x04) 4 0x00000001#32, none) :: (.regWrite (base + 0x0C) 4 cmd, none) ::
          named.reverse ++ r.trace ∧
        frag.drop (named.length + 2) = pseudoWait w x d ∧
        (r.machine.phase = .idle → r'.machine.phase = .busy ∧ r'.machine.regs.irqEn = false ∧ r'.machine.P.cmd = cmd ∧
          ∀ q ∈ [Reg.srcAddr, .dstAddr, .coefAddr, .len, .count, .divider, .shift],
            r'.machine.P.value q = match operands.lookup q with
              | none => readRegister r.machine q
              | some v => if q = .shift then 0#26 ++ (BitVec.ofNat 32 (v.eval r.host)).extractLsb' 0 6
                else BitVec.ofNat 32 (v.eval r.host))
end

