-- ==== Sys2Proof/Laws/Float.lean ====
section
/-! SUPPORT. The laws of the floating-point operations: what the canonical form is worth, what rounding gives, and that
every binary64 operation answers a binary64 value. -/

namespace Sys2Proof.Machine

/-! ### The canonical form -/

/-- The power of two that `fpExact` moves into the exponent. -/
theorem exists_twoPart {m : Nat} (hm : m ≠ 0) :
    ∃ z, Nat.gcd m (2 ^ m.log2) = 2 ^ z ∧ m / 2 ^ z * 2 ^ z = m ∧ m / 2 ^ z % 2 = 1 := by
  obtain ⟨z, hz, hp⟩ := (Nat.dvd_prime_pow Nat.prime_two).1 (Nat.gcd_dvd_right m (2 ^ m.log2))
  have hdvd : 2 ^ z ∣ m := hp ▸ Nat.gcd_dvd_left m (2 ^ m.log2)
  refine ⟨z, hp, Nat.div_mul_cancel hdvd, ?_⟩
  by_contra hodd
  have heven : 2 ∣ m / 2 ^ z := by omega
  have hdvd' : 2 ^ (z + 1) ∣ m := by
    rw [pow_succ, ← Nat.div_mul_cancel hdvd, Nat.mul_comm]
    exact Nat.mul_dvd_mul heven (dvd_refl _)
  by_cases hlt : z < m.log2
  · have h2 : 2 ^ (z + 1) ∣ 2 ^ z := hp ▸ Nat.dvd_gcd hdvd' (pow_dvd_pow 2 hlt)
    have := Nat.le_of_dvd (by positivity) h2
    rw [pow_succ] at this
    have : 0 < 2 ^ z := by positivity
    omega
  · have hze : z = m.log2 := by omega
    have h1 := Nat.le_of_dvd (Nat.pos_of_ne_zero hm) hdvd'
    have h2 := (Nat.log2_lt hm (k := m.log2 + 1)).1 (Nat.lt_succ_self _)
    rw [hze] at h1
    omega

theorem log2_mul_pow {m : Nat} (hm : m ≠ 0) (z : Nat) : (m * 2 ^ z).log2 = m.log2 + z := by
  induction z with
  | zero => simp
  | succ z ih => rw [pow_succ, ← Nat.mul_assoc, Nat.mul_comm _ 2, Nat.log2_two_mul (by positivity), ih]; omega

/-- `fpExact` in terms of the odd part. -/
theorem fpExact_eq (neg : Bool) {m : Nat} (hm : m ≠ 0) (e : Int) :
    ∃ n z, fpExact neg m e = .fin neg n (e + (z : Nat)) ∧ m = n * 2 ^ z ∧ n % 2 = 1 := by
  obtain ⟨z, hp, hmul, hodd⟩ := exists_twoPart hm
  refine ⟨m / 2 ^ z, z, ?_, hmul.symm, hodd⟩
  simp only [fpExact, if_neg hm, hp, Nat.log2_two_pow]

theorem fpExact_toRat (neg : Bool) (m : Nat) (e : Int) :
    fpRat (fpExact neg m e) = (if neg then -1 else 1) * (m : ℚ) * (2 : ℚ) ^ e := by
  by_cases hm : m = 0
  · simp [fpExact, hm, fpRat]
  · obtain ⟨n, z, h, hmul, -⟩ := fpExact_eq neg hm e
    rw [h, fpRat, hmul, zpow_add₀ (by norm_num)]
    push_cast
    rw [zpow_natCast]
    ring

/-- A number with at most `prec` significant bits in the range of the format is one of its values. -/
theorem fpExact_fits {f : FpFormat} (neg : Bool) {m : Nat} {e : Int} (hm : m ≤ 2 ^ f.prec) (hp : f.prec ≠ 0)
    (he : f.lsbMin ≤ e) (htop : m ≠ 0 → e + m.log2 ≤ f.maxExp) : fpFits f (fpExact neg m e) = true := by
  by_cases h0 : m = 0
  · simp [fpExact, h0, fpFits]
  · obtain ⟨n, z, h, hmul, hodd⟩ := fpExact_eq neg h0 e
    have hn0 : n ≠ 0 := by rintro rfl; simp at hodd
    have hlog : m.log2 = n.log2 + z := by rw [hmul, log2_mul_pow hn0]
    have hnm : n ≤ m := by rw [hmul]; exact Nat.le_mul_of_pos_right _ (by positivity)
    have hlt : n < 2 ^ f.prec := by
      refine lt_of_le_of_ne (hnm.trans hm) fun heq => ?_
      obtain ⟨k, hk⟩ := Nat.exists_eq_succ_of_ne_zero hp
      rw [heq, hk, pow_succ] at hodd
      omega
    have := htop h0
    rw [h]
    simp only [fpFits, Bool.or_eq_true, Bool.and_eq_true, decide_eq_true_eq]
    right
    refine ⟨⟨⟨hodd, hlt⟩, by omega⟩, by omega⟩

/-! ### Rounding -/

/-- Rounding to an integer errs by at most half, and rounds halves to even. -/
theorem shiftNearestEven_near (m s : Nat) :
    2 * (shiftNearestEven m s * 2 ^ s) ≤ 2 * m + 2 ^ s ∧ 2 * m ≤ 2 * (shiftNearestEven m s * 2 ^ s) + 2 ^ s := by
  have hpos : 0 < 2 ^ s := by positivity
  have hdm := Nat.div_add_mod m (2 ^ s)
  have hlt := Nat.mod_lt m hpos
  simp only [shiftNearestEven]
  rw [Nat.mul_comm] at hdm
  split
  · rw [Nat.add_mul]; omega
  · omega

theorem shiftNearestEven_le {m s p : Nat} (h : m < 2 ^ (p + s)) : shiftNearestEven m s ≤ 2 ^ p := by
  have hq : m / 2 ^ s < 2 ^ p := by
    rw [Nat.div_lt_iff_lt_mul (by positivity), ← pow_add]; exact h
  simp only [shiftNearestEven]
  split <;> omega

theorem le_shiftNearestEven {m s p : Nat} (h : 2 ^ (p + s) ≤ m) : 2 ^ p ≤ shiftNearestEven m s := by
  have hq : 2 ^ p ≤ m / 2 ^ s := by
    rw [Nat.le_div_iff_mul_le (by positivity), ← pow_add]; exact h
  simp only [shiftNearestEven]
  split <;> omega

@[simp] theorem shiftNearestEven_zero (m : Nat) : shiftNearestEven m 0 = m := by
  simp only [shiftNearestEven, pow_zero, Nat.div_one, Nat.mod_one]
  split <;> omega

theorem fpLastBit_ge (f : FpFormat) (top : Int) : f.lsbMin ≤ fpLastBit f top := le_max_right _ _

/-- The kept part of a number has at most `prec` bits. -/
theorem fpRound_kept_le (f : FpFormat) {m : Nat} (e : Int) (hm : m ≠ 0) :
    shiftNearestEven (m * 2 ^ (e - fpLastBit f (e + m.log2)).toNat) (fpLastBit f (e + m.log2) - e).toNat ≤
      2 ^ f.prec := by
  have hq : e + m.log2 - (f.prec - 1) ≤ fpLastBit f (e + m.log2) := le_max_left _ _
  apply shiftNearestEven_le
  calc m * 2 ^ (e - fpLastBit f (e + m.log2)).toNat
      < 2 ^ (m.log2 + 1) * 2 ^ (e - fpLastBit f (e + m.log2)).toNat :=
        Nat.mul_lt_mul_of_pos_right ((Nat.log2_lt hm).1 (Nat.lt_succ_self _)) (by positivity)
    _ = 2 ^ (m.log2 + 1 + (e - fpLastBit f (e + m.log2)).toNat) := (pow_add _ _ _).symm
    _ ≤ _ := Nat.pow_le_pow_right (by norm_num) (by omega)

/-- Rounding answers a value of the format. -/
theorem fpRound_fits {f : FpFormat} (hp : f.prec ≠ 0) (neg : Bool) (m : Nat) (e : Int) :
    fpFits f (fpRound f neg m e) = true := by
  by_cases hm : m = 0
  · simp [fpRound, hm, fpFits]
  · simp only [fpRound, if_neg hm]
    split
    · rfl
    · exact fpExact_fits neg (fpRound_kept_le f e hm) hp (fpLastBit_ge _ _) fun _ => by omega

@[simp] theorem fpRound_binary64_fits (neg : Bool) (m : Nat) (e : Int) :
    fpFits binary64 (fpRound binary64 neg m e) = true := fpRound_fits (by decide) neg m e

@[simp] theorem fpRound_binary32_fits (neg : Bool) (m : Nat) (e : Int) :
    fpFits binary32 (fpRound binary32 neg m e) = true := fpRound_fits (by decide) neg m e

/-! ### Operations answer binary64 values -/

@[simp] theorem fits_zero (f : FpFormat) (neg : Bool) : fpFits f (.fin neg 0 0) = true := by simp [fpFits]

@[simp] theorem fits_posZero (f : FpFormat) : fpFits f .posZero = true := fits_zero f false

@[simp] theorem fits_nan (f : FpFormat) : fpFits f .nan = true := rfl

@[simp] theorem fits_inf (f : FpFormat) (neg : Bool) : fpFits f (.inf neg) = true := rfl

theorem add64_fits (a b : Fp) : fpFits binary64 (add64 a b) = true := by
  cases a <;> cases b <;> simp only [add64] <;> (try split) <;> simp

theorem sub64_fits (a b : Fp) : fpFits binary64 (sub64 a b) = true := add64_fits a (fpNeg b)

theorem mul64_fits (a b : Fp) : fpFits binary64 (mul64 a b) = true := by
  cases a <;> cases b <;> simp only [mul64] <;> (try split) <;> simp

theorem div64_fits (a b : Fp) : fpFits binary64 (div64 a b) = true := by
  cases a <;> cases b <;> simp only [div64, fpQuotient] <;> (try split) <;> (try split) <;> simp

theorem sqrt64_fits (a : Fp) : fpFits binary64 (sqrt64 a) = true := by
  cases a <;> simp only [sqrt64, fpRoot] <;> (try split) <;> (try split) <;> simp

theorem cvt32_fits (a : Fp) : fpFits binary32 (cvt32 a) = true := by
  cases a <;> simp [cvt32]

theorem fpOfInt_fits (v : Int) : fpFits binary64 (fpOfInt v) = true := fpRound_binary64_fits _ _ _

/-- A fold of additions from a binary64 value answers one. -/
theorem foldl_fits {α : Type} (op : Fp → α → Fp) (hop : ∀ a x, fpFits binary64 (op a x) = true) (xs : List α)
    (a : Fp) (ha : fpFits binary64 a = true) : fpFits binary64 (xs.foldl op a) = true := by
  induction xs generalizing a with
  | nil => exact ha
  | cons x rest ih => exact ih _ (hop a x)

/-! ### NaN and the ordered comparisons (00_scope.md R8) -/

@[simp] theorem add64_nan_left (b : Fp) : add64 .nan b = .nan := by cases b <;> rfl
@[simp] theorem add64_nan_right (a : Fp) : add64 a .nan = .nan := by cases a <;> rfl
@[simp] theorem mul64_nan_left (b : Fp) : mul64 .nan b = .nan := by cases b <;> rfl
@[simp] theorem mul64_nan_right (a : Fp) : mul64 a .nan = .nan := by cases a <;> rfl
@[simp] theorem div64_nan_left (b : Fp) : div64 .nan b = .nan := by cases b <;> rfl
@[simp] theorem div64_nan_right (a : Fp) : div64 a .nan = .nan := by cases a <;> rfl
@[simp] theorem lt64_nan_left (b : Fp) : lt64 .nan b = false := by cases b <;> rfl
@[simp] theorem lt64_nan_right (a : Fp) : lt64 a .nan = false := by cases a <;> rfl
@[simp] theorem gt64_nan_left (b : Fp) : gt64 .nan b = false := lt64_nan_right b
@[simp] theorem gt64_nan_right (a : Fp) : gt64 a .nan = false := lt64_nan_left a

/-- The aligned integer is the number times a power of two. -/
theorem fpScaled_toRat (neg : Bool) (m : Nat) {e e0 : Int} (h : e0 ≤ e) :
    (fpScaled neg m e e0 : ℚ) * (2 : ℚ) ^ e0 = fpRat (.fin neg m e) := by
  have hz : (2 : ℚ) ^ (e - e0).toNat * (2 : ℚ) ^ e0 = (2 : ℚ) ^ e := by
    rw [← zpow_natCast, ← zpow_add₀ (by norm_num)]; congr 1; omega
  cases neg <;> simp only [fpScaled, fpRat] <;> push_cast <;> simp <;> rw [mul_assoc, hz]

/-- `lt64` on finite data is the order of their numbers. -/
theorem lt64_fin_iff (s t : Bool) (m n : Nat) (e g : Int) :
    lt64 (.fin s m e) (.fin t n g) = true ↔ fpRat (.fin s m e) < fpRat (.fin t n g) := by
  simp only [lt64, decide_eq_true_eq]
  rw [← fpScaled_toRat s m (min_le_left e g), ← fpScaled_toRat t n (min_le_right e g),
    mul_lt_mul_iff_left₀ (by positivity)]
  exact Int.cast_lt.symm

end Sys2Proof.Machine
end

