-- ==== Sys2Proof/Laws/Memory.lean ====
section
/-! SUPPORT. The laws of data memory: reads after writes, and that every memory operation keeps the canonical form. -/

namespace Sys2Proof.Machine

/-! ### One byte -/

@[simp] theorem Memory.read_write_same (m : Memory) (x : Nat) (v : Byte) : (m.write x v).read x = some v := by
  induction m with
  | nil => simp [Memory.write, Memory.read]
  | cons c rest ih =>
    obtain ⟨a, b⟩ := c
    simp only [Memory.write]
    split
    · simp [Memory.read]
    · split
      · simp [Memory.read, *]
      · simp [Memory.read, *]

theorem Memory.read_write_ne (m : Memory) {x y : Nat} (v : Byte) (h : y ≠ x) : (m.write x v).read y = m.read y := by
  induction m with
  | nil => simp [Memory.write, Memory.read, h]
  | cons c rest ih =>
    obtain ⟨a, b⟩ := c
    simp only [Memory.write]
    split
    · by_cases hy : y < x
      · have : y ≠ a := by omega
        have : y < a := by omega
        simp [Memory.read, *]
      · simp [Memory.read, *]
    · split
      · subst_vars; simp [Memory.read, h]
      · simp [Memory.read, ih]

theorem Memory.risesFrom_write {lo : Nat} {m : Memory} {x : Nat} (v : Byte) (h : Memory.risesFrom lo m = true)
    (hlo : lo ≤ x) (hx : x < 4294967296) : Memory.risesFrom lo (m.write x v) = true := by
  induction m generalizing lo with
  | nil => simp [Memory.write, Memory.risesFrom, hlo, hx]
  | cons c rest ih =>
    obtain ⟨a, b⟩ := c
    simp only [Memory.risesFrom, Bool.and_eq_true, decide_eq_true_eq] at h
    simp only [Memory.write]
    split
    · simp only [Memory.risesFrom, Bool.and_eq_true, decide_eq_true_eq]
      exact ⟨⟨hlo, hx⟩, ⟨by omega, h.1.2⟩, h.2⟩
    · split
      · simp only [Memory.risesFrom, Bool.and_eq_true, decide_eq_true_eq]; exact h
      · simp only [Memory.risesFrom, Bool.and_eq_true, decide_eq_true_eq]
        exact ⟨h.1, ih h.2 (by omega)⟩

theorem Memory.wf_write {m : Memory} {x : Nat} (v : Byte) (h : m.wf = true) (hx : x < 4294967296) :
    Memory.wf (m.write x v) = true := Memory.risesFrom_write v h (Nat.zero_le x) hx

@[simp] theorem Memory.byteAt_write_same (m : Memory) (x : Nat) (v : Byte) : (m.write x v).byteAt x = v := by
  simp [Memory.byteAt]

theorem Memory.byteAt_write_ne (m : Memory) {x y : Nat} (v : Byte) (h : y ≠ x) :
    (m.write x v).byteAt y = m.byteAt y := by
  simp [Memory.byteAt, Memory.read_write_ne m v h]

/-! ### Little-endian elements -/

@[simp] theorem inRange_iff (base size a : Nat) : inRange base size a = true ↔ base ≤ a ∧ a < base + size := by
  simp [inRange]

theorem Memory.byteAt_writeLE_outside (m : Memory) {a n y : Nat} (v : Nat) (h : y < a ∨ a + n ≤ y) :
    (Memory.writeLE m a n v).byteAt y = m.byteAt y := by
  induction n generalizing m a v with
  | zero => rfl
  | succ n ih =>
    rw [Memory.writeLE, ih _ _ (by omega), Memory.byteAt_write_ne _ _ (by omega)]

theorem Memory.byteAt_writeLE_inside (m : Memory) {a n : Nat} (v i : Nat) (h : i < n) :
    (Memory.writeLE m a n v).byteAt (a + i) = BitVec.ofNat 8 (v / 256 ^ i) := by
  induction n generalizing m a v i with
  | zero => omega
  | succ n ih =>
    rw [Memory.writeLE]
    cases i with
    | zero => rw [Memory.byteAt_writeLE_outside _ _ (by omega)]; simp
    | succ i =>
      have : a + (i + 1) = a + 1 + i := by omega
      rw [this, ih _ _ _ (by omega), Nat.div_div_eq_div_mul, pow_succ, Nat.mul_comm 256]

theorem Memory.wf_writeLE {m : Memory} {a n : Nat} (v : Nat) (h : m.wf = true) (ha : a + n ≤ 4294967296) :
    Memory.wf (Memory.writeLE m a n v) = true := by
  induction n generalizing m a v with
  | zero => exact h
  | succ n ih => exact ih _ (Memory.wf_write _ h (by omega)) (by omega)

/-- Storing an int16 element and reading it back (20_memory.md R62). -/
theorem memHalf_writeLE (m : Memory) (a : Nat) (v : Word) :
    memHalf (Memory.writeLE m a 2 v.toNat) a = v.extractLsb' 0 16 := by
  have h0 := Memory.byteAt_writeLE_inside m (a := a) (n := 2) v.toNat 0 (by omega)
  have h1 := Memory.byteAt_writeLE_inside m (a := a) (n := 2) v.toNat 1 (by omega)
  rw [Nat.add_zero] at h0
  rw [memHalf, h0, h1]
  apply BitVec.eq_of_toNat_eq
  simp only [BitVec.toNat_append, BitVec.toNat_ofNat, BitVec.extractLsb'_toNat, pow_zero, Nat.div_one, pow_one,
    Nat.shiftRight_zero]
  rw [← Nat.shiftLeft_add_eq_or_of_lt (Nat.mod_lt _ (by norm_num)), Nat.shiftLeft_eq]
  omega

/-- Storing a 32-bit element and reading it back (20_memory.md R62). -/
theorem memWord_writeLE (m : Memory) (a : Nat) (v : Word) : memWord (Memory.writeLE m a 4 v.toNat) a = v := by
  have h0 := Memory.byteAt_writeLE_inside m (a := a) (n := 4) v.toNat 0 (by omega)
  have h1 := Memory.byteAt_writeLE_inside m (a := a) (n := 4) v.toNat 1 (by omega)
  have h2 := Memory.byteAt_writeLE_inside m (a := a) (n := 4) v.toNat 2 (by omega)
  have h3 := Memory.byteAt_writeLE_inside m (a := a) (n := 4) v.toNat 3 (by omega)
  rw [Nat.add_zero] at h0
  rw [memWord, h0, h1, h2, h3]
  apply BitVec.eq_of_toNat_eq
  have hv := v.isLt
  simp only [BitVec.toNat_append, BitVec.toNat_ofNat, pow_zero, Nat.div_one]
  rw [← Nat.shiftLeft_add_eq_or_of_lt (Nat.mod_lt _ (by norm_num)), ← Nat.shiftLeft_add_eq_or_of_lt
    (Nat.mod_lt _ (by norm_num)), ← Nat.shiftLeft_add_eq_or_of_lt (Nat.mod_lt _ (by norm_num))]
  simp only [Nat.shiftLeft_eq]
  omega

/-! ### Byte lists and free bytes -/

theorem Memory.byteAt_writeBytes_outside (m : Memory) {a y : Nat} (bs : List Byte)
    (h : y < a ∨ a + bs.length ≤ y) : (Memory.writeBytes m a bs).byteAt y = m.byteAt y := by
  induction bs generalizing m a with
  | nil => rfl
  | cons b rest ih =>
    simp only [List.length_cons] at h
    rw [Memory.writeBytes, ih _ (by omega), Memory.byteAt_write_ne _ _ (by omega)]

theorem Memory.byteAt_writeBytes_inside (m : Memory) {a : Nat} (bs : List Byte) (i : Nat) (h : i < bs.length) :
    (Memory.writeBytes m a bs).byteAt (a + i) = bs[i] := by
  induction bs generalizing m a i with
  | nil => simp at h
  | cons b rest ih =>
    rw [Memory.writeBytes]
    cases i with
    | zero => rw [Memory.byteAt_writeBytes_outside _ _ (by omega)]; simp
    | succ i =>
      have : a + (i + 1) = a + 1 + i := by omega
      rw [this, ih _ i (by simpa using h)]; simp

theorem Memory.wf_writeBytes {m : Memory} {a : Nat} (bs : List Byte) (h : m.wf = true)
    (ha : a + bs.length ≤ 4294967296) : Memory.wf (Memory.writeBytes m a bs) = true := by
  induction bs generalizing m a with
  | nil => exact h
  | cons b rest ih =>
    simp only [List.length_cons] at ha
    exact ih (Memory.wf_write _ h (by omega)) (by omega)

theorem Memory.byteAt_scramble_outside (m : Memory) (d : Nat) {a n y : Nat} (h : y < a ∨ a + n ≤ y) :
    (Memory.scramble m d a n).byteAt y = m.byteAt y := by
  induction n generalizing m a with
  | zero => rfl
  | succ n ih =>
    rw [Memory.scramble]
    split
    · rw [ih _ (by omega), Memory.byteAt_write_ne _ _ (by omega)]
    · rfl

theorem Memory.byteAt_scramble_inside (m : Memory) (d : Nat) {a n y : Nat} (h : a ≤ y) (hn : y < a + n)
    (hy : y < 4294967296) : (Memory.scramble m d a n).byteAt y = Config.freeByte d y := by
  induction n generalizing m a with
  | zero => omega
  | succ n ih =>
    rw [Memory.scramble, if_pos (by omega)]
    by_cases e : y = a
    · subst e; rw [Memory.byteAt_scramble_outside _ _ (by omega)]; simp
    · exact ih _ (by omega) (by omega)

theorem Memory.wf_scramble {m : Memory} (d a n : Nat) (h : m.wf = true) :
    Memory.wf (Memory.scramble m d a n) = true := by
  induction n generalizing m a with
  | zero => exact h
  | succ n ih =>
    rw [Memory.scramble]
    split
    · exact ih _ (Memory.wf_write _ h (by omega))
    · exact h

end Sys2Proof.Machine
end

