-- ==== Sys2Proof/Laws/State.lean ====
section
/-! SUPPORT. One lemma per field per shared update of the state, true by `rfl` or by the one case split the update
makes: later proofs cite these and unfold no record update. -/

namespace Sys2Proof.Machine

variable (s : State)

/-! ### acceptStart (40_control.md R123) -/
@[simp] theorem acceptStart_cfg : (acceptStart s).cfg = s.cfg := rfl
@[simp] theorem acceptStart_hidden : (acceptStart s).hidden = s.hidden := rfl
@[simp] theorem acceptStart_mem : (acceptStart s).mem = s.mem := rfl
@[simp] theorem acceptStart_cache : (acceptStart s).cache = s.cache := rfl
@[simp] theorem acceptStart_agenda : (acceptStart s).agenda = s.agenda := rfl
@[simp] theorem acceptStart_replies : (acceptStart s).replies = s.replies := rfl
@[simp] theorem acceptStart_phase : (acceptStart s).phase = .busy := rfl
@[simp] theorem acceptStart_draws : (acceptStart s).draws = s.draws + 1 := rfl
@[simp] theorem acceptStart_m0 : (acceptStart s).m0 = { mem := s.mem, marks := s.cache, draw := s.draws } := rfl
@[simp] theorem acceptStart_P_cmd : (acceptStart s).P.cmd = s.regs.cmd := rfl
@[simp] theorem acceptStart_P_srcAddr : (acceptStart s).P.srcAddr = s.regs.srcAddr := rfl
@[simp] theorem acceptStart_P_dstAddr : (acceptStart s).P.dstAddr = s.regs.dstAddr := rfl
@[simp] theorem acceptStart_P_coefAddr : (acceptStart s).P.coefAddr = s.regs.coefAddr := rfl
@[simp] theorem acceptStart_P_len : (acceptStart s).P.len = s.regs.len := rfl
@[simp] theorem acceptStart_P_count : (acceptStart s).P.count = s.regs.count := rfl
@[simp] theorem acceptStart_P_divider : (acceptStart s).P.divider = s.regs.divider := rfl
@[simp] theorem acceptStart_P_shift : (acceptStart s).P.shift = s.regs.shift := rfl
@[simp] theorem acceptStart_regs_irqEn : (acceptStart s).regs.irqEn = s.regs.irqEn := rfl
@[simp] theorem acceptStart_regs_sovr : (acceptStart s).regs.sovr = s.regs.sovr := rfl
@[simp] theorem acceptStart_regs_cmd : (acceptStart s).regs.cmd = s.regs.cmd := rfl
@[simp] theorem acceptStart_regs_srcAddr : (acceptStart s).regs.srcAddr = s.regs.srcAddr := rfl
@[simp] theorem acceptStart_regs_dstAddr : (acceptStart s).regs.dstAddr = s.regs.dstAddr := rfl
@[simp] theorem acceptStart_regs_coefAddr : (acceptStart s).regs.coefAddr = s.regs.coefAddr := rfl
@[simp] theorem acceptStart_regs_len : (acceptStart s).regs.len = s.regs.len := rfl
@[simp] theorem acceptStart_regs_count : (acceptStart s).regs.count = s.regs.count := rfl
@[simp] theorem acceptStart_regs_divider : (acceptStart s).regs.divider = s.regs.divider := rfl
@[simp] theorem acceptStart_regs_shift : (acceptStart s).regs.shift = s.regs.shift := rfl
@[simp] theorem acceptStart_regs_done : (acceptStart s).regs.done = false := rfl
@[simp] theorem acceptStart_regs_err : (acceptStart s).regs.err = false := rfl
@[simp] theorem acceptStart_regs_errCode : (acceptStart s).regs.errCode = .noError := rfl
@[simp] theorem acceptStart_regs_result : (acceptStart s).regs.result = 0#32 := rfl
@[simp] theorem acceptStart_regs_errAddr : (acceptStart s).regs.errAddr = 0#32 := rfl

/-! ### completeOk (40_control.md R129) -/
variable (v : Nat)

@[simp] theorem completeOk_cfg : (completeOk s v).cfg = s.cfg := rfl
@[simp] theorem completeOk_P : (completeOk s v).P = s.P := rfl
@[simp] theorem completeOk_m0 : (completeOk s v).m0 = s.m0 := rfl
@[simp] theorem completeOk_hidden : (completeOk s v).hidden = s.hidden := rfl
@[simp] theorem completeOk_mem : (completeOk s v).mem = s.mem := rfl
@[simp] theorem completeOk_cache : (completeOk s v).cache = s.cache := rfl
@[simp] theorem completeOk_agenda : (completeOk s v).agenda = s.agenda := rfl
@[simp] theorem completeOk_replies : (completeOk s v).replies = s.replies := rfl
@[simp] theorem completeOk_phase : (completeOk s v).phase = .idle := rfl
@[simp] theorem completeOk_draws : (completeOk s v).draws = s.draws + 1 := rfl
@[simp] theorem completeOk_regs_irqEn : (completeOk s v).regs.irqEn = s.regs.irqEn := rfl
@[simp] theorem completeOk_regs_sovr : (completeOk s v).regs.sovr = s.regs.sovr := rfl
@[simp] theorem completeOk_regs_cmd : (completeOk s v).regs.cmd = s.regs.cmd := rfl
@[simp] theorem completeOk_regs_srcAddr : (completeOk s v).regs.srcAddr = s.regs.srcAddr := rfl
@[simp] theorem completeOk_regs_dstAddr : (completeOk s v).regs.dstAddr = s.regs.dstAddr := rfl
@[simp] theorem completeOk_regs_coefAddr : (completeOk s v).regs.coefAddr = s.regs.coefAddr := rfl
@[simp] theorem completeOk_regs_len : (completeOk s v).regs.len = s.regs.len := rfl
@[simp] theorem completeOk_regs_count : (completeOk s v).regs.count = s.regs.count := rfl
@[simp] theorem completeOk_regs_divider : (completeOk s v).regs.divider = s.regs.divider := rfl
@[simp] theorem completeOk_regs_shift : (completeOk s v).regs.shift = s.regs.shift := rfl
@[simp] theorem completeOk_regs_done : (completeOk s v).regs.done = true := rfl
@[simp] theorem completeOk_regs_err : (completeOk s v).regs.err = false := rfl
@[simp] theorem completeOk_regs_errCode : (completeOk s v).regs.errCode = .noError := rfl
@[simp] theorem completeOk_regs_result : (completeOk s v).regs.result = BitVec.ofNat 32 v := rfl
@[simp] theorem completeOk_regs_errAddr : (completeOk s v).regs.errAddr = 0#32 := rfl

/-! ### completeErr (40_control.md R130) -/
variable (code : ErrCode) (addr : Nat)

@[simp] theorem completeErr_cfg : (completeErr s code addr).cfg = s.cfg := rfl
@[simp] theorem completeErr_P : (completeErr s code addr).P = s.P := rfl
@[simp] theorem completeErr_m0 : (completeErr s code addr).m0 = s.m0 := rfl
@[simp] theorem completeErr_hidden : (completeErr s code addr).hidden = s.hidden := rfl
@[simp] theorem completeErr_mem : (completeErr s code addr).mem = s.mem := rfl
@[simp] theorem completeErr_cache : (completeErr s code addr).cache = s.cache := rfl
@[simp] theorem completeErr_agenda : (completeErr s code addr).agenda = s.agenda := rfl
@[simp] theorem completeErr_replies : (completeErr s code addr).replies = s.replies := rfl
@[simp] theorem completeErr_phase : (completeErr s code addr).phase = .idle := rfl
@[simp] theorem completeErr_draws : (completeErr s code addr).draws = s.draws + 1 := rfl
@[simp] theorem completeErr_regs_irqEn : (completeErr s code addr).regs.irqEn = s.regs.irqEn := rfl
@[simp] theorem completeErr_regs_sovr : (completeErr s code addr).regs.sovr = s.regs.sovr := rfl
@[simp] theorem completeErr_regs_cmd : (completeErr s code addr).regs.cmd = s.regs.cmd := rfl
@[simp] theorem completeErr_regs_srcAddr : (completeErr s code addr).regs.srcAddr = s.regs.srcAddr := rfl
@[simp] theorem completeErr_regs_dstAddr : (completeErr s code addr).regs.dstAddr = s.regs.dstAddr := rfl
@[simp] theorem completeErr_regs_coefAddr : (completeErr s code addr).regs.coefAddr = s.regs.coefAddr := rfl
@[simp] theorem completeErr_regs_len : (completeErr s code addr).regs.len = s.regs.len := rfl
@[simp] theorem completeErr_regs_count : (completeErr s code addr).regs.count = s.regs.count := rfl
@[simp] theorem completeErr_regs_divider : (completeErr s code addr).regs.divider = s.regs.divider := rfl
@[simp] theorem completeErr_regs_shift : (completeErr s code addr).regs.shift = s.regs.shift := rfl
@[simp] theorem completeErr_regs_done : (completeErr s code addr).regs.done = true := rfl
@[simp] theorem completeErr_regs_err : (completeErr s code addr).regs.err = true := rfl
@[simp] theorem completeErr_regs_errCode : (completeErr s code addr).regs.errCode = code := rfl
@[simp] theorem completeErr_regs_result : (completeErr s code addr).regs.result = 0#32 := rfl
@[simp] theorem completeErr_regs_errAddr : (completeErr s code addr).regs.errAddr = BitVec.ofNat 32 addr := rfl

/-! ### mark (20_memory.md R80) -/
variable (k : MarkKind) (base size : Nat)

@[simp] theorem mark_cfg : (s.mark k base size).cfg = s.cfg := by unfold State.mark; split <;> rfl
@[simp] theorem mark_regs : (s.mark k base size).regs = s.regs := by unfold State.mark; split <;> rfl
@[simp] theorem mark_phase : (s.mark k base size).phase = s.phase := by unfold State.mark; split <;> rfl
@[simp] theorem mark_P : (s.mark k base size).P = s.P := by unfold State.mark; split <;> rfl
@[simp] theorem mark_m0 : (s.mark k base size).m0 = s.m0 := by unfold State.mark; split <;> rfl
@[simp] theorem mark_hidden : (s.mark k base size).hidden = s.hidden := by unfold State.mark; split <;> rfl
@[simp] theorem mark_mem : (s.mark k base size).mem = s.mem := by unfold State.mark; split <;> rfl
@[simp] theorem mark_agenda : (s.mark k base size).agenda = s.agenda := by unfold State.mark; split <;> rfl
@[simp] theorem mark_replies : (s.mark k base size).replies = s.replies := by unfold State.mark; split <;> rfl
/-- On a non-coherent platform a non-empty range adds one mark, the newest. -/
theorem mark_cache (hc : s.cfg.hostCoherent = false) (hs : size ≠ 0) :
    (s.mark k base size).cache = { kind := k, base := base, size := size } :: s.cache := by
  simp [State.mark, hc, hs]

/-- A coherent platform keeps no marks. -/
theorem mark_coherent (hc : s.cfg.hostCoherent = true) : s.mark k base size = s := by simp [State.mark, hc]

@[simp] theorem mark_draws : (s.mark k base size).draws = s.draws := by unfold State.mark; split <;> rfl

/-! ### clearStatus (40_control.md R126) -/
variable (w : Word)

@[simp] theorem clearStatus_cfg : (clearStatus s w).cfg = s.cfg := rfl
@[simp] theorem clearStatus_phase : (clearStatus s w).phase = s.phase := rfl
@[simp] theorem clearStatus_P : (clearStatus s w).P = s.P := rfl
@[simp] theorem clearStatus_m0 : (clearStatus s w).m0 = s.m0 := rfl
@[simp] theorem clearStatus_hidden : (clearStatus s w).hidden = s.hidden := rfl
@[simp] theorem clearStatus_mem : (clearStatus s w).mem = s.mem := rfl
@[simp] theorem clearStatus_cache : (clearStatus s w).cache = s.cache := rfl
@[simp] theorem clearStatus_agenda : (clearStatus s w).agenda = s.agenda := rfl
@[simp] theorem clearStatus_replies : (clearStatus s w).replies = s.replies := rfl
@[simp] theorem clearStatus_draws : (clearStatus s w).draws = s.draws := rfl
@[simp] theorem clearStatus_regs_irqEn : (clearStatus s w).regs.irqEn = s.regs.irqEn := rfl
@[simp] theorem clearStatus_regs_result : (clearStatus s w).regs.result = s.regs.result := rfl
@[simp] theorem clearStatus_regs_errAddr : (clearStatus s w).regs.errAddr = s.regs.errAddr := rfl
@[simp] theorem clearStatus_regs_cmd : (clearStatus s w).regs.cmd = s.regs.cmd := rfl
@[simp] theorem clearStatus_regs_srcAddr : (clearStatus s w).regs.srcAddr = s.regs.srcAddr := rfl
@[simp] theorem clearStatus_regs_dstAddr : (clearStatus s w).regs.dstAddr = s.regs.dstAddr := rfl
@[simp] theorem clearStatus_regs_coefAddr : (clearStatus s w).regs.coefAddr = s.regs.coefAddr := rfl
@[simp] theorem clearStatus_regs_len : (clearStatus s w).regs.len = s.regs.len := rfl
@[simp] theorem clearStatus_regs_count : (clearStatus s w).regs.count = s.regs.count := rfl
@[simp] theorem clearStatus_regs_divider : (clearStatus s w).regs.divider = s.regs.divider := rfl
@[simp] theorem clearStatus_regs_shift : (clearStatus s w).regs.shift = s.regs.shift := rfl
@[simp] theorem clearStatus_regs_done : (clearStatus s w).regs.done = (s.regs.done && !w.getLsbD 1) := rfl
@[simp] theorem clearStatus_regs_err : (clearStatus s w).regs.err = (s.regs.err && !w.getLsbD 2) := rfl
@[simp] theorem clearStatus_regs_sovr : (clearStatus s w).regs.sovr = (s.regs.sovr && !w.getLsbD 3) := rfl
@[simp] theorem clearStatus_regs_errCode : (clearStatus s w).regs.errCode = (if w.getLsbD 2 then ErrCode.noError else s.regs.errCode) := rfl

/-! ### platformReset (70_reset_and_hazards.md R270) -/
@[simp] theorem platformReset_cfg : (platformReset s).cfg = s.cfg := mark_cfg ..
@[simp] theorem platformReset_agenda : (platformReset s).agenda = s.agenda := mark_agenda ..
@[simp] theorem platformReset_replies : (platformReset s).replies = s.replies := mark_replies ..
@[simp] theorem platformReset_regs : (platformReset s).regs = .reset := mark_regs ..
@[simp] theorem platformReset_P : (platformReset s).P = .reset := mark_P ..
@[simp] theorem platformReset_m0 : (platformReset s).m0 = .reset := mark_m0 ..
@[simp] theorem platformReset_hidden : (platformReset s).hidden = .reset := mark_hidden ..
@[simp] theorem platformReset_phase : (platformReset s).phase = .idle := mark_phase ..
@[simp] theorem platformReset_draws : (platformReset s).draws = s.draws + 1 := mark_draws ..
@[simp] theorem platformReset_mem :
    (platformReset s).mem = Memory.scramble s.mem s.draws s.busyDest.base s.busyDest.size := mark_mem ..

/-! ### startRequest and writeCtrl (40_control.md R120, R123, R124) -/
theorem startRequest_idle (h : s.phase = .idle) : startRequest s = acceptStart s := by simp [startRequest, h]

theorem startRequest_busy (h : s.phase = .busy) :
    startRequest s = { s with regs := { s.regs with sovr := true } } := by simp [startRequest, h]

@[simp] theorem startRequest_cfg : (startRequest s).cfg = s.cfg := by unfold startRequest; split <;> rfl
@[simp] theorem writeCtrl_cfg : (writeCtrl s w).cfg = s.cfg := by unfold writeCtrl; simp only; split <;> simp
@[simp] theorem startRequest_hidden : (startRequest s).hidden = s.hidden := by unfold startRequest; split <;> rfl
@[simp] theorem writeCtrl_hidden : (writeCtrl s w).hidden = s.hidden := by unfold writeCtrl; simp only; split <;> simp
@[simp] theorem startRequest_mem : (startRequest s).mem = s.mem := by unfold startRequest; split <;> rfl
@[simp] theorem writeCtrl_mem : (writeCtrl s w).mem = s.mem := by unfold writeCtrl; simp only; split <;> simp
@[simp] theorem startRequest_cache : (startRequest s).cache = s.cache := by unfold startRequest; split <;> rfl
@[simp] theorem writeCtrl_cache : (writeCtrl s w).cache = s.cache := by unfold writeCtrl; simp only; split <;> simp
@[simp] theorem startRequest_agenda : (startRequest s).agenda = s.agenda := by unfold startRequest; split <;> rfl
@[simp] theorem writeCtrl_agenda : (writeCtrl s w).agenda = s.agenda := by unfold writeCtrl; simp only; split <;> simp
@[simp] theorem startRequest_replies : (startRequest s).replies = s.replies := by unfold startRequest; split <;> rfl
@[simp] theorem writeCtrl_replies : (writeCtrl s w).replies = s.replies := by unfold writeCtrl; simp only; split <;> simp

/-! ### Cache marks (20_memory.md R80; log 13) -/

/-- The newest mark decides where it covers the byte and satisfies the predicate. -/
theorem newestMark_hit {p : MarkKind → Bool} {m : CacheMark} {a : Nat} (rest : List CacheMark) (hp : p m.kind = true)
    (hr : inRange m.base m.size a = true) : newestMark p a (m :: rest) = some m.kind := by
  simp [newestMark, hp, hr]

/-- A stale byte is free to a non-coherent host. -/
theorem hostByte_of_stale {a : Nat} (hc : s.cfg.hostCoherent = false) (h : isStale s.cache a = true) :
    s.hostByte a = Config.freeByte s.draws a := by
  simp [State.hostByte, hc, h]

/-! ### How a completion relates the two states -/
theorem completeOk_succeeded : Succeeded (completeOk s v) v := ⟨rfl, rfl, rfl, rfl, rfl, rfl⟩

theorem completeErr_failed : Failed (completeErr s code addr) code addr := ⟨rfl, rfl, rfl, rfl, rfl, rfl⟩

theorem completeOk_keepsRest : KeepsRest s (completeOk s v) :=
  ⟨rfl, rfl, rfl, rfl, rfl, rfl, rfl, rfl, rfl, rfl, rfl, rfl, rfl, rfl, rfl⟩

theorem completeErr_keepsRest : KeepsRest s (completeErr s code addr) :=
  ⟨rfl, rfl, rfl, rfl, rfl, rfl, rfl, rfl, rfl, rfl, rfl, rfl, rfl, rfl, rfl⟩

end Sys2Proof.Machine
end

