-- ==== Sys2Proof/Laws/Ops.lean ====
section
/-! SUPPORT. What the shared operations of a running command can do: element loads, the read pairs of a dot product,
element stores. -/

namespace Sys2Proof.Machine

/-! ### Loads and stores -/

theorem load16_eq (s : State) (a : Nat) :
    s.load16 a = if memOk s.cfg a 2 .read then .ok (s.half a) else .error (.bus a) := rfl

theorem load32_eq (s : State) (a : Nat) :
    s.load32 a = if memOk s.cfg a 4 .read then .ok (s.word a) else .error (.bus a) := rfl

/-- A store succeeds exactly when the platform accepts it. -/
theorem storeElem_cases (c : Config) (a n : Nat) (v : Word) (m : Memory) :
    (memOk c a n .write = true ∧ storeElem c a n v m = .ok (Memory.writeLE m a n v.toNat)) ∨
    (memOk c a n .write = false ∧ storeElem c a n v m = .error (.bus a)) := by
  unfold storeElem
  cases h : memOk c a n .write <;> simp

/-! ### Read pairs -/

/-- Everything `readPairs` can do, over loads that a predicate `ok` accepts: all pairs in order, or the first rejected
address in the order first, second, first, second, … (20_memory.md R73). -/
theorem readPairs_eq {α : Type} {load : Nat → Except RunError α} {ok : Nat → Bool} {v : Nat → α}
    (hl : ∀ a, load a = if ok a then .ok (v a) else .error (.bus a)) (first second : Nat → Nat) (n k : Nat) :
    readPairs load first second n k =
      match ((List.range' k n).flatMap fun i => [first i, second i]).find? (fun a => !ok a) with
      | none => .ok ((List.range' k n).map fun i => (v (first i), v (second i)))
      | some a => .error (.bus a) := by
  induction n generalizing k with
  | zero => simp [readPairs]
  | succ n ih =>
    simp only [readPairs, hl, ih (k + 1), List.range'_succ, List.flatMap_cons, List.cons_append, List.nil_append,
      List.find?_cons, List.map_cons]
    cases h1 : ok (first k)
    · simp
    · cases h2 : ok (second k)
      · simp
      · simp only [Bool.not_true, if_true]
        cases (((List.range' (k + 1) n).flatMap fun i => [first i, second i]).find? fun a => !ok a) <;> rfl

/-- With every load accepted, `readPairs` answers the pairs in order. -/
theorem readPairs_ok {α : Type} {load : Nat → Except RunError α} {ok : Nat → Bool} {v : Nat → α}
    (hl : ∀ a, load a = if ok a then .ok (v a) else .error (.bus a)) {first second : Nat → Nat} {n : Nat}
    (h : ∀ i, i < n → ok (first i) = true ∧ ok (second i) = true) :
    readPairs load first second n 0 = .ok ((List.range n).map fun i => (v (first i), v (second i))) := by
  rw [readPairs_eq hl, ← List.range_eq_range']
  have : ((List.range n).flatMap fun i => [first i, second i]).find? (fun a => !ok a) = none := by
    simp only [List.find?_eq_none, List.mem_flatMap, List.mem_range, List.mem_cons, List.not_mem_nil, or_false]
    rintro a ⟨i, hi, rfl | rfl⟩
    · simp [(h i hi).1]
    · simp [(h i hi).2]
  rw [this]

/-- `readPairs` fails only with a bus error, at an address of one of its loads. -/
theorem readPairs_error {α : Type} {load : Nat → Except RunError α} {ok : Nat → Bool} {v : Nat → α}
    (hl : ∀ a, load a = if ok a then .ok (v a) else .error (.bus a)) {first second : Nat → Nat} {n : Nat} {e : RunError}
    (h : readPairs load first second n 0 = .error e) :
    ∃ i a, i < n ∧ (a = first i ∨ a = second i) ∧ ok a = false ∧ e = .bus a := by
  rw [readPairs_eq hl, ← List.range_eq_range'] at h
  split at h
  · cases h
  · rename_i a ha
    obtain ⟨hmem, hok⟩ := And.intro (List.mem_of_find?_eq_some ha) (List.find?_some ha)
    simp only [List.mem_flatMap, List.mem_range, List.mem_cons, List.not_mem_nil, or_false] at hmem
    obtain ⟨i, hi, hai⟩ := hmem
    exact ⟨i, a, hi, hai, by simpa using hok, by cases h; rfl⟩

/-! ### What the engine sees -/

/-- On a coherent platform an int16 element is the two bytes of M0 (20_memory.md R62, R72). -/
theorem half_coherent {s : State} (h : s.cfg.hostCoherent = true) (a : Nat) : s.half a = memHalf s.m0.mem a := by
  simp [State.half, State.engineByte, State.sees, h, memHalf]

/-- On a coherent platform a 32-bit element is the four bytes of M0. -/
theorem word_coherent {s : State} (h : s.cfg.hostCoherent = true) (a : Nat) : s.word a = memWord s.m0.mem a := by
  simp [State.word, State.engineByte, State.sees, h, memWord]

/-! ### The numbers the dot products compute -/

/-- The exact sum over a list of indexed pairs is the sum over the index set (41_fir.md R153). -/
theorem exactDot_range (n : Nat) (f g : Nat → BitVec 16) :
    exactDot ((List.range n).map fun i => (f i, g i)) = ∑ i ∈ Finset.range n, (f i).toInt * (g i).toInt := by
  simp only [exactDot, List.map_map]
  induction n with
  | zero => simp
  | succ n ih => rw [List.range_succ, List.map_append, List.sum_append, Finset.sum_range_succ, ih]; simp

/-- The sum of squares over a list of indexed samples. -/
theorem squaresFixed_range (n : Nat) (f : Nat → BitVec 16) :
    squaresFixed ((List.range n).map f) = ∑ i ∈ Finset.range n, (f i).toInt * (f i).toInt := by
  simp only [squaresFixed, List.map_map]
  induction n with
  | zero => simp
  | succ n ih => rw [List.range_succ, List.map_append, List.sum_append, Finset.sum_range_succ, ih]; simp

theorem squaresFixed_nonneg (xs : List (BitVec 16)) : 0 ≤ squaresFixed xs := by
  induction xs with
  | nil => simp [squaresFixed]
  | cons x rest ih =>
    simp only [squaresFixed, List.map_cons, List.sum_cons] at ih ⊢
    exact add_nonneg (mul_self_nonneg _) ih

theorem squaresFixed_append (xs ys : List (BitVec 16)) :
    squaresFixed (xs ++ ys) = squaresFixed xs + squaresFixed ys := by simp [squaresFixed]

theorem accFits_w32 (a : Int) : accFits .w32 a = true ↔ -2147483648 ≤ a ∧ a ≤ 2147483647 := by
  simp only [accFits, Bool.and_eq_true, decide_eq_true_eq]
  simp [AccBits.width]

theorem accFits_w64 (a : Int) : accFits .w64 a = true ↔ -9223372036854775808 ≤ a ∧ a ≤ 9223372036854775807 := by
  simp only [accFits, Bool.and_eq_true, decide_eq_true_eq]
  simp [AccBits.width]

/-- The wrapped accumulator is ACC_BITS wide (10_state.md R39). -/
theorem accWrap_fits (w : AccBits) (a : Int) : accFits w (accWrap w a) = true := by
  have h1 := Int.le_bmod (x := a) (m := 2 ^ w.width) (by positivity)
  have h2 := Int.bmod_lt (x := a) (m := 2 ^ w.width) (by positivity)
  cases w
  · rw [accFits_w32]; simp only [accWrap, AccBits.width] at *; norm_num at h1 h2; norm_num; omega
  · rw [accFits_w64]; simp only [accWrap, AccBits.width] at *; norm_num at h1 h2; norm_num; omega

/-- A sum that fits is what the accumulator holds (41_fir.md R153). -/
theorem accWrap_of_fits {w : AccBits} {a : Int} (h : accFits w a = true) : accWrap w a = a := by
  cases w
  · rw [accFits_w32] at h
    exact Int.bmod_eq_of_le (by simp only [AccBits.width]; norm_num; omega) (by simp only [AccBits.width]; norm_num; omega)
  · rw [accFits_w64] at h
    exact Int.bmod_eq_of_le (by simp only [AccBits.width]; norm_num; omega) (by simp only [AccBits.width]; norm_num; omega)

end Sys2Proof.Machine
end

