-- ==== Sys2Proof/Laws/Corr.lean ====
section
/-! SUPPORT. What CORR_SEARCH can do: the scan over readable windows, where it stops at the first failing one, and what its
registers hold. -/

namespace Sys2Proof.Machine

variable {α : Type}

/-! ### The scan when every window is read -/

/-- NORM after offset `i`, when window `i` is the pair list `ps i` (42_corr.md R195, R203). -/
def Search.normAt (q : Search α) (ps : Nat → List (α × α)) : Nat → NormReg
  | 0 => q.arith.fresh ((ps 0).map Prod.fst)
  | i + 1 => q.nextNorm (i + 1) (q.normAt ps i) ((ps i).map Prod.fst) ((ps (i + 1)).map Prod.fst)

/-- n_i, when window `i` is the pair list `ps i` (42_corr.md R196). -/
def Search.normValueAt (q : Search α) (ps : Nat → List (α × α)) (i : Nat) : Fp :=
  match q.nm with
  | .incremental => (q.normAt ps i).value
  | .fresh => (q.arith.fresh ((ps i).map Prod.fst)).value

/-- score_i, when window `i` is the pair list `ps i` (42_corr.md R201). -/
def Search.scoreAt (q : Search α) (ps : Nat → List (α × α)) (i : Nat) : Fp :=
  corrScore (q.arith.dot (ps i)) (q.normValueAt ps i) i q.s

/-- The hidden registers hold the scan's state after offset `i` (42_corr.md R202). -/
structure ScanState (q : Search α) (ps : Nat → List (α × α)) (h0 : Hidden) (i : Nat) (h : Hidden) : Prop where
  norm      : h.norm = q.normAt ps i
  offset    : h.offset = i
  bestScore : h.bestScore = q.scoreAt ps (bestOffset (q.scoreAt ps) i)
  bestOff   : h.bestOff = BitVec.ofNat 32 (bestOffset (q.scoreAt ps) i)
  acc       : h.acc = h0.acc
  recip     : h.recip = h0.recip

theorem scanState_zero (q : Search α) (ps : Nat → List (α × α)) (h : Hidden) (prev : List α) :
    ScanState q ps h 0
      (scanStep h 0 (q.nextNorm 0 h.norm prev ((ps 0).map Prod.fst))
        (corrScore (q.arith.dot (ps 0)) (q.normOf 0 h.norm prev ((ps 0).map Prod.fst)) 0 q.s)) := by
  have hs : corrScore (q.arith.dot (ps 0)) (q.normOf 0 h.norm prev ((ps 0).map Prod.fst)) 0 q.s = q.scoreAt ps 0 := by
    simp only [Search.scoreAt, Search.normValueAt, Search.normOf]
    cases q.nm <;> simp [Search.nextNorm, Search.normAt]
  rw [hs]
  constructor <;> simp [scanStep, Search.nextNorm, Search.normAt, bestOffset]

theorem scanState_succ {q : Search α} {ps : Nat → List (α × α)} {h0 h : Hidden} {i : Nat} (hi : ScanState q ps h0 i h) :
    ScanState q ps h0 (i + 1)
      (scanStep h (i + 1) (q.nextNorm (i + 1) h.norm ((ps i).map Prod.fst) ((ps (i + 1)).map Prod.fst))
        (corrScore (q.arith.dot (ps (i + 1)))
          (q.normOf (i + 1) h.norm ((ps i).map Prod.fst) ((ps (i + 1)).map Prod.fst)) (i + 1) q.s)) := by
  have hs : corrScore (q.arith.dot (ps (i + 1)))
      (q.normOf (i + 1) h.norm ((ps i).map Prod.fst) ((ps (i + 1)).map Prod.fst)) (i + 1) q.s =
      q.scoreAt ps (i + 1) := by
    simp only [Search.scoreAt, Search.normValueAt, Search.normOf, hi.norm]
    cases q.nm <;> simp [Search.normAt]
  rw [hs]
  have hn : q.nextNorm (i + 1) h.norm ((ps i).map Prod.fst) ((ps (i + 1)).map Prod.fst) = q.normAt ps (i + 1) := by
    rw [hi.norm]; rfl
  rw [hn]
  by_cases hg : gt64 (q.scoreAt ps (i + 1)) h.bestScore = true
  · have hg' := hg
    rw [hi.bestScore] at hg'
    constructor <;> simp [scanStep, hg, bestOffset, hg', hi.acc, hi.recip]
  · have hg' := hg
    rw [hi.bestScore] at hg'
    constructor <;> simp [scanStep, bestOffset, hg', hi.acc, hi.recip, hi.bestScore, hi.bestOff]

theorem scan_from {q : Search α} {ps : Nat → List (α × α)} {h0 h : Hidden} {n i : Nat}
    (hw : ∀ k, k ≤ i + n → q.window k = .ok (ps k)) (hi : ScanState q ps h0 i h) :
    ∃ h', q.scan n (i + 1) ((ps i).map Prod.fst) h = { hidden := h', fail := none } ∧ ScanState q ps h0 (i + n) h' := by
  induction n generalizing i h with
  | zero => exact ⟨h, rfl, hi⟩
  | succ n ih =>
    rw [Search.scan, hw (i + 1) (by omega)]
    obtain ⟨h', he, hs⟩ := ih (i := i + 1) (fun k hk => hw k (by omega)) (scanState_succ hi)
    exact ⟨h', he, by rwa [show i + (n + 1) = i + 1 + n by omega]⟩

/-- When every window is read, the scan succeeds with the registers of the last offset (42_corr.md R202, R203). -/
theorem scan_ok {q : Search α} {ps : Nat → List (α × α)} (h : Hidden) {n : Nat}
    (hw : ∀ k, k ≤ n → q.window k = .ok (ps k)) :
    ∃ h', q.scan (n + 1) 0 [] h = { hidden := h', fail := none } ∧ ScanState q ps h n h' := by
  rw [Search.scan, hw 0 (Nat.zero_le _)]
  obtain ⟨h', he, hs⟩ := scan_from (n := n) (i := 0) (fun k hk => hw k (by omega)) (scanState_zero q ps h [])
  exact ⟨h', he, by rwa [Nat.zero_add] at hs⟩

/-- A scan fails only with the error of one of its windows, the first that has one (60_exceptions.md R241). -/
theorem scan_fail {q : Search α} {n i : Nat} {prev : List α} {h : Hidden} {e : RunError}
    (hf : (q.scan n i prev h).fail = some e) :
    ∃ k, k < n ∧ q.window (i + k) = .error e ∧ ∀ l, l < k → ∃ ps, q.window (i + l) = .ok ps := by
  induction n generalizing i prev h with
  | zero => cases hf
  | succ n ih =>
    rw [Search.scan] at hf
    cases hw : q.window i with
    | error e' =>
      rw [hw] at hf; cases hf
      exact ⟨0, by omega, by simpa using hw, fun l hl => by omega⟩
    | ok ps =>
      rw [hw] at hf
      obtain ⟨k, hk, he, hl⟩ := ih hf
      refine ⟨k + 1, by omega, by rw [show i + (k + 1) = i + 1 + k by omega]; exact he, fun l hlt => ?_⟩
      cases l with
      | zero => exact ⟨ps, by simpa using hw⟩
      | succ l => rw [show i + (l + 1) = i + 1 + l by omega]; exact hl l (by omega)

/-- A scan that meets a failing window fails. -/
theorem scan_fails {q : Search α} {n i k : Nat} {prev : List α} {h : Hidden} {e : RunError} (hk : k < n)
    (he : q.window (i + k) = .error e) (hl : ∀ l, l < k → ∃ ps, q.window (i + l) = .ok ps) :
    (q.scan n i prev h).fail = some e := by
  induction k generalizing n i prev h with
  | zero =>
    obtain ⟨n, rfl⟩ := Nat.exists_eq_succ_of_ne_zero (show n ≠ 0 by omega)
    rw [Search.scan]; rw [Nat.add_zero] at he; rw [he]
  | succ k ih =>
    obtain ⟨n, rfl⟩ := Nat.exists_eq_succ_of_ne_zero (show n ≠ 0 by omega)
    obtain ⟨ps, hp⟩ := hl 0 (by omega)
    rw [Nat.add_zero] at hp
    rw [Search.scan, hp]
    refine ih (by omega) (by rw [show i + 1 + k = i + (k + 1) by omega]; exact he) fun l hlt => ?_
    rw [show i + 1 + l = i + (l + 1) by omega]
    exact hl (l + 1) (by omega)

/-! ### The registers keep their widths -/

/-- The mode's arithmetic answers registers of their widths. -/
def CorrArith.Fits (a : CorrArith α) : Prop :=
  (∀ xs, (a.fresh xs).fits = true) ∧ ∀ n exits entries, n.fits = true → (a.slide n exits entries).fits = true

theorem corrFixed_fits : corrFixed.Fits := by
  refine ⟨fun _ => rfl, fun n _ _ h => ?_⟩
  cases n with
  | fixed q => rfl
  | float x => exact h

theorem corrFloat_fits : corrFloat.Fits := by
  refine ⟨fun xs => foldl_fits _ (fun _ _ => add64_fits _ _) _ _ (fits_posZero _), fun n exits entries h => ?_⟩
  cases n with
  | fixed q => exact h
  | float x =>
    exact foldl_fits _ (fun _ _ => add64_fits _ _) _ _ (foldl_fits _ (fun _ _ => sub64_fits _ _) _ _ h)

theorem scan_hidden_fits {q : Search α} (ha : q.arith.Fits) {n i : Nat} {prev : List α} {h : Hidden}
    (hn : h.norm.fits = true) (hb : fpFits binary64 h.bestScore = true) :
    (q.scan n i prev h).hidden.norm.fits = true ∧ fpFits binary64 (q.scan n i prev h).hidden.bestScore = true ∧
      (q.scan n i prev h).hidden.acc = h.acc ∧ (q.scan n i prev h).hidden.recip = h.recip := by
  induction n generalizing i prev h with
  | zero => exact ⟨hn, hb, rfl, rfl⟩
  | succ n ih =>
    rw [Search.scan]
    split
    · exact ⟨hn, hb, rfl, rfl⟩
    · rename_i ps _
      have hnext : (q.nextNorm i h.norm prev (ps.map Prod.fst)).fits = true := by
        unfold Search.nextNorm
        split
        · exact ha.1 _
        · split
          · exact ha.2 _ _ _ hn
          · exact hn
      have key : ∀ x, fpFits binary64 x = true →
          (scanStep h i (q.nextNorm i h.norm prev (ps.map Prod.fst)) x).norm.fits = true ∧
          fpFits binary64 (scanStep h i (q.nextNorm i h.norm prev (ps.map Prod.fst)) x).bestScore = true ∧
          (scanStep h i (q.nextNorm i h.norm prev (ps.map Prod.fst)) x).acc = h.acc ∧
          (scanStep h i (q.nextNorm i h.norm prev (ps.map Prod.fst)) x).recip = h.recip := by
        intro x hx
        unfold scanStep
        split
        · exact ⟨hnext, hx, rfl, rfl⟩
        · exact ⟨hnext, hb, rfl, rfl⟩
      have hx := key (corrScore (q.arith.dot ps) (q.normOf i h.norm prev (ps.map Prod.fst)) i q.s) (mul64_fits _ _)
      have := ih (i := i + 1) (prev := ps.map Prod.fst) hx.1 hx.2.1
      exact ⟨this.1, this.2.1, this.2.2.1.trans hx.2.2.1, this.2.2.2.trans hx.2.2.2⟩

/-! ### The windows of a command -/

/-- Window i of the search, when the platform answers every read (20_memory.md R73; 42_corr.md R191). -/
theorem searchOf_window {load : Nat → Except RunError α} {ok : Nat → Bool} {v : Nat → α}
    (hl : ∀ a, load a = if ok a then .ok (v a) else .error (.bus a)) (arith : CorrArith α) (p : Params) (esz c : Nat)
    (nm : NormMode) (i : Nat)
    (h : ∀ k, k < p.window c → ok (refElem p esz c i k) = true ∧ ok (cmpElem p esz k) = true) :
    (searchOf load arith p esz c nm).window i =
      .ok ((List.range (p.window c)).map fun k => (v (refElem p esz c i k), v (cmpElem p esz k))) :=
  readPairs_ok hl h

/-- Windows one frame apart share all but C elements (42_corr.md R191). -/
theorem refElem_succ (p : Params) (esz c i k : Nat) : refElem p esz c (i + 1) k = refElem p esz c i (c + k) := by
  simp only [refElem]; ring_nf

/-- The last C elements of a list over `range w`. -/
theorem drop_map_range {β : Type} (f : Nat → β) {c w : Nat} (h : c ≤ w) :
    ((List.range w).map f).drop (w - c) = (List.range c).map fun k => f (w - c + k) := by
  apply List.ext_getElem
  · simp; omega
  · intro k h1 h2; simp

/-- The first C elements of a list over `range w`. -/
theorem take_map_range {β : Type} (f : Nat → β) {c w : Nat} (h : c ≤ w) :
    ((List.range w).map f).take c = (List.range c).map f := by
  apply List.ext_getElem
  · simp; omega
  · intro k h1 h2; simp

/-- Removing the exits and adding the entries gives the next window's sum of squares (42_corr.md R195, FIXED mode). -/
theorem squaresFixed_slide (f : Nat → BitVec 16) {c w : Nat} (h : c ≤ w) :
    squaresFixed ((List.range w).map fun k => f (c + k)) =
      squaresFixed ((List.range w).map f) - squaresFixed ((List.range c).map f) +
        squaresFixed ((List.range c).map fun k => f (c + (w - c + k))) := by
  have hsplit : ∀ g : Nat → BitVec 16, ∀ a b : Nat, squaresFixed ((List.range (a + b)).map g) =
      squaresFixed ((List.range a).map g) + squaresFixed ((List.range b).map fun k => g (a + k)) := by
    intro g a b
    rw [List.range_add, List.map_append, squaresFixed_append, List.map_map]
    rfl
  have h1 := hsplit f c (w - c)
  have h2 := hsplit (fun k => f (c + k)) (w - c) c
  rw [show c + (w - c) = w by omega] at h1
  rw [show w - c + c = w by omega] at h2
  rw [h2, h1]
  ring

/-! ### Completion -/

/-- The ways a search completes (40_control.md R127; 42_corr.md R203). -/
theorem completeCorr_cases (c : Nat) (nm : NormMode) (s : State) :
    (∃ code, staticCheck (.corrSearch c nm) s.P s.esz = some code ∧ completeCorr c nm s = completeErr s code 0) ∨
    (staticCheck (.corrSearch c nm) s.P s.esz = none ∧ (corrRun c nm s).fail = none ∧ completeCorr c nm s =
      completeOk { s with hidden := (corrRun c nm s).hidden } (corrRun c nm s).hidden.bestOff.toNat) ∨
    (∃ e, staticCheck (.corrSearch c nm) s.P s.esz = none ∧ (corrRun c nm s).fail = some e ∧ completeCorr c nm s =
      completeErr { s with hidden := (corrRun c nm s).hidden } e.code e.addr) := by
  unfold completeCorr corrFinish
  split
  · exact .inl ⟨_, ‹_›, rfl⟩
  · split
    · exact .inr (.inl ⟨‹_›, ‹_›, rfl⟩)
    · exact .inr (.inr ⟨_, ‹_›, ‹_›, rfl⟩)

end Sys2Proof.Machine
end

