-- ==== Sys2Proof/Laws/Fir.lean ====
section
/-! SUPPORT. What a FIR command can do: one output position, the loop over all of them, and the ways a command completes. -/

namespace Sys2Proof.Machine

/-! ### One output position -/

theorem sourceElem_eq_frameElem (p : Params) (esz c j ch k : Nat) :
    sourceElem p esz c j ch k = frameElem p esz c (j + k) ch := rfl

/-- The address pairs a position reads, in order (20_memory.md R73). -/
def positionReads (s : State) (c e : Nat) : List Nat :=
  (List.range s.P.len.toNat).flatMap fun k =>
    [coefElem s.P s.esz k, sourceElem s.P s.esz c (e / c) (e % c) k]

/-- Everything a position can do in FIXED mode: the first rejected read, or the exact sum, wrapped in the accumulator,
and its output when it fits (41_fir.md R153 to R156). -/
theorem firPos_fixed {s : State} (hm : s.cfg.sampleMode = .fixed) (c e : Nat) :
    firPos s c e =
      match (positionReads s c e).find? (fun a => !memOk s.cfg a 2 .read) with
      | some a => .error (.bus a)
      | none => .ok (.fixed (accWrap s.cfg.accBits (firSum s c (e / c) (e % c))),
          if accFits s.cfg.accBits (firSum s c (e / c) (e % c))
          then some (BitVec.ofInt 32 (firOut s c (e / c) (e % c))) else none) := by
  have hz : s.esz = 2 := by simp [State.esz, hm, SampleMode.esz]
  simp only [firPos, hm, firPosFixed, positionReads, hz]
  rw [readPairs_eq (load16_eq s), ← List.range_eq_range']
  cases ((List.range s.P.len.toNat).flatMap fun k =>
    [coefElem s.P 2 k, sourceElem s.P 2 c (e / c) (e % c) k]).find? (fun a => !memOk s.cfg a 2 .read) with
  | none =>
    simp only [firFixed, exactDot_range]
    rfl
  | some a => rfl

/-- Everything a position can do in FLOAT mode: the first rejected read, or the binary64 sum and its output
(41_fir.md R158, R159). -/
theorem firPos_float {s : State} (hm : s.cfg.sampleMode = .float) (c e : Nat) :
    firPos s c e =
      match (positionReads s c e).find? (fun a => !memOk s.cfg a 4 .read) with
      | some a => .error (.bus a)
      | none => .ok (.float (firSum64 s c (e / c) (e % c)),
          some (fp32Bits s.draws e (firOut64 s c (e / c) (e % c)))) := by
  have hz : s.esz = 4 := by simp [State.esz, hm, SampleMode.esz]
  simp only [firPos, hm, firPosFloat, positionReads, hz]
  rw [readPairs_eq (load32_eq s), ← List.range_eq_range']
  cases ((List.range s.P.len.toNat).flatMap fun k =>
    [coefElem s.P 4 k, sourceElem s.P 4 c (e / c) (e % c) k]).find? (fun a => !memOk s.cfg a 4 .read) with
  | none =>
    simp only [firFloat, floatDot, List.foldl_map]
    rfl
  | some a => rfl

/-- A position's accumulator value has its width (10_state.md R39). -/
theorem firPos_acc_fits {s : State} {c e : Nat} {a : AccReg} {out : Option Word} (h : firPos s c e = .ok (a, out)) :
    a.fits s.cfg.accBits = true := by
  cases hm : s.cfg.sampleMode with
  | fixed =>
    rw [firPos_fixed hm] at h
    split at h
    · cases h
    · cases h; exact accWrap_fits _ _
  | float =>
    rw [firPos_float hm] at h
    split at h
    · cases h
    · cases h; exact foldl_fits _ (fun _ _ => add64_fits _ _) _ _ (fits_posZero _)

/-! ### The loop over positions -/

/-- The ways destination element `e` can end the command. -/
def PosFails (s : State) (c e : Nat) (err : RunError) : Prop :=
  firPos s c e = .error err ∨
  (∃ a, firPos s c e = .ok (a, none) ∧ err = .accOvf) ∨
  (∃ a y, firPos s c e = .ok (a, some y) ∧ memOk s.cfg (destElem s.P s.esz e) s.esz .write = false ∧
    err = .bus (destElem s.P s.esz e))

/-- Destination element `e` is computed, accepted by the platform, and stored in `m` (20_memory.md R62). -/
def PosStored (s : State) (c e : Nat) (m : Memory) : Prop :=
  ∃ a y, firPos s c e = .ok (a, some y) ∧ memOk s.cfg (destElem s.P s.esz e) s.esz .write = true ∧
    ∀ k, k < s.esz → m.byteAt (destElem s.P s.esz e + k) = BitVec.ofNat 8 (y.toNat / 256 ^ k)

theorem destElem_succ (p : Params) (esz e : Nat) : destElem p esz (e + 1) = destElem p esz e + esz := by
  simp only [destElem]; ring

theorem destElem_mono (p : Params) (esz : Nat) {e g : Nat} (h : e ≤ g) : destElem p esz e ≤ destElem p esz g := by
  simp only [destElem]; gcongr

/-- Everything the loop can do: it stores the elements up to the first that fails, changes no other byte, and reports that
element and its error (20_memory.md R73, R74; 60_exceptions.md R241). -/
theorem firLoop_spec (s : State) (c n e : Nat) (r : FirRun) (h0 : r.fail = none) :
    ∃ d, d ≤ n ∧ (∀ i, e ≤ i → i < e + d → PosStored s c i (firLoop s c n e r).mem) ∧
      (∀ a, a < destElem s.P s.esz e ∨ destElem s.P s.esz (e + d) ≤ a →
        (firLoop s c n e r).mem.byteAt a = r.mem.byteAt a) ∧
      (((firLoop s c n e r).fail = none ∧ d = n) ∨
        ∃ err, d < n ∧ (firLoop s c n e r).fail = some (e + d, err) ∧ PosFails s c (e + d) err) := by
  induction n generalizing e r with
  | zero => exact ⟨0, le_refl _, fun i h1 h2 => by omega, fun _ _ => rfl, .inl ⟨h0, rfl⟩⟩
  | succ n ih =>
    rw [firLoop]
    cases hp : firPos s c e with
    | error err =>
      exact ⟨0, Nat.zero_le _, fun i h1 h2 => by omega, fun _ _ => rfl,
        .inr ⟨err, by omega, rfl, .inl hp⟩⟩
    | ok q =>
      obtain ⟨a, out⟩ := q
      cases out with
      | none =>
        exact ⟨0, Nat.zero_le _, fun i h1 h2 => by omega, fun _ _ => rfl,
          .inr ⟨.accOvf, by omega, rfl, .inr (.inl ⟨a, hp, rfl⟩)⟩⟩
      | some y =>
        obtain ⟨hok, hst⟩ | ⟨hok, hst⟩ := storeElem_cases s.cfg (destElem s.P s.esz e) s.esz y r.mem
        · simp only [hst]
          obtain ⟨d, hd, hstored, hout, hend⟩ := ih (e + 1)
            { mem := Memory.writeLE r.mem (destElem s.P s.esz e) s.esz y.toNat, acc := r.acc.setIfInBounds (e % c) a,
              fail := none } rfl
          refine ⟨d + 1, by omega, fun i h1 h2 => ?_, fun b hb => ?_, ?_⟩
          · by_cases hie : i = e
            · subst hie
              refine ⟨a, y, hp, hok, fun k hk => ?_⟩
              rw [hout _ (.inl (by rw [destElem_succ]; omega))]
              exact Memory.byteAt_writeLE_inside _ _ _ hk
            · exact hstored i (by omega) (by omega)
          · have hge := destElem_mono s.P s.esz (show e + 1 ≤ e + 1 + d by omega)
            rw [destElem_succ] at hge
            rw [show e + (d + 1) = e + 1 + d by omega] at hb
            rw [hout b (by rw [destElem_succ]; omega)]
            exact Memory.byteAt_writeLE_outside _ _ (by omega)
          · obtain ⟨hf, hdn⟩ | ⟨err, hdn, hf, hpf⟩ := hend
            · exact .inl ⟨hf, by omega⟩
            · rw [show e + 1 + d = e + (d + 1) by omega] at hf hpf
              exact .inr ⟨err, by omega, hf, hpf⟩
        · simp only [hst]
          exact ⟨0, Nat.zero_le _, fun i h1 h2 => by omega, fun _ _ => trivial,
            .inr ⟨.bus (destElem s.P s.esz e), by omega, rfl, .inr (.inr ⟨a, y, hp, hok, rfl⟩)⟩⟩

/-- The loop keeps the canonical form of memory while the destination stays in the address space. -/
theorem firLoop_wf {s : State} {c n e : Nat} {r : FirRun} (hw : r.mem.wf = true)
    (hd : destElem s.P s.esz (e + n) ≤ 4294967296) : (firLoop s c n e r).mem.wf = true := by
  induction n generalizing e r with
  | zero => exact hw
  | succ n ih =>
    rw [firLoop]
    split
    · exact hw
    · split
      · exact hw
      · rename_i y _
        obtain ⟨-, hst⟩ | ⟨-, hst⟩ := storeElem_cases s.cfg (destElem s.P s.esz e) s.esz y r.mem <;> simp only [hst]
        · refine ih (Memory.wf_writeLE _ hw ?_) (by rw [show e + 1 + n = e + (n + 1) by omega]; exact hd)
          have := destElem_mono s.P s.esz (show e + 1 ≤ e + (n + 1) by omega)
          rw [destElem_succ] at this
          omega
        · exact hw

/-- The loop keeps every accumulator slot at its width (10_state.md R39). -/
theorem firLoop_acc_fits {s : State} {c n e : Nat} {r : FirRun}
    (ha : ∀ k, (h : k < 16) → (r.acc[k]).fits s.cfg.accBits = true) :
    ∀ k, (h : k < 16) → ((firLoop s c n e r).acc[k]).fits s.cfg.accBits = true := by
  induction n generalizing e r with
  | zero => exact ha
  | succ n ih =>
    have hset : ∀ a, a.fits s.cfg.accBits = true →
        ∀ k, (h : k < 16) → ((r.acc.setIfInBounds (e % c) a)[k]).fits s.cfg.accBits = true := by
      intro a hf k hk
      rw [Vector.getElem_setIfInBounds]
      split
      · exact hf
      · exact ha k hk
    rw [firLoop]
    split
    · exact ha
    · rename_i a out hp
      have hf := firPos_acc_fits hp
      split
      · exact hset a hf
      · rename_i y
        obtain ⟨-, hst⟩ | ⟨-, hst⟩ := storeElem_cases s.cfg (destElem s.P s.esz e) s.esz y r.mem <;> simp only [hst]
        · exact ih (hset a hf)
        · exact hset a hf

/-! ### Completion -/

/-- The ways a FIR command completes (40_control.md R127): a static error, nothing to do, success, or a run-time error. -/
theorem completeFir_cases (i : Instr) (s : State) :
    (∃ code, staticCheck i s.P s.esz = some code ∧ completeFir i s = completeErr s code 0) ∨
    (staticCheck i s.P s.esz = none ∧ s.P.outputs = 0 ∧ completeFir i s = completeOk s 0) ∨
    (staticCheck i s.P s.esz = none ∧ s.P.outputs ≠ 0 ∧
      completeFir i s = (firFinish s i.channels (firRun s i.channels)).mark .engineWrote s.P.dstAddr.toNat
        (s.P.outputs * i.channels * s.esz)) := by
  unfold completeFir runFir
  split
  · exact .inl ⟨_, ‹_›, rfl⟩
  · split
    · exact .inr (.inl ⟨‹_›, ‹_›, rfl⟩)
    · exact .inr (.inr ⟨‹_›, ‹_›, rfl⟩)

/-- The two ways a run finishes (40_control.md R129, R130; 60_exceptions.md R244). -/
theorem firFinish_cases (s : State) (c : Nat) (r : FirRun) :
    (r.fail = none ∧
      firFinish s c r = completeOk { s with hidden := firHidden s r.acc, mem := r.mem } s.P.outputs) ∨
    (∃ e err, r.fail = some (e, err) ∧ firFinish s c r = completeErr
      { s with hidden := firHidden s r.acc,
               mem := Memory.scramble r.mem s.draws (destElem s.P s.esz e) ((s.P.outputs * c - e) * s.esz) }
      err.code err.addr) := by
  unfold firFinish
  split
  · exact .inl ⟨‹_›, rfl⟩
  · exact .inr ⟨_, _, ‹_›, rfl⟩

end Sys2Proof.Machine
end

