-- ==== Sys2Proof/Laws/Step.lean ====
section
/-! SUPPORT. What a step can do, said once: the meanings behind `exec`, the engine's turn, the host's register writes, and
the events of the agenda. -/

namespace Sys2Proof.Machine

/-! ### exec -/

@[simp] theorem exec_firMono (s : State) : exec .firMono s = .next (completeFir .firMono s) := rfl

@[simp] theorem exec_firStereo (s : State) : exec .firStereo s = .next (completeFir .firStereo s) := rfl

@[simp] theorem exec_firMulti (ch : Nat) (s : State) : exec (.firMulti ch) s = .next (completeFir (.firMulti ch) s) := rfl

@[simp] theorem exec_corrSearch (ch : Nat) (nm : NormMode) (s : State) :
    exec (.corrSearch ch nm) s = .next (completeCorr ch nm s) := rfl

/-- A FIR command is `completeFir` of it. -/
theorem exec_of_isFir {i : Instr} (h : i.isFir = true) (s : State) : exec i s = .next (completeFir i s) := by
  cases i <;> first | rfl | cases h

/-- Every command answers a next state. -/
theorem exec_isNext (i : Instr) (s : State) : ∃ t, exec i s = .next t := by
  cases i <;> exact ⟨_, rfl⟩

/-! ### The engine's turn -/

/-- Everything the engine's turn can do. -/
theorem engineTurn_cases {s t : State} (h : engineTurn s = .next t) :
    (s.phase = .idle ∧ t = s) ∨
    (s.phase = .busy ∧ ∃ why, decode s.P.cmd = .illegal why ∧ t = completeErr s .illegalOp 0) ∨
    (s.phase = .busy ∧ ∃ i, decode s.P.cmd = .command i ∧ exec i s = .next t) := by
  unfold engineTurn at h
  cases hp : s.phase with
  | idle => rw [hp] at h; cases h; exact .inl ⟨rfl, rfl⟩
  | busy =>
    rw [hp] at h
    cases hd : decode s.P.cmd with
    | illegal why => rw [hd] at h; cases h; exact .inr (.inl ⟨rfl, why, rfl, rfl⟩)
    | command i => rw [hd] at h; exact .inr (.inr ⟨rfl, i, rfl, h⟩)

/-! ### The register block -/

@[simp] theorem ofOffset_offset (r : Reg) : Reg.ofOffset r.offset = some r := by cases r <;> decide

theorem ofOffset_reserved {off : Nat} (h : 0x34 ≤ off) : Reg.ofOffset off = none := by
  simp only [Reg.ofOffset, List.find?_eq_none, List.mem_cons, List.not_mem_nil, or_false, decide_eq_true_eq]
  rintro r (rfl | rfl | rfl | rfl | rfl | rfl | rfl | rfl | rfl | rfl | rfl | rfl | rfl) <;> simp only [Reg.offset] <;>
    omega

/-- An access to a register of the block is allowed when the base is aligned (40_control.md R122). -/
theorem blockAccess_register {c : Config} (h : c.engineBase % 4 = 0) (r : Reg) :
    blockAccess c (c.engineBase + r.offset) 4 = true := by
  have hr : r.offset < 256 ∧ r.offset % 4 = 0 := by cases r <;> decide
  simp only [blockAccess, Bool.and_eq_true, decide_eq_true_eq]
  exact ⟨⟨⟨⟨trivial, by omega⟩, by omega⟩, by omega⟩, by omega⟩

/-- Everything a register write can do: nothing, a new operand or command register, a STATUS write, a CTRL write. -/
theorem writeRegister_cases (s : State) (v : Word) (r : Reg) :
    (writeRegister s v r = clearStatus s v ∧ r = .status) ∨ (writeRegister s v r = writeCtrl s v ∧ r = .ctrl) ∨
    (r ≠ .status ∧ r ≠ .ctrl ∧ ∃ g : Regs, writeRegister s v r = { s with regs := g } ∧ g.irqEn = s.regs.irqEn ∧
      g.done = s.regs.done ∧ g.err = s.regs.err ∧ g.sovr = s.regs.sovr ∧ g.errCode = s.regs.errCode ∧
      g.result = s.regs.result ∧ g.errAddr = s.regs.errAddr) := by
  cases r <;> first
    | exact .inl ⟨rfl, rfl⟩
    | exact .inr (.inl ⟨rfl, rfl⟩)
    | exact .inr (.inr ⟨by decide, by decide, _, rfl, rfl, rfl, rfl, rfl, rfl, rfl, rfl⟩)

/-- Everything a CTRL write can do (40_control.md R120, R123, R124). -/
theorem writeCtrl_cases (s : State) (v : Word) :
    (v.getLsbD 0 = false ∧ writeCtrl s v = { s with regs := { s.regs with irqEn := v.getLsbD 1 } }) ∨
    (v.getLsbD 0 = true ∧ s.phase = .idle ∧
      writeCtrl s v = acceptStart { s with regs := { s.regs with irqEn := v.getLsbD 1 } }) ∨
    (v.getLsbD 0 = true ∧ s.phase = .busy ∧
      writeCtrl s v = { s with regs := { s.regs with irqEn := v.getLsbD 1, sovr := true } }) := by
  unfold writeCtrl
  cases h : v.getLsbD 0 with
  | false => exact .inl ⟨rfl, by simp⟩
  | true =>
    cases hp : s.phase with
    | idle => exact .inr (.inl ⟨rfl, rfl, by rw [if_pos rfl, startRequest_idle]; rfl⟩)
    | busy => exact .inr (.inr ⟨rfl, rfl, by rw [if_pos rfl, startRequest_busy]; rfl⟩)

/-- Everything a write at an offset can do. -/
theorem writeOffset_cases (s : State) (off : Nat) (v : Word) :
    writeOffset s off v = s ∨ ∃ r, Reg.ofOffset off = some r ∧ writeOffset s off v = writeRegister s v r := by
  unfold writeOffset
  cases h : Reg.ofOffset off with
  | none => exact .inl rfl
  | some r => exact .inr ⟨r, rfl, rfl⟩

/-! ### Events and steps -/

/-- Everything an event that goes on can do. -/
theorem runEvent_cases {e : Event} {s t : State} (h : runEvent e s = .next t) :
    (∃ addr width v, e = .regWrite addr width v ∧ blockAccess s.cfg addr width = true ∧
      t = writeOffset s (addr - s.cfg.engineBase) v) ∨
    (∃ addr width, e = .regRead addr width ∧ blockAccess s.cfg addr width = true ∧
      t = { s with replies := .reg addr (readOffset s (addr - s.cfg.engineBase)) :: s.replies }) ∨
    (∃ addr bytes, e = .memWrite addr bytes ∧ inDataSpace addr bytes.length = true ∧
      s.busyRegions.any (Region.meets ⟨addr, bytes.length⟩) = false ∧
      t = { s with mem := Memory.writeBytes s.mem addr bytes }.mark .hostWrote addr bytes.length) ∨
    (∃ addr count, e = .memRead addr count ∧ inDataSpace addr count = true ∧
      t = { s with
        replies := .data addr ((List.range count).map fun k => s.hostByte (addr + k)) :: s.replies
        draws := s.draws + 1 }) ∨
    (e = .sampleIrq ∧ t = hostSampleIrq s) ∨
    (∃ base size, e = .cacheClean base size ∧ t = s.mark .cleaned base size) ∨
    (∃ base size, e = .cacheInvalidate base size ∧ t = s.mark .invalidated base size) ∨
    (e = .engine ∧ engineTurn s = .next t) ∨
    (e = .reset ∧ t = platformReset s) := by
  cases e with
  | regWrite addr width v =>
    simp only [runEvent, hostRegWrite] at h
    split at h
    · cases h; exact .inl ⟨_, _, _, rfl, ‹_›, rfl⟩
    · cases h
  | regRead addr width =>
    simp only [runEvent, hostRegRead] at h
    split at h
    · cases h; exact .inr (.inl ⟨_, _, rfl, ‹_›, rfl⟩)
    · cases h
  | memWrite addr bytes =>
    simp only [runEvent, hostMemWrite] at h
    split at h
    · cases h
    · rename_i hs
      split at h
      · cases h
      · rename_i hm
        cases h
        exact .inr (.inr (.inl ⟨_, _, rfl, by simpa using hs, Bool.eq_false_iff.2 hm, rfl⟩))
  | memRead addr count =>
    simp only [runEvent, hostMemRead] at h
    split at h
    · cases h
    · rename_i hs
      cases h; exact .inr (.inr (.inr (.inl ⟨_, _, rfl, by simpa using hs, rfl⟩)))
  | sampleIrq => cases h; exact .inr (.inr (.inr (.inr (.inl ⟨rfl, rfl⟩))))
  | cacheClean base size => cases h; exact .inr (.inr (.inr (.inr (.inr (.inl ⟨_, _, rfl, rfl⟩)))))
  | cacheInvalidate base size => cases h; exact .inr (.inr (.inr (.inr (.inr (.inr (.inl ⟨_, _, rfl, rfl⟩))))))
  | engine => exact .inr (.inr (.inr (.inr (.inr (.inr (.inr (.inl ⟨rfl, h⟩)))))))
  | reset => cases h; exact .inr (.inr (.inr (.inr (.inr (.inr (.inr (.inr ⟨rfl, rfl⟩)))))))

/-- A step with nothing pending is the engine's turn. -/
theorem step_nil {s : State} (h : s.agenda = []) : step s = engineTurn s := by simp [step, runAgenda, h]

/-- A step with an event pending is that event. -/
theorem step_cons {s : State} {e : Event} {rest : List Event} (h : s.agenda = e :: rest) :
    step s = runEvent e { s with agenda := rest } := by simp [step, runAgenda, h]

end Sys2Proof.Machine
end

