-- ==== Sys2Proof/Laws/PerInstr.lean ====
section
/-! SUPPORT. The laws stated of every command, one lemma per constructor. -/

namespace Sys2Proof.Laws.EncodeMatchesTable

/-- The command word of a well-formed command carries its row's fixed bits (spec/opcode_table.json). -/
def Statement (i : Instr) : Prop := i.wellFormed = true → encode i &&& i.tableMask = i.tableMatch

theorem firMono : Statement .firMono := fun _ => by decide

theorem firStereo : Statement .firStereo := fun _ => by decide

theorem firMulti (ch : Nat) : Statement (.firMulti ch) := fun h => by
  have hc : ch < 16 := by simpa [Instr.wellFormed] using h
  simp only [encode, Instr.tableMask, Instr.tableMatch]
  interval_cases ch <;> decide

theorem corrSearch (ch : Nat) (nm : NormMode) : Statement (.corrSearch ch nm) := fun h => by
  have hc : ch < 16 := by simpa [Instr.wellFormed] using h
  simp only [encode, Instr.tableMask, Instr.tableMatch]
  cases nm <;> interval_cases ch <;> decide

end Sys2Proof.Laws.EncodeMatchesTable
end

