-- ==== Sys2Proof/Laws/Script.lean ====
section
/-! SUPPORT. What one move of a host script can do, and how schedules compose. -/

namespace Sys2Proof.Machine

variable {prog : List Stmt} {r : ScriptRun} {st : Stmt}

/-- An expression depends on the host's variables alone. -/
@[simp] theorem eval_pc (e : HostExpr) (h : HostState) (n : Nat) : e.eval { h with pc := n } = e.eval h := by
  induction e with
  | lit | var => rfl
  | add a b ha hb | mul a b ha hb => simp only [HostExpr.eval, ha, hb]
  | shr a _ ha | band a _ ha => simp only [HostExpr.eval, ha]

/-- A statement without transactions moves only the host. -/
theorem hostMove_silent (hs : prog[r.host.pc]? = some st) (hp : r.pending = [])
    (ht : st.transactions r.machine.cfg.engineBase r.host = []) :
    r.hostMove prog = .next { r with host := r.host.after prog 0 st } := by
  simp [ScriptRun.hostMove, hs, ScriptRun.todo, hp, ht]

/-- `wr` makes one register write of the value of its expression (30_encoding.md R100). -/
theorem hostMove_wr {reg : Reg} {v : HostExpr} (hs : prog[r.host.pc]? = some (.wr reg v)) (hp : r.pending = [])
    (hb : r.machine.cfg.engineBase % 4 = 0) :
    r.hostMove prog = .next
      { host := { r.host with pc := r.host.pc + 1 }
        pending := []
        machine := writeRegister r.machine (BitVec.ofNat 32 (v.eval r.host)) reg
        trace := (.regWrite (r.machine.cfg.engineBase + reg.offset) 4 (BitVec.ofNat 32 (v.eval r.host)), none) ::
          r.trace } := by
  simp only [ScriptRun.hostMove, hs, ScriptRun.todo, hp, if_true, Stmt.transactions, ScriptRun.transact]
  rw [step_cons rfl]
  simp [runEvent, hostRegWrite, blockAccess_register hb, writeOffset, scriptAnswer, HostState.after]

/-- `rd` makes one register read and sets its variable to the answer (30_encoding.md R100). -/
theorem hostMove_rd {reg : Reg} {x : String} (hs : prog[r.host.pc]? = some (.rd reg x)) (hp : r.pending = [])
    (hb : r.machine.cfg.engineBase % 4 = 0) :
    r.hostMove prog = .next
      { host := { pc := r.host.pc + 1, vars := (x, (readRegister r.machine reg).toNat) :: r.host.vars }
        pending := []
        machine := { r.machine with
          replies := .reg (r.machine.cfg.engineBase + reg.offset) (readRegister r.machine reg) :: r.machine.replies }
        trace := (.regRead (r.machine.cfg.engineBase + reg.offset) 4, some (readRegister r.machine reg)) ::
          r.trace } := by
  simp only [ScriptRun.hostMove, hs, ScriptRun.todo, hp, if_true, Stmt.transactions, ScriptRun.transact]
  rw [step_cons rfl]
  simp [runEvent, hostRegRead, blockAccess_register hb, readOffset, scriptAnswer, HostState.after]

@[simp] theorem runScript_nil : runScript prog [] r = .next r := rfl

/-- A host move that goes on, then the rest of the schedule. -/
theorem runScript_host {ms : List Mover} {r' : ScriptRun} (h : r.hostMove prog = .next r') :
    runScript prog (.host :: ms) r = runScript prog ms r' := by
  simp [runScript, ScriptRun.move, h]

/-- A schedule that goes on, then another. -/
theorem runScript_append {ms ns : List Mover} {r' : ScriptRun} (h : runScript prog ms r = .next r') :
    runScript prog (ms ++ ns) r = runScript prog ns r' := by
  induction ms generalizing r with
  | nil => cases h; rfl
  | cons m ms ih =>
    simp only [runScript, List.cons_append] at h ⊢
    cases hm : r.move prog m with
    | next q => rw [hm] at h; exact ih h
    | fault f => rw [hm] at h; cases h
    | refused q => rw [hm] at h; cases h

end Sys2Proof.Machine
end

