-- ==== Sys2Proof/Tests/Slice0.lean ====
section
/-! SUPPORT. Tests of the model against 95_test_vectors.md and the tables of 30_encoding.md, and one witness for the
hypotheses of every statement. -/

namespace Sys2Proof.Tests

open Sys2Proof.Machine

/-! ### WellFormed smoke: ill-formed terms are refused -/

/-- CH has four bits (30_encoding.md R90). -/
theorem test_wellFormed_firMulti :
    (Instr.firMulti 15).wellFormed = true ∧ (Instr.firMulti 16).wellFormed = false := by decide

theorem test_wellFormed_corrSearch :
    (Instr.corrSearch 15 .fresh).wellFormed = true ∧ (Instr.corrSearch 16 .fresh).wellFormed = false := by decide

theorem test_wellFormed_fixedChannels :
    Instr.firMono.wellFormed = true ∧ Instr.firStereo.wellFormed = true := by decide

/-- The assembler's check (30_encoding.md R101). -/
theorem test_assemblable : (Instr.firMulti 0).assemblable = false ∧ (Instr.firMulti 16).assemblable = false ∧
    (Instr.corrSearch 0 .fresh).assemblable = false ∧ (Instr.corrSearch 15 .fresh).assemblable = true := by decide

/-! ### Decoding: words written out from 30_encoding.md R90, R91 and 95_test_vectors.md section 2 -/

/-- RSV 0, NM 0, CH 0, OP 1. -/
theorem test_decode_firMono :
    decode (0b00000000000000000000000#23 ++ 0b0#1 ++ 0b0000#4 ++ 0b0001#4) = .command .firMono := by decide

/-- RSV 0, NM 0, CH 0, OP 2. -/
theorem test_decode_firStereo :
    decode (0b00000000000000000000000#23 ++ 0b0#1 ++ 0b0000#4 ++ 0b0010#4) = .command .firStereo := by decide

/-- RSV 0, NM 0, CH 3, OP 3. -/
theorem test_decode_firMulti :
    decode (0b00000000000000000000000#23 ++ 0b0#1 ++ 0b0011#4 ++ 0b0011#4) = .command (.firMulti 3) ∧
    decode 0x00000003#32 = .command (.firMulti 0) ∧ decode 0x00000013#32 = .command (.firMulti 1) := by decide

/-- RSV 0, NM 1, CH 2, OP 4; and the words of section 2. -/
theorem test_decode_corrSearch :
    decode (0b00000000000000000000000#23 ++ 0b1#1 ++ 0b0010#4 ++ 0b0100#4) = .command (.corrSearch 2 .fresh) ∧
    decode 0x000000F4#32 = .command (.corrSearch 15 .incremental) ∧
    decode 0x00000104#32 = .command (.corrSearch 0 .fresh) := by decide

/-- The illegal words of section 2. -/
theorem test_decode_illegal :
    decode 0x00000000#32 = .illegal .reservedOpcode ∧ decode 0x00000005#32 = .illegal .reservedOpcode ∧
    decode 0x00000011#32 = .illegal .channelField ∧ decode 0x00000102#32 = .illegal .normField ∧
    decode 0x00000103#32 = .illegal .normField ∧ decode 0x00000214#32 = .illegal .reservedBits ∧
    decode 0x80000001#32 = .illegal .reservedBits := by decide

theorem test_decodeTableWord : decodeTableWord 32 0x33 = some (.firMulti 3) ∧ decodeTableWord 32 0x103 = none := by decide

/-! ### Small states -/

/-- int16 elements from `a` on (20_memory.md R62). -/
def halves (a : Nat) (xs : List Int) (m : Memory) : Memory :=
  m.writeBytes a (xs.flatMap fun x => [(BitVec.ofInt 16 x).extractLsb' 0 8, (BitVec.ofInt 16 x).extractLsb' 8 8])

/-- 32-bit elements from `a` on (20_memory.md R62). -/
def words (a : Nat) (xs : List Word) (m : Memory) : Memory :=
  m.writeBytes a (xs.flatMap fun x => [x.extractLsb' 0 8, x.extractLsb' 8 8, x.extractLsb' 16 8, x.extractLsb' 24 8])

def fixedCfg : Config := { Config.standard with sampleMode := .fixed }

def floatCfg : Config := { Config.standard with sampleMode := .float }

/-- The buffers of 95_test_vectors.md, the operands written, and START accepted: the engine is BUSY. -/
def busyWith (c : Config) (m : Memory) (cmd len count : Word) (sh : BitVec 6) : State :=
  acceptStart { State.resetWith c with
    mem := m
    regs := { Regs.reset with cmd := cmd, srcAddr := 0x1000#32, dstAddr := 0x3000#32, coefAddr := 0x2000#32,
                              len := len, count := count, shift := sh } }

/-- A property of the state a step answers. -/
def after (r : Host.Outcome State Fault Refusal) (p : State → Bool) : Bool :=
  match r with
  | .next t => p t
  | .fault _ => false
  | .refused _ => false

def outs16 (t : State) (n : Nat) : List Int := (List.range n).map fun k => (memHalf t.mem (0x3000 + 2 * k)).toInt

def outs32 (t : State) (n : Nat) : List Word := (List.range n).map fun k => memWord t.mem (0x3000 + 4 * k)

/-! ### One step, against the vectors of 95_test_vectors.md -/

/-- V-F2. -/
theorem test_firMono_shift :
    after (step (busyWith fixedCfg (halves 0x2000 [1, 0, 0, 0] (halves 0x1000 [-3, 3, 0, 0, 0, 0] []))
      0x1#32 4#32 6#32 1#6))
      (fun t => t.statusWord = 0x2#32 && t.regs.result = 2#32 && outs16 t 2 = [-2, 1]) = true := by decide

/-- V-F8: the sum in tap order. -/
theorem test_firMono_float :
    after (step (busyWith floatCfg (words 0x2000 [0x3F800000#32, 0x3F800000#32, 0x3F800000#32, 0x3F800000#32]
      (words 0x1000 [0x5D800000#32, 0x3F800000#32, 0xDD800000#32, 0x3F800000#32, 0#32] [])) 0x1#32 4#32 5#32 0#6))
      (fun t => t.statusWord = 0x2#32 && t.regs.result = 1#32 && outs32 t 1 = [0x3F800000#32]) = true := by decide

/-- V-F6. -/
theorem test_firStereo_channels :
    after (step (busyWith fixedCfg (halves 0x2000 [1, 2, 0, 0]
      (halves 0x1000 [1, 100, 2, 200, 3, 300, 4, 400, 5, 500, 6, 600] [])) 0x2#32 4#32 6#32 0#6))
      (fun t => t.regs.result = 2#32 && outs16 t 4 = [5, 500, 8, 800]) = true := by decide

/-- V-F18. -/
theorem test_firStereo_saturates :
    after (step (busyWith fixedCfg (halves 0x2000 [32767, 32767, 0, 0] (halves 0x1000
      [32767, -32768, 32767, -32768, 32767, -32768, 32767, -32768, 32767, -32768] [])) 0x2#32 4#32 5#32 15#6))
      (fun t => t.regs.result = 1#32 && outs16 t 2 = [32767, -32768]) = true := by decide

/-- V-F7. -/
theorem test_firMulti_delay :
    after (step (busyWith fixedCfg (halves 0x2000 [0, 1, 0, 0]
      (halves 0x1000 [1, 2, 3, 4, 5, 6, 7, 8, 9, 10, 11, 12, 13, 14, 15] [])) 0x33#32 4#32 5#32 0#6))
      (fun t => t.regs.result = 1#32 && outs16 t 3 = [4, 5, 6]) = true := by decide

/-- V-F20 with the write at 0x3002 rejected (V-E11). -/
theorem test_firMulti_busError :
    after (step (busyWith { fixedCfg with busHoles := [⟨0x3002, 1, 2, .write⟩] }
      (halves 0x2000 [1, 0, 0, 0] (halves 0x1000 [10, -20, 30, -40, 50, 60] [])) 0x13#32 4#32 6#32 0#6))
      (fun t => t.statusWord = 0xA06#32 && t.regs.errAddr = 0x3002#32 && t.regs.result = 0#32 && outs16 t 1 = [10]) =
      true := by decide

/-- The reference and compare data of V-C7. -/
def seventh : Memory :=
  words 0x2000 [0x3F800000#32, 0x3F800000#32] (words 0x1000 [0x4D000000#32, 0x3F800000#32, 0#32, 0#32, 0x40000000#32] [])

/-- V-C7: the normalizer mode changes RESULT. -/
theorem test_corrSearch_normalizers :
    after (step (busyWith floatCfg seventh 0x14#32 2#32 4#32 0#6))
      (fun t => t.regs.result = 3#32 && t.hidden.bestScore = fp64 0x3FF2D20CD1372FEC) = true ∧
    after (step (busyWith floatCfg seventh 0x114#32 2#32 4#32 0#6))
      (fun t => t.regs.result = 1#32 && t.hidden.bestScore = fp64 0x3FF0800000000000) = true := by decide

/-- V-C10: two channels. -/
theorem test_corrSearch_channels :
    after (step (busyWith floatCfg (words 0x2000 [0x3F800000#32, 0x3F800000#32] (words 0x1000
      [0x3F800000#32, 0#32, 0#32, 0x3F800000#32, 0x3F800000#32, 0x3F800000#32, 0x40000000#32, 0xBF800000#32] []))
      0x24#32 1#32 4#32 0#6))
      (fun t => t.regs.result = 2#32 && t.hidden.bestScore = fp64 0x3FF83A380018D566 &&
        t.hidden.norm = .float (fp64 0x4014000000000000)) = true := by decide

/-- The constants of 00_scope.md R10 are the rounded decimals. -/
theorem test_constants : fpEps = div64 fpOne (fpOfInt 1000000000) ∧ fpC01 = div64 fpOne (fpOfInt 10) ∧
    fpC075 = div64 (fpOfInt 3) (fpOfInt 4) ∧ fpC025 = div64 fpOne (fpOfInt 4) ∧ fpOne = fpOfInt 1 := by decide

/-- V-F9 and V-C10: a reciprocal and a root that are not exact (0x3FD5555555555555; 0x3FF6A09E667F3BCD, of V-C10's
raw score 2 / sqrt 2 = sqrt 2). -/
theorem test_inexact : div64 fpOne (fp32 0x40400000#32) = fp64 0x3FD5555555555555 ∧
    sqrt64 (fpOfInt 2) = fp64 0x3FF6A09E667F3BCD := by decide

/-- V-L2: clearing ERR clears ERR_CODE and keeps DONE. -/
theorem test_statusWrite :
    after (step ({ State.reset with regs := { Regs.reset with done := true, err := true, errCode := .misaligned } }.thenWrites
      .status 0x4#32)) (fun t => t.statusWord = 0x2#32) = true := by decide

/-! ### Witnesses: for every statement with hypotheses, a concrete case that meets them all -/

/-- V-F1. -/
def filterState : State :=
  busyWith fixedCfg (halves 0x2000 [1, 0, 0, 0] (halves 0x1000 [10, -20, 30, -40, 50, 60] [])) 0x1#32 4#32 6#32 0#6

/-- V-F19. -/
def floatFilterState : State :=
  busyWith floatCfg (words 0x2000 [0x3F000000#32, 0x3E800000#32, 0#32, 0#32] (words 0x1000
    [0x3F800000#32, 0x40000000#32, 0x40400000#32, 0x40800000#32, 0x40A00000#32, 0x40C00000#32] [])) 0x1#32 4#32 6#32 0#6

/-- V-C9. -/
def searchState : State :=
  busyWith fixedCfg (halves 0x2000 [1, 2] (halves 0x1000 [100, -200, 300, 0] [])) 0x14#32 2#32 3#32 0#6

/-- A latched illegal word (V-E1). -/
def illegalState : State := busyWith fixedCfg [] 0x0#32 4#32 6#32 0#6

/-- The state a step answers, for witnesses about it. -/
def nextOf (r : Host.Outcome State Fault Refusal) : State :=
  match r with
  | .next t => t
  | .fault _ => State.reset
  | .refused _ => State.reset

theorem memOk_noHoles {c : Config} (h : c.busHoles = []) (a n : Nat) (k : AccessKind) : memOk c a n k = true := by
  simp [memOk, h]

theorem witness_EncodeThenDecode : (Instr.corrSearch 15 .fresh).wellFormed = true := by decide

theorem witness_DecodeThenEncode : decode 0x1F4#32 = .command (.corrSearch 15 .fresh) := by decide

theorem witness_ReservedWordsEndInIllegalOp :
    illegalState.phase = .busy ∧ decode illegalState.P.cmd = .illegal .reservedOpcode := by decide

theorem witness_AssemblerWords : (1 ≤ 1 ∧ 1 ≤ 15) ∧ (1 ≤ 15 ∧ 15 ≤ 15) ∧ 15 < 16 ∧
    assemble (.firMulti 15) = some 0xF3#32 := by decide

theorem witness_StepRunsDecodedCommand : filterState.phase = .busy ∧ decode filterState.P.cmd = .command .firMono ∧
    filterState.agenda = [] := by decide

theorem witness_PlacedWordRunsNext : decode 0x33#32 = .command (.firMulti 3) := by decide

theorem witness_RegisterWritesTakeEffect : State.reset.cfg.engineBase % 4 = 0 ∧
    (0x34 ≤ 0x34 ∧ 0x34 ≤ 0xFC ∧ 0x34 % 4 = 0) ∧ (0x34 ≤ 0xFC ∧ 0xFC ≤ 0xFC ∧ 0xFC % 4 = 0) := by decide

theorem witness_OtherRegisterAccessesFault :
    (2 ≠ 4) ∧ (6 % 4 ≠ 0) ∧ (252 < ({ State.reset with cfg := { fixedCfg with engineBase := 256 } } : State).cfg.engineBase) ∧
    State.reset.cfg.engineBase + 256 ≤ 256 := by decide

theorem witness_ReservedOffsetsReadZero : 0x34 ≤ 0x34 ∧ 0x34 ≤ 0xFC ∧ 0xFC ≤ 0xFC := by decide

theorem reset_meets_inv (c : Config) : EngineInv (State.resetWith c) where
  memWf := rfl
  m0Wf := rfl
  busy h := by cases h
  code := ⟨fun _ => rfl, fun _ => rfl⟩
  errResult h := by cases h
  errAddr h := by cases h
  acc k hk := by
    simp only [State.resetWith, Hidden.reset, Vector.getElem_replicate, AccReg.fits]
    cases c.accBits <;> decide
  recip := rfl
  norm := rfl
  best := rfl

theorem witness_inv_busy : EngineInv illegalState ∧ illegalState.phase = .busy where
  left :=
    { memWf := rfl, m0Wf := rfl, busy := fun _ => by decide, code := by decide, errResult := fun h => (by cases h),
      errAddr := fun h => (by cases h), acc := (reset_meets_inv fixedCfg).acc, recip := rfl, norm := rfl, best := rfl }
  right := rfl

/-- The states of RegisterReadsAnswerValues, StatusBits and StatusWriteClears. -/
theorem witness_RegisterReadsAnswerValues : illegalState.cfg.engineBase % 4 = 0 ∧ EngineInv illegalState ∧
    illegalState.phase = .busy ∧ (0x34 ≤ 0xFC ∧ 0xFC ≤ 0xFC ∧ 0xFC % 4 = 0) :=
  ⟨by decide, witness_inv_busy.1, rfl, by decide⟩

theorem witness_AcceptedStartLatchesParameters :
    State.reset.cfg.engineBase % 4 = 0 ∧ State.reset.phase = .idle ∧ (0x3#32).getLsbD 0 = true := by decide

theorem witness_StartWhileBusyIsLost :
    filterState.cfg.engineBase % 4 = 0 ∧ filterState.phase = .busy ∧ (0x1#32).getLsbD 0 = true := by decide

theorem witness_WritesWhileBusyWaitForNextStart : filterState.cfg.engineBase % 4 = 0 ∧ filterState.phase = .busy ∧
    Reg.cmd ∈ operandRegs ∧ Reg.shift ∈ operandRegs ∧
    exec .firMono filterState = .next (completeFir .firMono filterState) :=
  ⟨by decide, rfl, by decide, by decide, rfl⟩

theorem witness_StatusWriteClears : illegalState.cfg.engineBase % 4 = 0 ∧ (0xE#32).getLsbD 1 = true ∧
    EngineInv illegalState ∧ illegalState.phase = .busy := ⟨by decide, by decide, witness_inv_busy.1, rfl⟩

theorem witness_InterruptFollowsDone :
    (filterState.cfg.engineBase % 4 = 0 ∧ filterState.phase = .busy) ∧ State.reset.cfg.engineBase % 4 = 0 ∧
    State.reset.phase = .idle := by decide

/-- The last byte of the destination, the byte before it, and the byte past it. -/
theorem witness_ResetRestoresRegisters : State.reset.phase = .idle ∧
    (filterState.phase = .busy ∧ decode filterState.P.cmd = .command .firMono ∧
      (destRegion .firMono filterState.P filterState.esz).contains 0x3003 = true ∧ 0x3003 < 4294967296 ∧
      (destRegion .firMono filterState.P filterState.esz).contains 0x3000 = true ∧
      (destRegion .firMono filterState.P filterState.esz).contains 0x2FFF = false ∧
      (destRegion .firMono filterState.P filterState.esz).contains 0x3004 = false) ∧
    illegalState.phase = .busy ∧ decode illegalState.P.cmd = .illegal .reservedOpcode := by decide

theorem witness_StepKeepsInvariant : EngineInv illegalState ∧
    step illegalState = .next (completeErr illegalState .illegalOp 0) := ⟨witness_inv_busy.1, rfl⟩

theorem witness_BusyEngineCompletes : filterState.phase = .busy ∧ filterState.agenda = [] := by decide

theorem witness_NothingElseEndsACommand : filterState.phase = .busy ∧
    step filterState = .next (completeFir .firMono filterState) ∧ (completeFir .firMono filterState).phase = .idle :=
  ⟨rfl, by rfl, by decide⟩

theorem witness_OnlyStartLeavesIdle : State.reset.phase = .idle ∧ State.reset.agenda = [] ∧
    after (step (State.reset.thenWrites .ctrl 0x1#32)) (fun t => t.phase = .busy) = true := by decide

theorem witness_ParametersNeverChange : step State.reset = .next State.reset := rfl

/-- Both element sizes, and the edges of the address space and of the overlap check. -/
theorem witness_StaticChecksInOrder : (2 = 2 ∨ 2 = 4) ∧ (4 = 2 ∨ 4 = 4) ∧
    staticCheck .firMono { filterState.P with dstAddr := 0xFFFFFFFC#32 } 2 = none ∧
    staticCheck .firMono { filterState.P with dstAddr := 0xFFFFFFFE#32 } 2 = some .range ∧
    staticCheck .firMono { filterState.P with dstAddr := 0x100A#32 } 2 = none ∧
    staticCheck .firMono { filterState.P with dstAddr := 0x1008#32 } 2 = some .overlap ∧
    staticCheck (.corrSearch 1 .fresh) { filterState.P with count := 0#32 } 2 = some .badSeek := by decide

/-- V-E4 and V-E5b. -/
theorem witness_StaticErrorCompletes :
    staticCheck .firMono (busyWith fixedCfg [] 0x1#32 6#32 3#32 0#6).P 2 = some .badLength ∧
    staticCheck (.corrSearch 1 .incremental) (busyWith fixedCfg [] 0x14#32 0#32 3#32 0#6).P 2 = some .badOvl := by decide

/-- V-F13: N = L. -/
theorem witness_FirWithNothingToDo : Instr.firMono.isFir = true ∧
    staticCheck .firMono (busyWith fixedCfg [] 0x1#32 4#32 4#32 0#6).P 2 = none ∧
    (busyWith fixedCfg [] 0x1#32 4#32 4#32 0#6).P.count.toNat ≤ (busyWith fixedCfg [] 0x1#32 4#32 4#32 0#6).P.len.toNat := by
  decide

theorem filterState_fits : FirFits filterState 1 := by
  have h : ∀ j < 2, ∀ ch < 1, accFits .w32 (firSum filterState 1 j ch) = true := by decide
  exact fun j ch hj hc => h j hj ch hc

theorem witness_FirFixedWritesOutputs : Instr.firMono.isFir = true ∧ filterState.cfg.sampleMode = .fixed ∧
    staticCheck .firMono filterState.P filterState.esz = none ∧
    filterState.P.len.toNat < filterState.P.count.toNat ∧ FirReadable filterState 1 ∧ FirWritable filterState 1 ∧
    FirFits filterState 1 :=
  ⟨rfl, rfl, by decide, by decide, ⟨fun _ _ => memOk_noHoles rfl _ _ _, fun _ _ _ _ _ _ => memOk_noHoles rfl _ _ _⟩,
    fun _ _ => memOk_noHoles rfl _ _ _, filterState_fits⟩

theorem witness_FirFloatWritesOutputs : Instr.firMono.isFir = true ∧ floatFilterState.cfg.sampleMode = .float ∧
    staticCheck .firMono floatFilterState.P floatFilterState.esz = none ∧
    floatFilterState.P.len.toNat < floatFilterState.P.count.toNat ∧ FirReadable floatFilterState 1 ∧
    FirWritable floatFilterState 1 :=
  ⟨rfl, rfl, by decide, by decide, ⟨fun _ _ => memOk_noHoles rfl _ _ _, fun _ _ _ _ _ _ => memOk_noHoles rfl _ _ _⟩,
    fun _ _ => memOk_noHoles rfl _ _ _⟩

/-- The ends of the accumulator's range, at the first shift of its width. -/
theorem witness_ShiftIsFloorDivision : accFits .w32 (-2147483648) = true ∧ accFits .w32 2147483647 = true ∧
    accFits .w32 2147483648 = false ∧ AccBits.w32.width ≤ 32 := by decide

theorem witness_WideAccumulatorNeverOverflows :
    (busyWith { fixedCfg with accBits := .w64 } [] 0x1#32 4#32 5#32 0#6).cfg.accBits = .w64 ∧
    floatFilterState.cfg.sampleMode = .float ∧
    exec .firMono floatFilterState = .next (completeFir .firMono floatFilterState) := ⟨rfl, rfl, rfl⟩

/-- V-E11: the write of element 1 is the first failing event. -/
def failingFilter : State :=
  busyWith { fixedCfg with busHoles := [⟨0x3002, 1, 2, .write⟩] }
    (halves 0x2000 [1, 0, 0, 0] (halves 0x1000 [10, -20, 30, -40, 50, 60] [])) 0x1#32 4#32 6#32 0#6

theorem failingFilter_find :
    (firEvents failingFilter 1).find? (fun v => v.2.fails failingFilter 1) = some (1, .access .write 0x3002) := by
  decide

theorem witness_FirReportsFirstFailingEvent : Instr.firMono.isFir = true ∧
    staticCheck .firMono (busyWith fixedCfg [] 0x1#32 6#32 3#32 0#6).P 2 = some .badLength ∧
    staticCheck .firMono failingFilter.P failingFilter.esz = none ∧
    staticCheck .firMono filterState.P filterState.esz = none ∧
    (∀ v ∈ firEvents filterState 1, v.2.fails filterState 1 = false) ∧
    (firEvents failingFilter 1).find? (fun v => v.2.fails failingFilter 1) = some (1, .access .write 0x3002) :=
  ⟨rfl, by decide, by decide, by decide, by decide, failingFilter_find⟩

/-- V-E13: compare element 1 fails. -/
def failingSearch : State :=
  busyWith { fixedCfg with busHoles := [⟨0x2002, 1, 2, .read⟩] }
    (halves 0x2000 [1, 2] (halves 0x1000 [0, 1, 2, 0] [])) 0x14#32 2#32 3#32 0#6

/-- Element 1 fails, so k = 0 lies before it; its first and the destination's last byte are 0x3002 and 0x3003, and
0x2FFF and 0x3004 lie outside. -/
theorem witness_DestinationAfterAnError : Instr.firMono.isFir = true ∧
    staticCheck .firMono failingFilter.P failingFilter.esz = none ∧
    (firEvents failingFilter 1).find? (fun v => v.2.fails failingFilter 1) = some (1, .access .write 0x3002) ∧
    exec .firMono failingFilter = .next (completeFir .firMono failingFilter) ∧ 0 < 1 ∧
    failingFilter.cfg.sampleMode = .fixed ∧
    destElem failingFilter.P failingFilter.esz 1 ≤ 0x3002 ∧ destElem failingFilter.P failingFilter.esz 1 ≤ 0x3003 ∧
    0x3003 < failingFilter.P.dstAddr.toNat +
      (failingFilter.P.count.toNat - failingFilter.P.len.toNat) * Instr.firMono.channels * failingFilter.esz ∧
    0x2FFF < failingFilter.P.dstAddr.toNat ∧
    failingFilter.P.dstAddr.toNat + (failingFilter.P.count.toNat - failingFilter.P.len.toNat) *
      Instr.firMono.channels * failingFilter.esz ≤ 0x3004 ∧
    exec (.corrSearch 1 .incremental) failingSearch = .next (completeCorr 1 .incremental failingSearch) ∧
    (completeCorr 1 .incremental failingSearch).regs.err = true :=
  ⟨rfl, by decide, failingFilter_find, rfl, by decide, rfl, by decide, by decide, by decide, by decide, by decide, rfl,
    by decide⟩

/-- V-F19 with the write at 0x3004 rejected. -/
def failingFloatFilter : State :=
  busyWith { floatCfg with busHoles := [⟨0x3004, 1, 4, .write⟩] }
    (words 0x2000 [0x3F000000#32, 0x3E800000#32, 0#32, 0#32] (words 0x1000
      [0x3F800000#32, 0x40000000#32, 0x40400000#32, 0x40800000#32, 0x40A00000#32, 0x40C00000#32] []))
    0x1#32 4#32 6#32 0#6

theorem witness_DestinationAfterAnError_float :
    staticCheck .firMono failingFloatFilter.P failingFloatFilter.esz = none ∧
    (firEvents failingFloatFilter 1).find? (fun v => v.2.fails failingFloatFilter 1) =
      some (1, .access .write 0x3004) ∧
    exec .firMono failingFloatFilter = .next (completeFir .firMono failingFloatFilter) ∧ 0 < 1 ∧
    failingFloatFilter.cfg.sampleMode = .float := ⟨by decide, by decide, rfl, by decide, rfl⟩

/-- The bytes just outside the two destination elements. -/
theorem witness_FirFrame : Instr.firMono.isFir = true ∧
    exec .firMono filterState = .next (completeFir .firMono filterState) ∧ filterState.cfg.hostCoherent = true ∧
    (∀ e < 2, inDestElem filterState e 0x2FFF = false) ∧ ∀ e < 2, inDestElem filterState e 0x3004 = false :=
  ⟨rfl, rfl, rfl, by decide, by decide⟩

theorem witness_UnusedScaleHasNoEffect : Instr.firMono.isFir = true ∧
    exec .firMono filterState = .next (completeFir .firMono filterState) ∧ filterState.cfg.sampleMode = .fixed ∧
    exec .firMono floatFilterState = .next (completeFir .firMono floatFilterState) ∧
    floatFilterState.cfg.sampleMode = .float := ⟨rfl, rfl, rfl, rfl, rfl⟩

/-- V-F1 with source element 4 changed: output 1 reads it, output 0 does not. -/
def otherTail : State :=
  busyWith fixedCfg (halves 0x2000 [1, 0, 0, 0] (halves 0x1000 [10, -20, 30, -40, 51, 60] [])) 0x1#32 4#32 6#32 0#6

/-- V-F19 with source element 4 changed. -/
def floatOtherTail : State :=
  busyWith floatCfg (words 0x2000 [0x3F000000#32, 0x3E800000#32, 0#32, 0#32] (words 0x1000
    [0x3F800000#32, 0x40000000#32, 0x40400000#32, 0x40800000#32, 0x40A00001#32, 0x40C00000#32] [])) 0x1#32 4#32 6#32 0#6

/-- Every tap of output 0 agrees in the mode of the instance, and the two runs differ past its window. -/
theorem witness_OutputDependsOnItsWindow : Instr.firMono.isFir = true ∧ otherTail.cfg = filterState.cfg ∧
    otherTail.P = filterState.P ∧ otherTail.draws = filterState.draws ∧
    exec .firMono filterState = .next (completeFir .firMono filterState) ∧
    exec .firMono otherTail = .next (completeFir .firMono otherTail) ∧
    (completeFir .firMono filterState).regs.err = false ∧ (completeFir .firMono otherTail).regs.err = false ∧
    (0 < filterState.P.count.toNat - filterState.P.len.toNat ∧ 0 < Instr.firMono.channels) ∧
    filterState.cfg.sampleMode = .fixed ∧
    (∀ k < filterState.P.len.toNat,
      otherTail.half (coefElem filterState.P 2 k) = filterState.half (coefElem filterState.P 2 k) ∧
      otherTail.half (sourceElem filterState.P 2 1 0 0 k) = filterState.half (sourceElem filterState.P 2 1 0 0 k)) ∧
    otherTail.half (sourceElem filterState.P 2 1 0 0 4) ≠ filterState.half (sourceElem filterState.P 2 1 0 0 4) ∧
    inDestElem filterState 0 0x3001 = true :=
  ⟨rfl, rfl, rfl, rfl, rfl, rfl, by decide, by decide, by decide, rfl, by decide, by decide, by decide⟩

theorem witness_OutputDependsOnItsWindow_float : floatOtherTail.cfg = floatFilterState.cfg ∧
    floatOtherTail.P = floatFilterState.P ∧ floatOtherTail.draws = floatFilterState.draws ∧
    exec .firMono floatFilterState = .next (completeFir .firMono floatFilterState) ∧
    exec .firMono floatOtherTail = .next (completeFir .firMono floatOtherTail) ∧
    (completeFir .firMono floatFilterState).regs.err = false ∧
    (completeFir .firMono floatOtherTail).regs.err = false ∧
    0 < floatFilterState.P.count.toNat - floatFilterState.P.len.toNat ∧ floatFilterState.cfg.sampleMode = .float ∧
    (∀ k < floatFilterState.P.len.toNat,
      floatOtherTail.word (coefElem floatFilterState.P 4 k) = floatFilterState.word (coefElem floatFilterState.P 4 k) ∧
      floatOtherTail.word (sourceElem floatFilterState.P 4 1 0 0 k) =
        floatFilterState.word (sourceElem floatFilterState.P 4 1 0 0 k)) ∧
    inDestElem floatFilterState 0 0x3003 = true :=
  ⟨rfl, rfl, rfl, rfl, rfl, by decide, by decide, by decide, rfl, by decide, by decide⟩

/-- V-F1 with frame N-1 changed, which lies outside every region the command reads. -/
def otherRest : State :=
  busyWith fixedCfg (halves 0x2000 [1, 0, 0, 0] (halves 0x1000 [10, -20, 30, -40, 50, 61] [])) 0x1#32 4#32 6#32 0#6

theorem otherRest_agrees : ∀ r ∈ readRegions .firMono filterState.P filterState.esz, ∀ a, r.contains a = true →
    Memory.byteAt otherRest.m0.mem a = Memory.byteAt filterState.m0.mem a := by
  have hs : ∀ k < 10, Memory.byteAt otherRest.m0.mem (0x1000 + k) = Memory.byteAt filterState.m0.mem (0x1000 + k) := by
    decide
  have hc : ∀ k < 8, Memory.byteAt otherRest.m0.mem (0x2000 + k) = Memory.byteAt filterState.m0.mem (0x2000 + k) := by
    decide
  have hr : readRegions .firMono filterState.P filterState.esz = [⟨0x1000, 10⟩, ⟨0x2000, 8⟩] := by decide
  intro r hm a ha
  rw [hr, List.mem_cons, List.mem_singleton] at hm
  rcases hm with rfl | rfl <;> simp only [Region.contains, inRange, Bool.and_eq_true, decide_eq_true_eq] at ha
  · have h := hs (a - 0x1000) (by omega)
    rwa [Nat.add_sub_cancel' ha.1] at h
  · have h := hc (a - 0x2000) (by omega)
    rwa [Nat.add_sub_cancel' ha.1] at h

theorem witness_CommandDependsOnlyOnItsRegions : otherRest.cfg = filterState.cfg ∧ otherRest.P = filterState.P ∧
    otherRest.draws = filterState.draws ∧ filterState.cfg.hostCoherent = true ∧
    (∀ r ∈ readRegions .firMono filterState.P filterState.esz, ∀ a, r.contains a = true →
      Memory.byteAt otherRest.m0.mem a = Memory.byteAt filterState.m0.mem a) ∧
    exec .firMono filterState = .next (completeFir .firMono filterState) ∧
    exec .firMono otherRest = .next (completeFir .firMono otherRest) ∧
    staticCheck .firMono filterState.P filterState.esz = none ∧
    (destRegion .firMono filterState.P filterState.esz).contains 0x3003 = true :=
  ⟨rfl, rfl, rfl, rfl, otherRest_agrees, rfl, rfl, by decide, by decide⟩

/-- A tie in binary32: 2^24 + 1 lies halfway between 2^24 and 2^24 + 2, and goes to 2^24, whose pattern is even. -/
theorem witness_RoundingIsNearestTiesToEven : (binary32 = binary32 ∨ binary32 = binary64) ∧
    fpRound binary32 false 16777217 0 = .fin false 1 24 ∧ fpFits binary32 (.fin false 8388609 1) = true := by decide

/-- 1 + (-1), 1 - 1, and -0 times 3. -/
theorem witness_SumsAndProductsRoundOnce : fpRat (.fin false 1 0) + fpRat (.fin true 1 0) = 0 ∧
    fpRat (.fin false 1 0) - fpRat (.fin false 1 0) = 0 ∧ 0 * 3 = 0 := by
  norm_num [fpRat]

/-- 1 / 3, whose quotient is finite; 2^1023 / 2^-1, whose quotient overflows; 1 / 0; the root of 2. -/
theorem witness_QuotientsAndRootsAreNearest : 3 ≠ 0 ∧
    ¬ (2 - (2 : ℚ) ^ (-53 : ℤ)) * 2 ^ (1023 : ℤ) * |fpRat (.fin false 3 0)| ≤ |fpRat (.fin false 1 0)| ∧
    (2 - (2 : ℚ) ^ (-53 : ℤ)) * 2 ^ (1023 : ℤ) * |fpRat (.fin false 1 (-1))| ≤ |fpRat (.fin false 1 1023)| ∧
    (1 ≠ 0 ∧ fpFits binary64 (.fin false 1 1) = true) ∧ fpFits binary64 (.fin true 1 (-1074)) = true := by
  have h : (1 : ℚ) ≤ 2 ^ (1023 : ℤ) := one_le_zpow₀ (by norm_num) (by norm_num)
  simp only [fpRat]
  generalize (2 : ℚ) ^ (1023 : ℤ) = x at h ⊢
  have hx : |x| = x := abs_of_nonneg (by linarith)
  refine ⟨by decide, ?_, ?_, by decide, by decide⟩
  · norm_num
    linarith
  · norm_num [hx]
    linarith

/-- The special operands of R8: 1 / -0, 0 / 0, the roots of -0 and -1. -/
theorem test_quotients_and_roots : div64 fpOne (.fin true 0 0) = .inf true ∧
    div64 (.fin false 0 0) (.fin false 0 0) = .nan ∧ sqrt64 (.fin true 0 0) = .fin true 0 0 ∧
    sqrt64 (.fin true 1 0) = .nan := by decide

/-- The least and the greatest finite binary32 magnitudes. -/
theorem witness_ProductsOfSinglesAreExact : fp32 0x00000001#32 = .fin false 1 (-149) ∧
    fp32 0xFF7FFFFF#32 = .fin true 16777215 104 := by decide

/-- Words of both ends of the exponent's three ranges, and of both kinds of the last. -/
theorem witness_StoredFloatsReadBack_fields : (0x00000001#32).toNat / 2 ^ 23 % 256 = 0 ∧
    (0x007FFFFF#32).toNat / 2 ^ 23 % 256 = 0 ∧ (0x00800000#32).toNat / 2 ^ 23 % 256 = 1 ∧
    (0xFF7FFFFF#32).toNat / 2 ^ 23 % 256 = 254 ∧ (0xFF800000#32).toNat / 2 ^ 23 % 256 = 255 ∧
    (0xFF800000#32).toNat % 2 ^ 23 = 0 ∧ (0x7F800001#32).toNat % 2 ^ 23 ≠ 0 := by decide

theorem witness_StoredFloatsReadBack : fp32 0x80000000#32 ≠ .nan ∧ fp32 0x7F800000#32 ≠ .nan ∧
    fp32 0x7F800001#32 = .nan := by decide

/-- The two zero and the two infinite dividers and a NaN; a number that is not 0; the power of two just past binary32; the
subnormals 0x00000001, 0x00000002 and 0x007FFFFF, and the greatest finite value. -/
theorem witness_SpecialValuesFollowIeee : ({ Params.reset with divider := 0#32 } : Params).divider = 0x00000000#32 ∧
    ({ Params.reset with divider := 0x80000000#32 } : Params).divider = 0x80000000#32 ∧
    ({ Params.reset with divider := 0x7F800000#32 } : Params).divider = 0x7F800000#32 ∧
    ({ Params.reset with divider := 0xFF800000#32 } : Params).divider = 0xFF800000#32 ∧
    fp32 ({ Params.reset with divider := 0xFFC00000#32 } : Params).divider = .nan ∧ 1 ≠ 0 ∧
    (2 : ℚ) ^ (128 : ℤ) ≤ ((1 : ℕ) : ℚ) * 2 ^ (128 : ℤ) ∧ fpFits binary32 (.fin false 1 (-149)) = true ∧
    fpFits binary32 (.fin false 1 (-148)) = true ∧ fpFits binary32 (.fin false 8388607 (-149)) = true ∧
    fpFits binary32 (.fin true 16777215 104) = true :=
  ⟨rfl, rfl, rfl, rfl, by decide, by decide, by norm_num, by decide, by decide, by decide, by decide⟩

/-- V-F15a: 1.0 * 1.0 times the reciprocal of +0, stored as +infinity. -/
theorem test_firMono_zeroDivider :
    after (step (busyWith floatCfg (words 0x2000 [0x3F800000#32, 0#32, 0#32, 0#32]
      (words 0x1000 [0x3F800000#32, 0#32, 0#32, 0#32, 0#32] [])) 0x1#32 4#32 5#32 0#6 |> fun s =>
        { s with P := { s.P with divider := 0#32 } }))
      (fun t => t.statusWord = 0x2#32 && outs32 t 1 = [0x7F800000#32]) = true := by decide

theorem searchState_readable : CorrReadable searchState 1 :=
  fun _ _ _ _ => ⟨memOk_noHoles rfl _ _ _, memOk_noHoles rfl _ _ _⟩

theorem witness_CorrSearchFindsBestOffset :
    staticCheck (.corrSearch 1 .incremental) searchState.P searchState.esz = none ∧ CorrReadable searchState 1 :=
  ⟨by decide, searchState_readable⟩

/-- A search whose reference holds one NaN, at element 0 (then only offset 0 has a NaN score) or at element 1. -/
def nanSearch (a b : Word) : State :=
  busyWith floatCfg (words 0x2000 [0x3F800000#32] (words 0x1000 [a, b] [])) 0x114#32 1#32 2#32 0#6

theorem witness_CorrWinnerIsStrictlyBest :
    (staticCheck (.corrSearch 1 .incremental) searchState.P searchState.esz = none ∧ CorrReadable searchState 1 ∧
      ∀ i < 3, corrScoreAt searchState 1 .incremental i ≠ .nan) ∧
    (staticCheck (.corrSearch 1 .fresh) (nanSearch 0x7FC00000#32 0x3F800000#32).P 4 = none ∧
      CorrReadable (nanSearch 0x7FC00000#32 0x3F800000#32) 1 ∧
      corrScoreAt (nanSearch 0x7FC00000#32 0x3F800000#32) 1 .fresh 0 = .nan) ∧
    (staticCheck (.corrSearch 1 .fresh) (nanSearch 0x3F800000#32 0x7FC00000#32).P 4 = none ∧
      CorrReadable (nanSearch 0x3F800000#32 0x7FC00000#32) 1 ∧
      corrScoreAt (nanSearch 0x3F800000#32 0x7FC00000#32) 1 .fresh 0 ≠ .nan ∧
      corrScoreAt (nanSearch 0x3F800000#32 0x7FC00000#32) 1 .fresh 1 = .nan) :=
  ⟨⟨by decide, searchState_readable, by decide⟩,
    ⟨by decide, fun _ _ _ _ => ⟨memOk_noHoles rfl _ _ _, memOk_noHoles rfl _ _ _⟩, by decide⟩,
    ⟨by decide, fun _ _ _ _ => ⟨memOk_noHoles rfl _ _ _, memOk_noHoles rfl _ _ _⟩, by decide, by decide⟩⟩

theorem witness_FixedModeNormalizersAgree : searchState.cfg.sampleMode = .fixed := rfl

/-- V-C8. -/
theorem witness_SeekLengthOneAnswersZero :
    staticCheck (.corrSearch 1 .fresh) (busyWith floatCfg [] 0x114#32 1#32 1#32 0#6).P 4 = none ∧
    (busyWith floatCfg [] 0x114#32 1#32 1#32 0#6).P.count = 1#32 ∧
    ∀ k, k < 1 * (busyWith floatCfg [] 0x114#32 1#32 1#32 0#6).P.len.toNat →
      memOk floatCfg (0x1000 + k * 4) 4 .read = true ∧ memOk floatCfg (0x2000 + k * 4) 4 .read = true :=
  ⟨by decide, rfl, fun _ _ => ⟨memOk_noHoles rfl _ _ _, memOk_noHoles rfl _ _ _⟩⟩

/-- The least and the greatest seek length. -/
theorem witness_WeightFormulaAtOffsetZero : (1 ≤ 1 ∧ 1 < 2 ^ 32) ∧ 1 ≤ 4294967295 ∧ 4294967295 < 2 ^ 32 := by decide

/-- EPS itself is not below EPS; zero and a negative normalizer are. -/
theorem witness_NearZeroNormalizerIsFloored : lt64 (.fin false 0 0) fpEps = true ∧ lt64 (.fin true 1 0) fpEps = true ∧
    lt64 fpEps fpEps = false := by decide

theorem witness_CorrReportsFirstFailingRead :
    staticCheck (.corrSearch 1 .incremental) failingSearch.P failingSearch.esz = none ∧
    (corrAccesses failingSearch 1).find? (fun a => !memOk failingSearch.cfg a failingSearch.esz .read) = some 0x2002 ∧
    staticCheck (.corrSearch 1 .incremental) searchState.P searchState.esz = none ∧
    ∀ a ∈ corrAccesses searchState 1, memOk searchState.cfg a searchState.esz .read = true := by decide

theorem witness_CorrFrame :
    exec (.corrSearch 1 .incremental) searchState = .next (completeCorr 1 .incremental searchState) := rfl

/-- The last byte of the destination is refused; the byte past it, and the last byte of the data space, are not. -/
theorem witness_HostWritesStoreOrAreRefused : filterState.phase = .busy ∧
    decode filterState.P.cmd = .command .firMono ∧
    (0x3003 + [0xAA#8].length ≤ 4294967296 ∧
      Region.meets ⟨0x3003, [0xAA#8].length⟩ (destRegion .firMono filterState.P filterState.esz) = true) ∧
    (0x3004 + [0xAA#8].length ≤ 4294967296 ∧
      ∀ r ∈ destRegion .firMono filterState.P filterState.esz :: readRegions .firMono filterState.P filterState.esz,
        Region.meets ⟨0x3004, [0xAA#8].length⟩ r = false) ∧
    4294967295 + [0xAA#8].length ≤ 4294967296 ∧
    ∀ r ∈ destRegion .firMono filterState.P filterState.esz :: readRegions .firMono filterState.P filterState.esz,
      Region.meets ⟨4294967295, [0xAA#8].length⟩ r = false := by decide

theorem witness_HostReadsOfTheDestinationAreFree : 0x3003 + 2 ≤ 4294967296 ∧ filterState.cfg.hostCoherent = true ∧
    filterState.phase = .busy ∧ decode filterState.P.cmd = .command .firMono ∧
    (destRegion .firMono filterState.P filterState.esz).contains (0x3003 + 0) = true ∧
    (destRegion .firMono filterState.P filterState.esz).contains (0x3003 + 1) = false := by decide

/-- A non-coherent platform, IDLE, whose engine has written 0x3000 to 0x3003. -/
def staleState : State :=
  { State.resetWith { fixedCfg with hostCoherent := false } with
    cache := [{ kind := .engineWrote, base := 0x3000, size := 4 }] }

/-- V-F1 on a non-coherent platform, nothing cleaned. -/
def uncleanedFilter : State :=
  busyWith { fixedCfg with hostCoherent := false }
    (halves 0x2000 [1, 0, 0, 0] (halves 0x1000 [10, -20, 30, -40, 50, 60] [])) 0x1#32 4#32 6#32 0#6

/-- Uncleaned elements of both sizes, at their last byte; ranges of one element of each size; a host write; a FIR command
with outputs, whose destination ends at 0x3003; and the same cut short by a reset. -/
theorem witness_SkippedCacheMaintenanceGivesFreeData : staleState.cfg.hostCoherent = false ∧
    isCleaned staleState.m0.marks (0x1000 + 1) = false ∧ isCleaned staleState.m0.marks (0x1000 + 3) = false ∧
    (0x1000 ≤ 0x1000 ∧ 0x1000 + 2 ≤ 0x1000 + 2 ∧ 0x1000 + 4 ≤ 0x1000 + 4) ∧
    after (step (staleState.thenDoes (.memWrite 0x3003 [0xAA#8]))) (fun _ => true) = true ∧
    (0x3003 ≤ 0x3003 ∧ 0x3003 < 0x3003 + [0xAA#8].length) ∧
    (staleState.phase = .idle ∧ isStale staleState.cache 0x3003 = true) ∧ 0x3000 ≤ 0x3003 ∧ 0x3003 < 0x3000 + 4 := by
  decide

theorem witness_SkippedCacheMaintenanceGivesFreeData_fir : uncleanedFilter.cfg.hostCoherent = false ∧
    Instr.firMono.isFir = true ∧ staticCheck .firMono uncleanedFilter.P uncleanedFilter.esz = none ∧
    uncleanedFilter.P.len.toNat < uncleanedFilter.P.count.toNat ∧
    exec .firMono uncleanedFilter = .next (completeFir .firMono uncleanedFilter) ∧
    (uncleanedFilter.phase = .busy ∧ decode uncleanedFilter.P.cmd = .command .firMono) ∧
    (destRegion .firMono uncleanedFilter.P uncleanedFilter.esz).contains 0x3000 = true ∧
    (destRegion .firMono uncleanedFilter.P uncleanedFilter.esz).contains 0x3003 = true :=
  ⟨rfl, rfl, by decide, by decide, rfl, by decide, by decide, by decide⟩

/-- Elements that end at the last byte of the data space. -/
theorem witness_ScriptMemoryWritesStoreElements : State.reset.phase = .idle ∧
    4294967292 + 2 * [0x1234#16, 0x8000#16].length ≤ 4294967296 ∧
    4294967292 + 4 * [0x3F800000#32].length ≤ 4294967296 := by decide

/-- A script that stands at its statement 1, before an idle machine. -/
def scriptAtOne : ScriptRun := { ScriptRun.start State.reset with host := { pc := 1, vars := [("n", 2)] } }

theorem witness_PseudoInstructionsTakeEffect : scriptAtOne.host.pc = [Stmt.label "a"].length ∧
    scriptAtOne.pending = [] ∧ scriptAtOne.machine.cfg.engineBase % 4 = 0 ∧
    Stmt.label "w" ∉ [Stmt.label "a"] ∧ "s" ≠ "d" ∧ scriptAtOne.machine.phase = .idle ∧
    (pseudoRun .firMono [(.len, .lit 4), (.shift, .var "n")] "w" "s" "d").isSome = true ∧
    scriptAtOne.machine.regs.done = false := by
  decide

/-- `bnz` goes to its label while its variable is not 0, and past itself when it is 0 (30_encoding.md R100). -/
theorem test_script_bnz :
    (HostState.after { pc := 2, vars := [("n", 2)] } [.label "a", .label "b", .bnz "n" "b"] 0 (.bnz "n" "b")).pc = 1 ∧
    (HostState.after { pc := 2, vars := [("n", 0)] } [.label "a", .label "b", .bnz "n" "b"] 0 (.bnz "n" "b")).pc = 3 := by
  decide

/-- A pending event that keeps the duties, and one that does not. -/
theorem witness_OnlyBrokenDutiesStopTheMachine : State.reset.agenda = [] ∧
    ({ filterState with agenda := [.memWrite 0x3004 [0xAA#8]] } : State).agenda = .memWrite 0x3004 [0xAA#8] :: [] ∧
    Event.keepsDuties filterState (.memWrite 0x3004 [0xAA#8]) = true ∧
    Event.keepsDuties filterState (.memWrite 0x3003 [0xAA#8]) = false := by decide

end Sys2Proof.Tests
end

section
/-! PROOFS. The register block seen from the host: offsets, reserved offsets and ID (10_state.md R20, R21, R34). -/

namespace Sys2Proof.Machine

/-! ### Accesses by offset -/

@[simp] theorem readOffset_offset (s : State) (r : Reg) : readOffset s r.offset = readRegister s r := by
  simp only [readOffset, ofOffset_offset]

@[simp] theorem writeOffset_offset (s : State) (r : Reg) (v : Word) :
    writeOffset s r.offset v = writeRegister s v r := by
  simp only [writeOffset, ofOffset_offset]

theorem readOffset_reserved (s : State) {off : Nat} (h : 0x34 ≤ off) : readOffset s off = 0#32 := by
  simp only [readOffset, ofOffset_reserved h]

theorem writeOffset_reserved (s : State) {off : Nat} (v : Word) (h : 0x34 ≤ off) : writeOffset s off v = s := by
  simp only [writeOffset, ofOffset_reserved h]

/-- Settles O11: no register answers at an offset past ERR_ADDR. -/
theorem reservedOffsetsReadZero : Obligations.ReservedOffsetsReadZero :=
  fun s _ v hlow _ => ⟨readOffset_reserved s hlow, writeOffset_reserved s v hlow⟩

/-! ### The value of ID -/

/-- The three legal values of ID, each with the parameters it stands for. In FLOAT mode ACC64 reads 0 at either
accumulator width. -/
theorem idWord_cases (c : Config) :
    (c.sampleMode = .fixed ∧ c.accBits = .w32 ∧ idWord c = 0xF1C50001#32) ∨
    (c.sampleMode = .fixed ∧ c.accBits = .w64 ∧ idWord c = 0xF1C50201#32) ∨
    (c.sampleMode = .float ∧ idWord c = 0xF1C50101#32) := by
  unfold idWord
  cases c.sampleMode with
  | fixed =>
    cases c.accBits with
    | w32 => exact .inl ⟨rfl, rfl, rfl⟩
    | w64 => exact .inr (.inl ⟨rfl, rfl, rfl⟩)
  | float => cases c.accBits <;> exact .inr (.inr ⟨rfl, rfl⟩)

theorem idWord_ident (c : Config) : (idWord c).extractLsb' 16 16 = 0xF1C5#16 := by
  obtain ⟨-, -, h⟩ | ⟨-, -, h⟩ | ⟨-, h⟩ := idWord_cases c <;> rw [h] <;> decide

theorem idWord_reserved (c : Config) : (idWord c).extractLsb' 10 6 = 0#6 := by
  obtain ⟨-, -, h⟩ | ⟨-, -, h⟩ | ⟨-, h⟩ := idWord_cases c <;> rw [h] <;> decide

theorem idWord_version (c : Config) : (idWord c).extractLsb' 0 8 = 0x01#8 := by
  obtain ⟨-, -, h⟩ | ⟨-, -, h⟩ | ⟨-, h⟩ := idWord_cases c <;> rw [h] <;> decide

theorem idWord_acc64 (c : Config) :
    (idWord c).getLsbD 9 = true ↔ c.sampleMode = .fixed ∧ c.accBits = .w64 := by
  obtain ⟨hm, ha, h⟩ | ⟨hm, ha, h⟩ | ⟨hm, h⟩ := idWord_cases c
  · simp [h, ha]
  · simp [h, hm, ha]
  · simp [h, hm]

theorem idWord_mode (c : Config) : (idWord c).getLsbD 8 = true ↔ c.sampleMode = .float := by
  obtain ⟨hm, -, h⟩ | ⟨hm, -, h⟩ | ⟨hm, h⟩ := idWord_cases c <;> simp [h, hm]

theorem readRegister_id (s : State) : readRegister s .id = idWord s.cfg := rfl

/-! ### What keeps ID -/

/-- The event put in front of the agenda is what the next step does. -/
theorem step_thenDoes (s : State) (e : Event) : step (s.thenDoes e) = runEvent e s := step_cons rfl

theorem writeOffset_id (s : State) (v : Word) : writeOffset s Reg.id.offset v = s := writeOffset_offset s .id v

/-- ID is a function of the parameters alone, so whatever keeps them keeps it. -/
theorem readRegister_id_congr {s t : State} (h : t.cfg = s.cfg) : readRegister t .id = readRegister s .id :=
  congrArg idWord h

/-- Settles O12: the fields and values are those of `idWord`; no write reaches ID, and reset keeps the parameters. -/
theorem idHasThreeValues : Obligations.IdHasThreeValues := by
  intro s
  refine ⟨idWord_ident _, idWord_reserved _, idWord_acc64 _, idWord_mode _, idWord_version _, ?_, writeOffset_id s,
    platformReset s, step_thenDoes s .reset, readRegister_id_congr (platformReset_cfg s)⟩
  obtain ⟨hm, ha, h⟩ | ⟨hm, ha, h⟩ | ⟨hm, h⟩ := idWord_cases s.cfg
  · simpa only [readRegister_id, hm, ha] using h
  · simpa only [readRegister_id, hm, ha] using h
  · simpa only [readRegister_id, hm] using h

end Sys2Proof.Machine
end

section
/-! PROOFS. The command word: its fields as numbers, the decoder's verdict by fields, decode of encode, and the
assembler's words (30_encoding.md R90 to R95, R101). -/

namespace Sys2Proof

/-! ### The fields as numbers -/

theorem opField_eq (w : Word) : opField w = w.toNat % 16 := by simp [opField]

theorem chField_eq (w : Word) : chField w = w.toNat / 16 % 16 := by simp [chField, Nat.shiftRight_eq_div_pow]

theorem rsvField_eq (w : Word) : rsvField w = w.toNat / 512 := by
  have hw := w.isLt
  simp only [rsvField, BitVec.extractLsb'_toNat, Nat.shiftRight_eq_div_pow]
  omega

theorem nmField_eq (w : Word) : nmField w = decide (w.toNat / 256 % 2 = 1) := by
  simp only [nmField, BitVec.getLsbD, Nat.testBit_eq_decide_div_mod_eq]

/-! ### The decoder by fields -/

section
variable {w : Word} {i : Instr}

theorem decode_reservedBits (hr : rsvField w ≠ 0) : decode w = .illegal .reservedBits := by simp [decode, hr]

theorem decode_of_opField_one (hr : rsvField w = 0) (ho : opField w = 1) :
    decode w = decodeFixedChannels w .firMono := by simp [decode, hr, ho]

theorem decode_of_opField_two (hr : rsvField w = 0) (ho : opField w = 2) :
    decode w = decodeFixedChannels w .firStereo := by simp [decode, hr, ho]

theorem decode_of_opField_three (hr : rsvField w = 0) (ho : opField w = 3) :
    decode w = if nmField w then .illegal .normField else .command (.firMulti (chField w)) := by
  simp [decode, hr, ho]

theorem decode_of_opField_four (hr : rsvField w = 0) (ho : opField w = 4) :
    decode w = .command (.corrSearch (chField w) (normModeOf (nmField w))) := by simp [decode, hr, ho]

theorem decode_reservedOpcode (hr : rsvField w = 0) (ho : opField w = 0 ∨ 5 ≤ opField w) :
    decode w = .illegal .reservedOpcode := by
  unfold decode
  rw [if_neg (not_not.2 hr)]
  split
  case h_5 => rfl
  all_goals omega

theorem decodeFixedChannels_illegal_iff :
    (∃ why, decodeFixedChannels w i = .illegal why) ↔ chField w ≠ 0 ∨ nmField w = true := by
  unfold decodeFixedChannels
  split
  · simp [*]
  · split <;> simp [*]

/-- The four kinds of 30_encoding.md R95, and no others. -/
theorem decode_illegal_iff : (∃ why, decode w = .illegal why) ↔
    (opField w = 0 ∨ 5 ≤ opField w) ∨ rsvField w ≠ 0 ∨ (chField w ≠ 0 ∧ (opField w = 1 ∨ opField w = 2)) ∨
    (nmField w = true ∧ (opField w = 1 ∨ opField w = 2 ∨ opField w = 3)) := by
  by_cases hr : rsvField w = 0
  · obtain ho | ho | ho | ho | ho :
        (opField w = 0 ∨ 5 ≤ opField w) ∨ opField w = 1 ∨ opField w = 2 ∨ opField w = 3 ∨ opField w = 4 := by omega
    · exact iff_of_true ⟨_, decode_reservedOpcode hr ho⟩ (.inl ho)
    · rw [decode_of_opField_one hr ho, decodeFixedChannels_illegal_iff]
      simp [hr, ho]
    · rw [decode_of_opField_two hr ho, decodeFixedChannels_illegal_iff]
      simp [hr, ho]
    · rw [decode_of_opField_three hr ho]
      cases nmField w <;> simp [hr, ho]
    · rw [decode_of_opField_four hr ho]
      simp [hr, ho]
  · exact iff_of_true ⟨_, decode_reservedBits hr⟩ (.inr (.inl hr))

end

/-! ### The encoder -/

theorem encode_firMulti_toNat {ch : Nat} (h : ch < 16) : (encode (.firMulti ch)).toNat = ch * 16 + 3 := by
  simp only [encode, BitVec.toNat_ofNat]
  omega

theorem NormMode.bit_lt (nm : NormMode) : nm.bit < 2 := by cases nm <;> decide

theorem normModeOf_bit (nm : NormMode) : normModeOf (decide (nm.bit = 1)) = nm := by cases nm <;> rfl

theorem encode_corrSearch_toNat {ch : Nat} (nm : NormMode) (h : ch < 16) :
    (encode (.corrSearch ch nm)).toNat = nm.bit * 256 + ch * 16 + 4 := by
  have := nm.bit_lt
  simp only [encode, BitVec.toNat_ofNat]
  omega

/-- The decoder reads every well-formed command back from its command word: each field of the word is the command's. -/
theorem decode_encode {i : Instr} (h : i.wellFormed = true) : decode (encode i) = .command i := by
  cases i with
  | firMono => decide
  | firStereo => decide
  | firMulti ch =>
    have hc : ch < 16 := of_decide_eq_true h
    have hw := encode_firMulti_toNat hc
    have hch : chField (encode (.firMulti ch)) = ch := by rw [chField_eq]; omega
    have hnm : nmField (encode (.firMulti ch)) = false := by rw [nmField_eq, decide_eq_false_iff_not]; omega
    rw [decode_of_opField_three (by rw [rsvField_eq]; omega) (by rw [opField_eq]; omega), hch, hnm]
    rfl
  | corrSearch ch nm =>
    have hc : ch < 16 := of_decide_eq_true h
    have hb := nm.bit_lt
    have hw := encode_corrSearch_toNat nm hc
    have hch : chField (encode (.corrSearch ch nm)) = ch := by rw [chField_eq]; omega
    have hnm : nmField (encode (.corrSearch ch nm)) = decide (nm.bit = 1) := by
      rw [nmField_eq, decide_eq_decide]; omega
    rw [decode_of_opField_four (by rw [rsvField_eq]; omega) (by rw [opField_eq]; omega), hch, hnm, normModeOf_bit]

/-! ### The assembler's channel counts -/

theorem assemblable_iff (i : Instr) : i.assemblable = true ↔ 1 ≤ i.channels ∧ i.channels ≤ 15 := by
  simp [Instr.assemblable]

theorem wellFormed_of_assemblable {i : Instr} (h : i.assemblable = true) : i.wellFormed = true := by
  have hc := ((assemblable_iff i).1 h).2
  cases i with
  | firMono => rfl
  | firStereo => rfl
  | firMulti ch => exact decide_eq_true (Nat.lt_succ_of_le hc)
  | corrSearch ch nm => exact decide_eq_true (Nat.lt_succ_of_le hc)

end Sys2Proof

namespace Sys2Proof.Machine

/-! ### Running an illegal word -/

/-- Static check 1: a BUSY engine whose latched word is illegal ends with ILLEGAL_OP (40_control.md R128). -/
theorem engineTurn_illegal {s : State} {why : Illegal} (hp : s.phase = .busy) (hd : decode s.P.cmd = .illegal why) :
    engineTurn s = .next (completeErr s .illegalOp 0) := by
  simp only [engineTurn, hp, hd]

/-- Settles O3: the verdict by fields with each field as a number, and the engine's turn at an illegal word. -/
theorem reservedWordsEndInIllegalOp : Obligations.ReservedWordsEndInIllegalOp := by
  refine ⟨fun w => ?_, fun s why hp hd => ?_⟩
  · have hnm : nmField w = true ↔ w.toNat / 256 % 2 ≠ 0 := by rw [nmField_eq, decide_eq_true_iff]; omega
    rw [decode_illegal_iff, hnm, opField_eq, chField_eq, rsvField_eq]
  · exact ⟨_, (step_thenDoes s .engine).trans (engineTurn_illegal hp hd), completeErr_failed .., completeErr_mem ..,
      completeErr_keepsRest ..⟩

/-! ### The assembler -/

theorem assemble_of_assemblable {i : Instr} (h : i.assemblable = true) : assemble i = some (encode i) := if_pos h

theorem assemble_eq_some_iff {i : Instr} {w : Word} : assemble i = some w ↔ i.assemblable = true ∧ encode i = w := by
  simp [assemble]

theorem assemble_eq_none_iff {i : Instr} : assemble i = none ↔ i.channels = 0 ∨ 15 < i.channels := by
  have hi := assemblable_iff i
  simp only [assemble, ite_eq_right_iff, reduceCtorEq, imp_false, hi]
  omega

theorem encode_firMulti_fields : ∀ c < 16, encode (.firMulti c) = BitVec.ofNat 32 c <<< 4 ||| 0x3#32 := by decide

theorem encode_corrSearch_incremental_fields :
    ∀ c < 16, encode (.corrSearch c .incremental) = BitVec.ofNat 32 c <<< 4 ||| 0x4#32 := by decide

theorem encode_corrSearch_fresh_fields :
    ∀ c < 16, encode (.corrSearch c .fresh) = 0x100#32 ||| BitVec.ofNat 32 c <<< 4 ||| 0x4#32 := by decide

/-- Settles O5: the assembler answers the encoder's word for C from 1 to 15 and nothing else, and such a word decodes. -/
theorem assemblerWords : Obligations.AssemblerWords := by
  refine ⟨rfl, rfl, fun c h1 h15 => ?_, fun c nm hc => ?_, fun i w hw => ?_⟩
  · have hc : c < 16 := Nat.lt_succ_of_le h15
    have assembled (i : Instr) (hi : i.channels = c) : assemble i = some (encode i) :=
      assemble_of_assemblable ((assemblable_iff i).2 (hi ▸ ⟨h1, h15⟩))
    rw [assembled (.firMulti c) rfl, assembled (.corrSearch c .incremental) rfl, assembled (.corrSearch c .fresh) rfl,
      encode_firMulti_fields c hc, encode_corrSearch_incremental_fields c hc, encode_corrSearch_fresh_fields c hc]
    exact ⟨rfl, rfl, rfl⟩
  · exact ⟨assemble_eq_none_iff.2 hc, assemble_eq_none_iff.2 hc⟩
  · obtain ⟨ha, rfl⟩ := assemble_eq_some_iff.1 hw
    exact ⟨i, decode_encode (wellFormed_of_assemblable ha)⟩

end Sys2Proof.Machine
end

section
/-! PROOFS. Host accesses to the register block as steps, what they do to a running command, and what ends one
(40_control.md R120 to R126, R132). -/

namespace Sys2Proof.Machine

/-! ### Register accesses as steps -/

section
variable {s : State}

/-- An aligned offset of the block can be reached when the base is aligned (40_control.md R122). -/
theorem blockAccess_offset {c : Config} {off : Nat} (hb : c.engineBase % 4 = 0) (hle : off ≤ 0xFC)
    (ho : off % 4 = 0) : blockAccess c (c.engineBase + off) 4 = true := by
  simp only [blockAccess, Bool.and_eq_true, decide_eq_true_eq]
  exact ⟨⟨⟨⟨trivial, by omega⟩, by omega⟩, by omega⟩, by omega⟩

theorem step_regWrite {off : Nat} (h : blockAccess s.cfg (s.cfg.engineBase + off) 4 = true) (v : Word) :
    step (s.thenDoes (.regWrite (s.cfg.engineBase + off) 4 v)) = .next (writeOffset s off v) := by
  rw [step_thenDoes, runEvent, hostRegWrite, if_pos h, Nat.add_sub_cancel_left]

theorem step_regRead {off : Nat} (h : blockAccess s.cfg (s.cfg.engineBase + off) 4 = true) :
    step (s.thenDoes (.regRead (s.cfg.engineBase + off) 4)) =
      .next { s with replies := .reg (s.cfg.engineBase + off) (readOffset s off) :: s.replies } := by
  rw [step_thenDoes, runEvent, hostRegRead, if_pos h, Nat.add_sub_cancel_left]

theorem step_thenWrites (hb : s.cfg.engineBase % 4 = 0) (r : Reg) (v : Word) :
    step (s.thenWrites r v) = .next (writeRegister s v r) :=
  (step_regWrite (blockAccess_register hb r) v).trans (by rw [writeOffset_offset])

theorem step_thenReads (hb : s.cfg.engineBase % 4 = 0) (r : Reg) :
    step (s.thenReads r) =
      .next { s with replies := .reg (s.cfg.engineBase + r.offset) (readRegister s r) :: s.replies } :=
  (step_regRead (blockAccess_register hb r)).trans (by rw [readOffset_offset])

end

/-- Settles O8: each literal offset is the offset of its register, and past ERR_ADDR no register is written. -/
theorem registerWritesTakeEffect : Obligations.RegisterWritesTakeEffect := by
  intro s v hb written
  have writes (r : Reg) : written r.offset = .next (writeRegister s v r) := step_thenWrites hb r v
  refine ⟨writes .id, writes .ctrl, writes .status, writes .cmd, writes .srcAddr, writes .dstAddr, writes .coefAddr,
    writes .len, writes .count, writes .divider, writes .shift, writes .result, writes .errAddr,
    fun off hlow hle ho => ?_⟩
  exact (step_regWrite (blockAccess_offset hb hle ho) v).trans (by rw [writeOffset_reserved s v hlow])

/-- An access that breaks one of the conditions of 40_control.md R122 is none of the block. -/
theorem blockAccess_eq_false {c : Config} {addr width : Nat}
    (h : width ≠ 4 ∨ addr % 4 ≠ 0 ∨ addr < c.engineBase ∨ c.engineBase + 256 ≤ addr) :
    blockAccess c addr width = false := by
  rw [Bool.eq_false_iff]
  intro ha
  simp only [blockAccess, Bool.and_eq_true, decide_eq_true_eq] at ha
  omega

/-- Settles O10: reads and writes share the one condition of the block. -/
theorem otherRegisterAccessesFault : Obligations.OtherRegisterAccessesFault := by
  intro s addr width v h
  have hf : ¬ blockAccess s.cfg addr width = true := Bool.eq_false_iff.1 (blockAccess_eq_false h)
  exact ⟨(step_thenDoes ..).trans (if_neg hf), (step_thenDoes ..).trans (if_neg hf)⟩

/-! ### The bits of CTRL, STATUS and SHIFT (10_state.md R22, R23, R31) -/

theorem ctrlWord_getLsbD (s : State) (b : Nat) : s.ctrlWord.getLsbD b = (decide (b = 1) && s.regs.irqEn) := by
  simp only [State.ctrlWord, BitVec.getLsbD_append]
  rcases b with _ | _ | b <;> simp

theorem shiftWord_getLsbD (x : BitVec 6) (b : Nat) : (0#26 ++ x : Word).getLsbD b = x.getLsbD b := by
  rw [BitVec.getLsbD_append]
  split
  · rfl
  · rw [BitVec.getLsbD_zero, BitVec.getLsbD_of_ge x b (by omega)]

theorem statusWord_busy (s : State) : s.statusWord.getLsbD 0 = s.isBusy := by
  simp only [State.statusWord, BitVec.getLsbD_append]
  simp

theorem statusWord_reserved (s : State) {b : Nat} (h : (4 ≤ b ∧ b < 8) ∨ 12 ≤ b) : s.statusWord.getLsbD b = false := by
  simp only [State.statusWord, BitVec.getLsbD_append]
  rw [if_neg (by omega), if_neg (by omega), if_neg (by omega), if_neg (by omega)]
  split
  · exact BitVec.getLsbD_zero
  · rw [if_neg (by omega), BitVec.getLsbD_zero]

/-- Settles O9: a read answers `readRegister` at each register's offset, whose fields are those above. -/
theorem registerReadsAnswerValues : Obligations.RegisterReadsAnswerValues := by
  intro s r hb off
  have hoff : off = r.offset := by cases r <;> rfl
  refine ⟨hoff ▸ step_thenReads hb r, fun b hne => ?_, ctrlWord_getLsbD s 1, fun b hge => ?_,
    fun b _ => shiftWord_getLsbD _ b, ?_, fun b => statusWord_reserved s, fun hinv hp => ?_, rfl, rfl, rfl, rfl, rfl,
    rfl, rfl, rfl, rfl, fun off hlow hle ho => ?_⟩
  · exact (ctrlWord_getLsbD s b).trans (by rw [decide_eq_false hne, Bool.false_and])
  · exact (shiftWord_getLsbD _ b).trans (BitVec.getLsbD_of_ge _ _ hge)
  · exact (statusWord_busy s).symm ▸ decide_eq_true_iff
  · obtain ⟨-, -, hresult, herrAddr⟩ := hinv.busy hp
    exact ⟨hresult, herrAddr⟩
  · exact (step_regRead (blockAccess_offset hb hle ho)).trans (by rw [readOffset_reserved s hlow])

/-! ### Start requests (40_control.md R123, R124) -/

theorem writeCtrl_start_idle {s : State} {v : Word} (hp : s.phase = .idle) (hv : v.getLsbD 0 = true) :
    writeCtrl s v = acceptStart { s with regs := { s.regs with irqEn := v.getLsbD 1 } } :=
  (if_pos hv).trans (startRequest_idle _ hp)

theorem writeCtrl_start_busy {s : State} {v : Word} (hp : s.phase = .busy) (hv : v.getLsbD 0 = true) :
    writeCtrl s v = { s with regs := { s.regs with irqEn := v.getLsbD 1, sovr := true } } :=
  (if_pos hv).trans (startRequest_busy _ hp)

/-- Settles O14: the CTRL write is `acceptStart` after the update of IRQ_EN. -/
theorem acceptedStartLatchesParameters : Obligations.AcceptedStartLatchesParameters := by
  intro s v hb hp hv
  refine ⟨_, step_thenWrites hb .ctrl v, ?_⟩
  rw [writeRegister, writeCtrl_start_idle hp hv]
  exact ⟨rfl, rfl, rfl, rfl, rfl, rfl, rfl, rfl⟩

/-- Settles O15: the start request finds the engine BUSY. -/
theorem startWhileBusyIsLost : Obligations.StartWhileBusyIsLost := by
  intro s v hb hp hv
  rw [step_thenWrites hb, writeRegister, writeCtrl_start_busy hp hv]

/-! ### Clearing STATUS (40_control.md R126) -/

theorem clearStatus_eq (s : State) (v : Word) : clearStatus s v = { s with regs := { s.regs with
    done := if v.getLsbD 1 then false else s.regs.done
    err := if v.getLsbD 2 then false else s.regs.err
    errCode := if v.getLsbD 2 then .noError else s.regs.errCode
    sovr := if v.getLsbD 3 then false else s.regs.sovr } } := by
  have cleared (b x : Bool) : (x && !b) = if b then false else x := by cases b <;> simp
  simp only [clearStatus, cleared]

theorem clearStatus_irq {s : State} {v : Word} (hv : v.getLsbD 1 = true) : (clearStatus s v).irq = false := by
  simp [State.irq, hv]

/-- While BUSY the invariant keeps DONE, ERR and ERR_CODE at 0, so only SOVR is left to clear. -/
theorem clearStatus_busy {s : State} (hinv : EngineInv s) (hp : s.phase = .busy) (v : Word) :
    clearStatus s v =
      { s with regs := { s.regs with sovr := if v.getLsbD 3 then false else s.regs.sovr } } := by
  obtain ⟨hdone, herr, -, -⟩ := hinv.busy hp
  have hcode := hinv.code.1 herr
  rw [clearStatus_eq]
  simp only [hdone, herr, hcode, ite_self]

/-- Settles O17: the clearing bit by bit, the drop of IRQ, and the BUSY case under the invariant. -/
theorem statusWriteClears : Obligations.StatusWriteClears := fun s v hb =>
  ⟨_, step_thenWrites hb .status v, clearStatus_eq s v, clearStatus_irq, fun hinv hp => clearStatus_busy hinv hp v⟩

/-! ### Operand writes beside a running command (40_control.md R125) -/

/-- `r` with the registers a host writes for a command taken from `g`. -/
def Regs.withOperands (r g : Regs) : Regs :=
  { r with cmd := g.cmd, srcAddr := g.srcAddr, dstAddr := g.dstAddr, coefAddr := g.coefAddr, len := g.len,
           count := g.count, divider := g.divider, shift := g.shift }

/-- `s` with the registers a host writes for a command taken from `g`. -/
def State.withOperands (s : State) (g : Regs) : State := { s with regs := s.regs.withOperands g }

section
variable (s : State) (g : Regs)

theorem writeRegister_operand (v : Word) {r : Reg} (hr : r ∈ operandRegs) :
    writeRegister s v r = s.withOperands (writeRegister s v r).regs := by
  unfold operandRegs at hr
  fin_cases hr <;> rfl

@[simp] theorem withOperands_P : (s.withOperands g).P = s.P := rfl
@[simp] theorem withOperands_esz : (s.withOperands g).esz = s.esz := rfl

theorem mark_withOperands (k : MarkKind) (base size : Nat) :
    (s.withOperands g).mark k base size = (s.mark k base size).withOperands g := by
  cases h : s.cfg.hostCoherent || decide (size = 0) <;> simp [State.mark, State.withOperands, h]

/-- The positions of a FIR command are computed from the latched parameters, M0 and the draw number alone. -/
theorem firLoop_withOperands (c n e : Nat) (r : FirRun) : firLoop (s.withOperands g) c n e r = firLoop s c n e r := by
  induction n generalizing e r with
  | zero => rfl
  | succ n ih =>
    simp only [firLoop, ih]
    rfl

theorem firFinish_withOperands (c : Nat) (r : FirRun) :
    firFinish (s.withOperands g) c r = (firFinish s c r).withOperands g := by
  obtain ⟨acc, mem, _ | ⟨e, err⟩⟩ := r <;> rfl

theorem runFir_withOperands (c : Nat) : runFir c (s.withOperands g) = (runFir c s).withOperands g := by
  have hrun : firRun (s.withOperands g) c = firRun s c := firLoop_withOperands s g ..
  simp only [runFir, hrun, firFinish_withOperands, mark_withOperands, withOperands_P, withOperands_esz]
  split <;> rfl

theorem completeFir_withOperands (i : Instr) :
    completeFir i (s.withOperands g) = (completeFir i s).withOperands g := by
  cases hc : staticCheck i s.P s.esz with
  | some code => simp only [completeFir, withOperands_P, withOperands_esz, hc]; rfl
  | none => simp only [completeFir, withOperands_P, withOperands_esz, hc, runFir_withOperands]

theorem corrFinish_withOperands (r : CorrRun) :
    corrFinish (s.withOperands g) r = (corrFinish s r).withOperands g := by
  obtain ⟨hidden, _ | e⟩ := r <;> rfl

theorem completeCorr_withOperands (c : Nat) (nm : NormMode) :
    completeCorr c nm (s.withOperands g) = (completeCorr c nm s).withOperands g := by
  have hrun : corrRun c nm (s.withOperands g) = corrRun c nm s := rfl
  cases hc : staticCheck (.corrSearch c nm) s.P s.esz with
  | some code => simp only [completeCorr, withOperands_P, withOperands_esz, hc]; rfl
  | none => simp only [completeCorr, withOperands_P, withOperands_esz, hc, hrun, corrFinish_withOperands]

/-- A running command neither reads nor writes the operand registers: other values there come out of its completion as
they went in, and everything else comes out the same. -/
theorem exec_withOperands {i : Instr} {u : State} (h : exec i s = .next u) :
    exec i (s.withOperands g) = .next (u.withOperands g) := by
  cases i with
  | corrSearch c nm => cases h; exact congrArg _ (completeCorr_withOperands s g c nm)
  | firMono => cases h; exact congrArg _ (completeFir_withOperands s g _)
  | firStereo => cases h; exact congrArg _ (completeFir_withOperands s g _)
  | firMulti c => cases h; exact congrArg _ (completeFir_withOperands s g _)

theorem readRegister_writeRegister {r : Reg} (v : Word) (hr : r ∈ operandRegs) :
    readRegister (writeRegister s v r) r = if r = .shift then 0#26 ++ v.extractLsb' 0 6 else v := by
  unfold operandRegs at hr
  fin_cases hr <;> rfl

theorem acceptStart_P_value {r : Reg} (hr : r ∈ operandRegs) : (acceptStart s).P.value r = readRegister s r := by
  unfold operandRegs at hr
  fin_cases hr <;> rfl

end

/-- Settles O16: the write is a change of operands, which the running command does not see and `acceptStart` latches. -/
theorem writesWhileBusyWaitForNextStart : Obligations.WritesWhileBusyWaitForNextStart := by
  intro s v r hb hp hr
  have hw := writeRegister_operand s v hr
  refine ⟨_, step_thenWrites hb r v, readRegister_writeRegister s v hr, by rw [hw]; rfl, by rw [hw]; exact hp,
    acceptStart_P_value _ hr, fun i u hu => ?_⟩
  rw [hw]
  exact ⟨_, exec_withOperands s _ hu, rfl, rfl, rfl, rfl, rfl⟩

/-! ### What ends a command (40_control.md R132) -/

theorem writeCtrl_busy {s : State} (hp : s.phase = .busy) (v : Word) : (writeCtrl s v).phase = .busy := by
  obtain ⟨-, h⟩ | ⟨-, hi, -⟩ | ⟨-, -, h⟩ := writeCtrl_cases s v
  · rw [h]; exact hp
  · rw [hp] at hi; cases hi
  · rw [h]; exact hp

theorem writeRegister_busy {s : State} (hp : s.phase = .busy) (v : Word) (r : Reg) :
    (writeRegister s v r).phase = .busy := by
  obtain ⟨h, -⟩ | ⟨h, -⟩ | ⟨-, -, g, h, -⟩ := writeRegister_cases s v r
  · rw [h, clearStatus_phase, hp]
  · rw [h, writeCtrl_busy hp]
  · rw [h]; exact hp

theorem writeOffset_busy {s : State} (hp : s.phase = .busy) (off : Nat) (v : Word) :
    (writeOffset s off v).phase = .busy := by
  obtain h | ⟨r, -, h⟩ := writeOffset_cases s off v
  · rw [h, hp]
  · rw [h, writeRegister_busy hp]

/-- Every event but the engine's turn and reset leaves a running command running. -/
theorem runEvent_busy {e : Event} {s t : State} (hp : s.phase = .busy) (h : runEvent e s = .next t)
    (he : e ≠ .engine) (hr : e ≠ .reset) : t.phase = .busy := by
  obtain ⟨_, _, _, -, -, rfl⟩ | ⟨_, _, -, -, rfl⟩ | ⟨_, _, -, -, -, rfl⟩ | ⟨_, _, -, -, rfl⟩ | ⟨-, rfl⟩ |
    ⟨_, _, -, rfl⟩ | ⟨_, _, -, rfl⟩ | ⟨h, -⟩ | ⟨h, -⟩ := runEvent_cases h
  · exact writeOffset_busy hp ..
  · exact hp
  · exact (mark_phase ..).trans hp
  · exact hp
  · exact hp
  · exact (mark_phase ..).trans hp
  · exact (mark_phase ..).trans hp
  · exact absurd h he
  · exact absurd h hr

/-- Settles O24: an event other than the two would leave the phase BUSY. -/
theorem nothingElseEndsACommand : Obligations.NothingElseEndsACommand := by
  intro s t hp h hi
  cases ha : s.agenda with
  | nil => exact .inl rfl
  | cons e rest =>
    refine .inr ⟨e, rest, rfl, ?_⟩
    by_contra hn
    obtain ⟨he, hr⟩ := not_or.1 hn
    have hb : t.phase = .busy := runEvent_busy (s := { s with agenda := rest }) hp (step_cons ha ▸ h) he hr
    rw [hi] at hb
    cases hb

end Sys2Proof.Machine
end

section
/-! PROOFS. What a FIR command depends on: of the command only its channel count, and of the latched scale registers only
the one its sample mode uses (41_fir.md R164, R167). Everything else the machine holds comes out as it went in. -/

namespace Sys2Proof.Machine

/-! ### The channel count is all that tells two FIR commands apart (41_fir.md R161 to R164) -/

section
variable {i j : Instr} (hi : i.isFir = true) (hj : j.isFir = true) (h : i.channels = j.channels)
include hi hj h

theorem staticCheck_eq_of_channels (p : Params) (esz : Nat) : staticCheck i p esz = staticCheck j p esz := by
  simp only [staticCheck, usedBases, destRegion, readRegions, hi, hj, h]

theorem exec_eq_of_channels (s : State) : exec i s = exec j s := by
  rw [exec_of_isFir hi, exec_of_isFir hj, completeFir, completeFir, staticCheck_eq_of_channels hi hj h, h]

end

/-- Settles O38: the two commands have the same channel count. -/
theorem multiChannelEqualsMonoAndStereo : Obligations.MultiChannelEqualsMonoAndStereo :=
  fun s => ⟨exec_eq_of_channels rfl rfl rfl s, exec_eq_of_channels rfl rfl rfl s⟩

/-! ### What a FIR command keeps -/

theorem KeepsRest.mark {s t : State} (h : KeepsRest s t) (k : MarkKind) (base size : Nat) :
    KeepsRest s (t.mark k base size) := by
  constructor <;> simp only [mark_cfg, mark_P, mark_m0, mark_agenda, mark_replies, mark_regs, h.cfg, h.params, h.snapshot,
    h.agenda, h.replies, h.irqEn, h.sovr, h.cmd, h.srcAddr, h.dstAddr, h.coefAddr, h.len, h.count, h.divider, h.shift]

theorem firFinish_keepsRest (s : State) (c : Nat) (r : FirRun) : KeepsRest s (firFinish s c r) := by
  obtain ⟨-, h⟩ | ⟨e, err, -, h⟩ := firFinish_cases s c r
  · rw [h]; constructor <;> rfl
  · rw [h]; constructor <;> rfl

theorem completeFir_keepsRest (i : Instr) (s : State) : KeepsRest s (completeFir i s) := by
  obtain ⟨code, -, h⟩ | ⟨-, -, h⟩ | ⟨-, -, h⟩ := completeFir_cases i s <;> rw [h]
  · exact completeErr_keepsRest ..
  · exact completeOk_keepsRest ..
  · exact (firFinish_keepsRest ..).mark ..

/-! ### The unused scale register (41_fir.md R167) -/

/-- `p` with another value in the scale register that sample mode `m` does not use. -/
def Params.withUnusedScale (p : Params) (d : Word) (sh : BitVec 6) : SampleMode → Params
  | .fixed => { p with divider := d }
  | .float => { p with shift := sh }

/-- `s` with another latched value of the scale register its sample mode does not use. -/
def State.withUnusedScale (s : State) (d : Word) (sh : BitVec 6) : State :=
  { s with P := s.P.withUnusedScale d sh s.cfg.sampleMode }

section
variable (s : State) (d : Word) (sh : BitVec 6)

theorem staticCheck_withUnusedScale (i : Instr) (p : Params) (m : SampleMode) (esz : Nat) :
    staticCheck i (p.withUnusedScale d sh m) esz = staticCheck i p esz := by cases m <;> rfl

@[simp] theorem outputs_withUnusedScale (p : Params) (m : SampleMode) :
    (p.withUnusedScale d sh m).outputs = p.outputs := by cases m <;> rfl

@[simp] theorem dstAddr_withUnusedScale (p : Params) (m : SampleMode) :
    (p.withUnusedScale d sh m).dstAddr = p.dstAddr := by cases m <;> rfl

@[simp] theorem destElem_withUnusedScale (p : Params) (m : SampleMode) (esz e : Nat) :
    destElem (p.withUnusedScale d sh m) esz e = destElem p esz e := by cases m <;> rfl

@[simp] theorem withUnusedScale_esz : (s.withUnusedScale d sh).esz = s.esz := rfl

@[simp] theorem withUnusedScale_cfg : (s.withUnusedScale d sh).cfg = s.cfg := rfl

@[simp] theorem withUnusedScale_P :
    (s.withUnusedScale d sh).P = s.P.withUnusedScale d sh s.cfg.sampleMode := rfl

/-- An output is scaled by the shift in FIXED mode and by the divider in FLOAT mode (41_fir.md R155, R157). -/
theorem firPos_withUnusedScale (c e : Nat) : firPos (s.withUnusedScale d sh) c e = firPos s c e := by
  cases hm : s.cfg.sampleMode with
  | fixed =>
    simp only [firPos, withUnusedScale_cfg, hm, firPosFixed, withUnusedScale_P, Params.withUnusedScale]
    rfl
  | float =>
    simp only [firPos, withUnusedScale_cfg, hm, firPosFloat, withUnusedScale_P, Params.withUnusedScale]
    rfl

/-- RECIP follows the divider in FLOAT mode alone (10_state.md R41). -/
theorem firHidden_withUnusedScale (acc : Vector AccReg 16) :
    firHidden (s.withUnusedScale d sh) acc = firHidden s acc := by
  cases hm : s.cfg.sampleMode <;>
    simp only [firHidden, withUnusedScale_cfg, hm, withUnusedScale_P, Params.withUnusedScale] <;> rfl

theorem firLoop_withUnusedScale (c n e : Nat) (r : FirRun) :
    firLoop (s.withUnusedScale d sh) c n e r = firLoop s c n e r := by
  induction n generalizing e r with
  | zero => rfl
  | succ n ih =>
    simp only [firLoop, ih, firPos_withUnusedScale, withUnusedScale_cfg, withUnusedScale_P, withUnusedScale_esz,
      destElem_withUnusedScale]

theorem firRun_withUnusedScale (c : Nat) : firRun (s.withUnusedScale d sh) c = firRun s c := by
  simp only [firRun, firLoop_withUnusedScale, withUnusedScale_P, outputs_withUnusedScale]
  rfl

theorem firFinish_withUnusedScale (c : Nat) (r : FirRun) :
    firFinish (s.withUnusedScale d sh) c r = (firFinish s c r).withUnusedScale d sh := by
  obtain ⟨acc, mem, _ | ⟨e, err⟩⟩ := r <;>
    simp only [firFinish, firHidden_withUnusedScale, withUnusedScale_P, withUnusedScale_esz, outputs_withUnusedScale,
      destElem_withUnusedScale] <;> rfl

theorem mark_withUnusedScale (k : MarkKind) (base size : Nat) :
    (s.withUnusedScale d sh).mark k base size = (s.mark k base size).withUnusedScale d sh := by
  cases h : s.cfg.hostCoherent || decide (size = 0) <;> simp [State.mark, State.withUnusedScale, h]

theorem runFir_withUnusedScale (c : Nat) :
    runFir c (s.withUnusedScale d sh) = (runFir c s).withUnusedScale d sh := by
  simp only [runFir, firRun_withUnusedScale, firFinish_withUnusedScale, mark_withUnusedScale, withUnusedScale_P,
    withUnusedScale_esz, outputs_withUnusedScale, dstAddr_withUnusedScale]
  split <;> rfl

theorem completeFir_withUnusedScale (i : Instr) :
    completeFir i (s.withUnusedScale d sh) = (completeFir i s).withUnusedScale d sh := by
  simp only [completeFir, withUnusedScale_P, withUnusedScale_esz, staticCheck_withUnusedScale, runFir_withUnusedScale]
  split <;> rfl

variable {s}

theorem withUnusedScale_fixed (hm : s.cfg.sampleMode = .fixed) :
    s.withUnusedScale d sh = { s with P := { s.P with divider := d } } := by
  simp only [State.withUnusedScale, Params.withUnusedScale, hm]

theorem withUnusedScale_float (hm : s.cfg.sampleMode = .float) :
    s.withUnusedScale d sh = { s with P := { s.P with shift := sh } } := by
  simp only [State.withUnusedScale, Params.withUnusedScale, hm]

/-- The unused scale register comes out of a FIR command as it went in, and everything else comes out the same. -/
theorem exec_withUnusedScale {i : Instr} {t : State} (hi : i.isFir = true) (h : exec i s = .next t) :
    exec i (s.withUnusedScale d sh) = .next (t.withUnusedScale d sh) := by
  rw [exec_of_isFir hi] at h ⊢
  cases h
  exact congrArg _ (completeFir_withUnusedScale s d sh i)

theorem exec_fir_keepsRest {i : Instr} {t : State} (hi : i.isFir = true) (h : exec i s = .next t) : KeepsRest s t := by
  rw [exec_of_isFir hi] at h
  cases h
  exact completeFir_keepsRest i s

end

/-- Settles O39: in each mode the other value is one of the register `withUnusedScale` replaces. -/
theorem unusedScaleHasNoEffect : Obligations.UnusedScaleHasNoEffect := by
  intro i s t hi h
  have hcfg : t.cfg = s.cfg := (exec_fir_keepsRest hi h).cfg
  refine ⟨fun hm d => ?_, fun hm sh => ?_⟩
  · rw [← withUnusedScale_fixed d 0#6 hm, ← withUnusedScale_fixed d 0#6 (hcfg ▸ hm)]
    exact exec_withUnusedScale d 0#6 hi h
  · rw [← withUnusedScale_float 0#32 sh hm, ← withUnusedScale_float 0#32 sh (hcfg ▸ hm)]
    exact exec_withUnusedScale 0#32 sh hi h

end Sys2Proof.Machine
end

section
/-! PROOFS. What a FIR command whose accesses and sums all go through writes: every destination element, and nothing else
(41_fir.md R153 to R156, R165; 20_memory.md R74). -/

namespace Sys2Proof.Machine

/-! ### A run without a failing element, in either mode -/

/-- An element that is computed and accepted does not end the command. -/
theorem not_posFails {s : State} {c e : Nat} {err : RunError} {a : AccReg} {y : Word}
    (hp : firPos s c e = .ok (a, some y)) (hw : memOk s.cfg (destElem s.P s.esz e) s.esz .write = true) :
    ¬ PosFails s c e err := by
  rintro (h | ⟨_, h, -⟩ | ⟨_, _, -, h, -⟩)
  · rw [hp] at h; cases h
  · rw [hp] at h; cases h
  · rw [hw] at h; cases h

/-- A byte outside each of the first `n` destination elements lies before them or after them. -/
theorem outside_of_not_inDestElem {s : State} {a n : Nat} (h : ∀ e, e < n → inDestElem s e a = false) :
    a < destElem s.P s.esz 0 ∨ destElem s.P s.esz n ≤ a := by
  induction n with
  | zero => exact Nat.lt_or_ge _ _
  | succ n ih =>
    refine (ih fun e he => h e (by omega)).imp_right fun hge => ?_
    have hn := mt (inRange_iff ..).2 (Bool.eq_false_iff.1 (h n (by omega)))
    rw [destElem_succ]
    omega

theorem Succeeded.mark {t : State} {v : Nat} (h : Succeeded t v) (k : MarkKind) (base size : Nat) :
    Succeeded (t.mark k base size) v := by
  obtain ⟨hres, herr, hcode, haddr, hdone, hidle⟩ := h
  constructor <;> simpa only [mark_regs, mark_phase]

/-- With every destination element computed and accepted, the run stores each of them and no other byte, and ends without
an error. -/
theorem firRun_stores {s : State} {c : Nat}
    (hpos : ∀ e, e < s.P.outputs * c → ∃ a y, firPos s c e = .ok (a, some y)) (hw : FirWritable s c) :
    (firRun s c).fail = none ∧ (∀ e, e < s.P.outputs * c → PosStored s c e (firRun s c).mem) ∧
      ∀ a, (∀ e, e < s.P.outputs * c → inDestElem s e a = false) → (firRun s c).mem.byteAt a = s.mem.byteAt a := by
  obtain ⟨n, -, hstored, hkept, hend⟩ :=
    firLoop_spec s c (s.P.outputs * c) 0 { mem := s.mem, acc := s.hidden.acc, fail := none } rfl
  rw [Nat.zero_add] at hstored hkept hend
  obtain ⟨hfail, rfl⟩ | ⟨err, hn, -, herr⟩ := hend
  · exact ⟨hfail, fun e => hstored e (Nat.zero_le e), fun a ha => hkept a (outside_of_not_inDestElem ha)⟩
  · obtain ⟨a, y, hp⟩ := hpos n hn
    exact absurd herr (not_posFails hp (hw n hn))

/-- With every destination element computed and accepted, a FIR command with N > L succeeds, stores each of them, and
changes no byte outside them. -/
theorem completeFir_stores {i : Instr} {s : State} (hcheck : staticCheck i s.P s.esz = none)
    (hlt : s.P.len.toNat < s.P.count.toNat)
    (hpos : ∀ e, e < s.P.outputs * i.channels → ∃ a y, firPos s i.channels e = .ok (a, some y))
    (hw : FirWritable s i.channels) :
    Succeeded (completeFir i s) s.P.outputs ∧
      (∀ e, e < s.P.outputs * i.channels → PosStored s i.channels e (completeFir i s).mem) ∧
      ∀ a, (∀ e, e < s.P.outputs * i.channels → inDestElem s e a = false) →
        (completeFir i s).mem.byteAt a = s.mem.byteAt a := by
  obtain ⟨hfail, hstored⟩ := firRun_stores hpos hw
  obtain ⟨code, h, -⟩ | ⟨-, h, -⟩ | ⟨-, -, heq⟩ := completeFir_cases i s
  · rw [hcheck] at h; cases h
  · unfold Params.outputs at h; omega
  · obtain ⟨-, hfin⟩ | ⟨_, _, herr, -⟩ := firFinish_cases s i.channels (firRun s i.channels)
    · rw [heq, hfin]
      exact ⟨(completeOk_succeeded ..).mark .., by simpa only [mark_mem, completeOk_mem] using hstored⟩
    · rw [hfail] at herr; cases herr

/-! ### One output in FIXED mode -/

theorem esz_fixed {s : State} (hm : s.cfg.sampleMode = .fixed) : s.esz = 2 := by rw [State.esz, hm, SampleMode.esz]

/-- A destination element is one position and one channel. -/
theorem position_lt {n c e : Nat} (he : e < n * c) : e / c < n ∧ e % c < c :=
  ⟨Nat.div_lt_of_lt_mul (Nat.mul_comm n c ▸ he), Nat.mod_lt _ (Nat.pos_of_lt_mul_left he)⟩

/-- The platform answers every read of a position. -/
theorem positionReads_answered {s : State} {c e : Nat} (hr : FirReadable s c) (he : e < s.P.outputs * c) :
    (positionReads s c e).find? (fun a => !memOk s.cfg a s.esz .read) = none := by
  obtain ⟨hj, hch⟩ := position_lt he
  simp only [positionReads, List.find?_eq_none, List.mem_flatMap, List.mem_range, List.mem_cons, List.not_mem_nil,
    or_false]
  rintro a ⟨k, hk, rfl | rfl⟩
  · simp [hr.1 k hk]
  · simp [hr.2 (e / c) (e % c) k hj hch hk]

/-- A FIXED-mode position whose reads are answered and whose sum fits has the output `y(j, c)` (41_fir.md R153 to R156). -/
theorem firPos_fixed_ok {s : State} {c e : Nat} (hm : s.cfg.sampleMode = .fixed) (hr : FirReadable s c)
    (hf : FirFits s c) (he : e < s.P.outputs * c) :
    firPos s c e = .ok (.fixed (firSum s c (e / c) (e % c)), some (BitVec.ofInt 32 (firOut s c (e / c) (e % c)))) := by
  obtain ⟨hj, hch⟩ := position_lt he
  have hfit := hf (e / c) (e % c) hj hch
  have hreads := positionReads_answered hr he
  rw [esz_fixed hm] at hreads
  simp only [firPos_fixed hm, hreads, hfit, accWrap_of_fits hfit, if_true]

theorem sat16_eq_clamp (a : Int) : sat16 a = max (-32768) (min 32767 a) := by
  unfold sat16
  split
  · omega
  · split <;> omega

/-- Sixteen bits hold a saturated value. -/
theorem toInt_extract_sat16 (a : Int) : ((BitVec.ofInt 32 (sat16 a)).extractLsb' 0 16).toInt = sat16 a := by
  have h := sat16_eq_clamp a
  rw [BitVec.toInt_extractLsb', Nat.shiftRight_zero, BitVec.toNat_ofInt, Int.toNat_of_nonneg (by omega), Int.bmod_def]
  omega

/-- Two bytes that are those of `y` read back as its low half. -/
theorem memHalf_of_bytes {m : Memory} {a : Nat} {y : Word}
    (h : ∀ k, k < 2 → m.byteAt (a + k) = BitVec.ofNat 8 (y.toNat / 256 ^ k)) : memHalf m a = y.extractLsb' 0 16 := by
  have h0 := (h 0 (by omega)).trans (Memory.byteAt_writeLE_inside m (a := a) (n := 2) y.toNat 0 (by omega)).symm
  have h1 := (h 1 (by omega)).trans (Memory.byteAt_writeLE_inside m (a := a) (n := 2) y.toNat 1 (by omega)).symm
  rw [← memHalf_writeLE m a y, memHalf, memHalf, h1]
  exact congrArg _ h0

/-! ### The statement -/

/-- A stored FIXED-mode output reads back as `y(j, c)`. -/
theorem memHalf_of_posStored {s : State} {c e : Nat} {m : Memory} (hm : s.cfg.sampleMode = .fixed)
    (hr : FirReadable s c) (hf : FirFits s c) (he : e < s.P.outputs * c) (h : PosStored s c e m) :
    (memHalf m (destElem s.P 2 e)).toInt = firOut s c (e / c) (e % c) := by
  obtain ⟨a, y, hp, -, hbytes⟩ := h
  rw [firPos_fixed_ok hm hr hf he] at hp
  cases hp
  rw [esz_fixed hm] at hbytes
  rw [memHalf_of_bytes hbytes, firOut, toInt_extract_sat16]

theorem firOut_eq_clamp (s : State) (c j ch : Nat) :
    firOut s c j ch = max (-32768) (min 32767 (firSum s c j ch / 2 ^ s.P.shift.toNat)) := by
  rw [firOut, sat16_eq_clamp, asr, Nat.cast_pow, Nat.cast_ofNat]

/-- Settles O31: every position goes through, so the command stores every element, and element j*C + c is position
(j, c). -/
theorem firFixedWritesOutputs : Obligations.FirFixedWritesOutputs := by
  intro i s hi hm hcheck hlt hr hw hf
  obtain ⟨hok, hstored, hkept⟩ :=
    completeFir_stores hcheck hlt (fun e he => ⟨_, _, firPos_fixed_ok hm hr hf he⟩) hw
  refine ⟨_, exec_of_isFir hi s, hok, completeFir_keepsRest i s, fun j ch hj hch => ?_, hkept⟩
  have he : j * i.channels + ch < s.P.outputs * i.channels := calc
    j * i.channels + ch < (j + 1) * i.channels := by rw [Nat.succ_mul]; omega
    _ ≤ s.P.outputs * i.channels := Nat.mul_le_mul_right _ hj
  have hread := memHalf_of_posStored hm hr hf he (hstored _ he)
  rwa [Nat.mul_add_mod_of_lt hch, Nat.mul_comm j, Nat.mul_add_div (by omega), Nat.div_eq_of_lt hch, Nat.add_zero,
    Nat.mul_comm _ j, firOut_eq_clamp] at hread

end Sys2Proof.Machine
end

section
/-! PROOFS. A search whose reads are all answered: its windows as lists of elements, the scores the scan compares, and the
offset it answers (42_corr.md R190 to R205). -/

namespace Sys2Proof.Machine

/-! ### The windows and the sums over them -/

/-- Window `i` beside the compare window, for elements read as `v` (42_corr.md R191). -/
def windowPairs {α : Type} (v : Nat → α) (p : Params) (esz c i : Nat) : List (α × α) :=
  (List.range (p.window c)).map fun k => (v (refElem p esz c i k), v (cmpElem p esz k))

theorem windowPairs_map_fst {α : Type} (v : Nat → α) (p : Params) (esz c i : Nat) :
    (windowPairs v p esz c i).map Prod.fst = (List.range (p.window c)).map fun k => v (refElem p esz c i k) := by
  rw [windowPairs, List.map_map]
  rfl

/-- score_i from d_i and n_i (42_corr.md R201). -/
theorem corrScoreAt_eq (s : State) (c : Nat) (nm : NormMode) (i : Nat) :
    corrScoreAt s c nm i = corrScore (corrDotAt s c i) (corrNormAt s c nm i) i s.P.count.toNat := rfl

/-! ### FIXED mode -/

section
variable (s : State) (c : Nat)

theorem corrQ_nonneg (i : Nat) : 0 ≤ corrQ s c i := Finset.sum_nonneg fun _ _ => mul_self_nonneg _

theorem exactDot_windowPairs (i : Nat) : exactDot (windowPairs s.half s.P 2 c i) = corrD s c i :=
  exactDot_range _ _ _

theorem squaresFixed_window (i : Nat) :
    squaresFixed ((windowPairs s.half s.P 2 c i).map Prod.fst) = corrQ s c i := by
  rw [windowPairs_map_fst]
  exact squaresFixed_range _ _

variable {c}

/-- The slide's exits and entries take Q_i to Q_(i+1) (42_corr.md R195). -/
theorem corrQ_slide (hc : c ≤ s.P.window c) (i : Nat) :
    corrQ s c i - squaresFixed (((windowPairs s.half s.P 2 c i).map Prod.fst).take c) +
      squaresFixed (((windowPairs s.half s.P 2 c (i + 1)).map Prod.fst).drop (s.P.window c - c)) =
        corrQ s c (i + 1) := by
  rw [← squaresFixed_window s c i, ← squaresFixed_window s c (i + 1)]
  simp only [windowPairs_map_fst, refElem_succ, take_map_range _ hc, drop_map_range _ hc]
  exact (squaresFixed_slide (fun k => s.half (refElem s.P 2 c i k)) hc).symm

/-- The incremental NORM in FIXED mode is Q_i itself. -/
theorem normAt_fixed (hc : c ≤ s.P.window c) (i : Nat) :
    (searchOf s.load16 corrFixed s.P 2 c .incremental).normAt (windowPairs s.half s.P 2 c) i =
      .fixed (corrQ s c i).toNat := by
  induction i with
  | zero => exact congrArg (fun q : Int => NormReg.fixed q.toNat) (squaresFixed_window s c 0)
  | succ i ih =>
    rw [Search.normAt, ih]
    refine congrArg (fun q : Int => NormReg.fixed q.toNat) ?_
    rw [Int.toNat_of_nonneg (corrQ_nonneg s c i)]
    exact corrQ_slide s hc i

theorem normValueAt_fixed (hc : c ≤ s.P.window c) (nm : NormMode) (i : Nat) :
    (searchOf s.load16 corrFixed s.P 2 c nm).normValueAt (windowPairs s.half s.P 2 c) i = fpOfInt (corrQ s c i) := by
  have hvalue : (NormReg.fixed (corrQ s c i).toNat).value = fpOfInt (corrQ s c i) :=
    congrArg fpOfInt (Int.toNat_of_nonneg (corrQ_nonneg s c i))
  cases nm with
  | incremental => exact (congrArg NormReg.value (normAt_fixed s hc i)).trans hvalue
  | fresh =>
    refine Eq.trans ?_ hvalue
    exact congrArg (fun q : Int => (NormReg.fixed q.toNat).value) (squaresFixed_window s c i)

/-- In FIXED mode the scan compares the scores of the spec. -/
theorem scoreAt_fixed (hm : s.cfg.sampleMode = .fixed) (hc : c ≤ s.P.window c) (nm : NormMode) :
    (searchOf s.load16 corrFixed s.P 2 c nm).scoreAt (windowPairs s.half s.P 2 c) = corrScoreAt s c nm := by
  funext i
  have hdot : corrFixed.dot (windowPairs s.half s.P 2 c i) = corrDotAt s c i := by
    simp only [corrFixed, exactDot_windowPairs, corrDotAt, hm]
  have hnorm : fpOfInt (corrQ s c i) = corrNormAt s c nm i := by simp only [corrNormAt, hm]
  rw [corrScoreAt_eq, Search.scoreAt, normValueAt_fixed s hc, hnorm, ← hdot]
  rfl

/-! ### FLOAT mode -/

variable (c)

theorem floatDot_windowPairs (i : Nat) : floatDot (windowPairs s.word s.P 4 c i) = dot64 s c i := by
  rw [floatDot, windowPairs, List.foldl_map]
  rfl

theorem squaresFloat_map (op : Fp → Fp → Fp) (n : Fp) (f : Nat → Word) (ks : List Nat) :
    squaresFloat op n (ks.map f) = ks.foldl (fun a k => op a (mul64 (fp32 (f k)) (fp32 (f k)))) n := List.foldl_map

theorem squaresFloat_window (i : Nat) :
    squaresFloat add64 .posZero ((windowPairs s.word s.P 4 c i).map Prod.fst) = fresh64 s c i := by
  rw [windowPairs_map_fst, squaresFloat_map]
  rfl

variable {c}

/-- The incremental NORM in FLOAT mode follows the order of R195. -/
theorem normAt_float (hc : c ≤ s.P.window c) (i : Nat) :
    (searchOf s.load32 corrFloat s.P 4 c .incremental).normAt (windowPairs s.word s.P 4 c) i =
      .float (incremental64 s c i) := by
  induction i with
  | zero => exact congrArg NormReg.float (squaresFloat_window s c 0)
  | succ i ih =>
    rw [Search.normAt, ih]
    refine congrArg NormReg.float ?_
    change squaresFloat add64
      (squaresFloat sub64 _ (((windowPairs s.word s.P 4 c i).map Prod.fst).take c))
      (((windowPairs s.word s.P 4 c (i + 1)).map Prod.fst).drop (s.P.window c - c)) = _
    rw [windowPairs_map_fst, windowPairs_map_fst, take_map_range _ hc, drop_map_range _ hc, squaresFloat_map,
      squaresFloat_map]
    rfl

theorem normValueAt_float (hm : s.cfg.sampleMode = .float) (hc : c ≤ s.P.window c) (nm : NormMode) (i : Nat) :
    (searchOf s.load32 corrFloat s.P 4 c nm).normValueAt (windowPairs s.word s.P 4 c) i = corrNormAt s c nm i := by
  cases nm with
  | incremental =>
    simp only [corrNormAt, hm]
    exact congrArg NormReg.value (normAt_float s hc i)
  | fresh =>
    simp only [corrNormAt, hm]
    exact squaresFloat_window s c i

/-- In FLOAT mode the scan compares the scores of the spec. -/
theorem scoreAt_float (hm : s.cfg.sampleMode = .float) (hc : c ≤ s.P.window c) (nm : NormMode) :
    (searchOf s.load32 corrFloat s.P 4 c nm).scoreAt (windowPairs s.word s.P 4 c) = corrScoreAt s c nm := by
  funext i
  have hdot : corrFloat.dot (windowPairs s.word s.P 4 c i) = corrDotAt s c i := by
    simp only [corrFloat, floatDot_windowPairs, corrDotAt, hm]
  rw [corrScoreAt_eq, Search.scoreAt, normValueAt_float s hm hc, ← hdot]
  rfl

end

/-! ### A search without a failing read -/

/-- What the static checks leave of C, S and O (42_corr.md R190). -/
theorem corr_counts_pos {c esz : Nat} {nm : NormMode} {p : Params} (h : staticCheck (.corrSearch c nm) p esz = none) :
    0 < c ∧ 0 < p.count.toNat ∧ 0 < p.len.toNat := by
  simp only [staticCheck, Instr.channels, Instr.isFir, Bool.false_and, Bool.not_false, Bool.true_and,
    decide_eq_true_eq, Bool.false_eq_true, if_false] at h
  have hc : c ≠ 0 := fun hz => by simp [hz] at h
  have hs : p.count.toNat ≠ 0 := fun hz => by simp [hc, hz] at h
  have ho : p.len.toNat ≠ 0 := fun hz => by simp [hc, hs, hz] at h
  exact ⟨Nat.pos_of_ne_zero hc, Nat.pos_of_ne_zero hs, Nat.pos_of_ne_zero ho⟩

theorem esz_float {s : State} (hm : s.cfg.sampleMode = .float) : s.esz = 4 := by rw [State.esz, hm, SampleMode.esz]

/-- The registers of the last offset, when the platform answers every read of the search (42_corr.md R202, R203). -/
theorem corrRun_ok {c n : Nat} {nm : NormMode} {s : State} (hc : c ≤ s.P.window c) (hn : s.P.count.toNat = n + 1)
    (hr : CorrReadable s c) :
    ∃ h, corrRun c nm s = { hidden := h, fail := none } ∧
      h.bestOff = BitVec.ofNat 32 (bestOffset (corrScoreAt s c nm) n) ∧
      h.bestScore = corrScoreAt s c nm (bestOffset (corrScoreAt s c nm) n) := by
  cases hm : s.cfg.sampleMode with
  | fixed =>
    rw [CorrReadable, esz_fixed hm] at hr
    obtain ⟨h, hscan, hstate⟩ := scan_ok (q := searchOf s.load16 corrFixed s.P 2 c nm)
      (ps := windowPairs s.half s.P 2 c) s.hidden (n := n)
      fun i hi => searchOf_window (load16_eq s) corrFixed s.P 2 c nm i fun k => hr i k (by omega)
    rw [← scoreAt_fixed s hm hc]
    refine ⟨h, ?_, hstate.bestOff, hstate.bestScore⟩
    simp only [corrRun, hm, hn, hscan]
  | float =>
    rw [CorrReadable, esz_float hm] at hr
    obtain ⟨h, hscan, hstate⟩ := scan_ok (q := searchOf s.load32 corrFloat s.P 4 c nm)
      (ps := windowPairs s.word s.P 4 c) s.hidden (n := n)
      fun i hi => searchOf_window (load32_eq s) corrFloat s.P 4 c nm i fun k => hr i k (by omega)
    rw [← scoreAt_float s hm hc]
    refine ⟨h, ?_, hstate.bestOff, hstate.bestScore⟩
    simp only [corrRun, hm, hn, hscan]

theorem bestOffset_le (score : Nat → Fp) (n : Nat) : bestOffset score n ≤ n := by
  induction n with
  | zero => exact Nat.le_refl 0
  | succ n ih =>
    rw [bestOffset]
    split
    · exact Nat.le_refl _
    · exact Nat.le_succ_of_le ih

theorem completeCorr_keepsRest (c : Nat) (nm : NormMode) (s : State) : KeepsRest s (completeCorr c nm s) := by
  obtain ⟨_, -, h⟩ | ⟨-, -, h⟩ | ⟨_, -, -, h⟩ := completeCorr_cases c nm s <;> rw [h] <;> constructor <;> rfl

/-- A search whose run ends without an error completes with RESULT = BEST_OFF (42_corr.md R203, R204). -/
theorem completeCorr_ok {c : Nat} {nm : NormMode} {s : State} {h : Hidden}
    (hcheck : staticCheck (.corrSearch c nm) s.P s.esz = none)
    (hrun : corrRun c nm s = { hidden := h, fail := none }) :
    completeCorr c nm s = completeOk { s with hidden := h } h.bestOff.toNat := by
  simp only [completeCorr, hcheck, hrun, corrFinish]

/-! ### The statements -/

/-- Settles O48: the run's registers are those of the scan over the spec's scores, whose offset is a 32-bit number. -/
theorem corrSearchFindsBestOffset : Obligations.CorrSearchFindsBestOffset := by
  intro c nm s hcheck hr
  obtain ⟨-, hcount, hlen⟩ := corr_counts_pos hcheck
  obtain ⟨h, hrun, hoff, hscore⟩ := corrRun_ok (nm := nm) (n := s.P.count.toNat - 1) (Nat.le_mul_of_pos_right c hlen)
    (by omega) hr
  have hdone := completeCorr_ok hcheck hrun
  have hlt : bestOffset (corrScoreAt s c nm) (s.P.count.toNat - 1) < s.P.count.toNat :=
    Nat.lt_of_le_of_lt (bestOffset_le ..) (by omega)
  have hnat : h.bestOff.toNat = bestOffset (corrScoreAt s c nm) (s.P.count.toNat - 1) := by
    rw [hoff, BitVec.toNat_ofNat, Nat.mod_eq_of_lt (hlt.trans s.P.count.isLt)]
  have hkeeps := completeCorr_keepsRest c nm s
  have hresult : (completeCorr c nm s).regs.result = h.bestOff := by
    rw [hdone, completeOk_regs_result, BitVec.ofNat_toNat, BitVec.setWidth_eq]
  refine ⟨_, exec_corrSearch c nm s, ?_, ?_, ?_, ?_, ?_, ?_, ?_, hkeeps⟩
  · rw [hdone, hnat]; exact completeOk_succeeded ..
  · rw [hresult, hnat]
  · rw [hresult, hdone]; rfl
  · rw [hresult, hnat]; exact hlt
  · rw [hresult, hnat, hdone]; exact hscore
  · rw [hdone]; rfl
  · rw [hdone]; rfl

/-- Settles O51: the only window of the search is window 0, so its elements are all that has to be read, and the scan over
one offset answers 0. -/
theorem seekLengthOneAnswersZero : Obligations.SeekLengthOneAnswersZero := by
  intro c nm s hcheck hone hreads
  have hcount : s.P.count.toNat = 1 := by rw [hone]; rfl
  have hr : CorrReadable s c := by
    intro i k hi hk
    obtain rfl : i = 0 := by omega
    rw [refElem, Nat.zero_mul, Nat.zero_add]
    exact hreads k hk
  obtain ⟨t, hexec, hok, -, -, -, -, hmem, -⟩ := corrSearchFindsBestOffset c nm s hcheck hr
  rw [hcount] at hok
  exact ⟨t, hexec, hok, hmem⟩

end Sys2Proof.Machine
end

section
/-! PROOFS. The weight of offset 0 and the floored normalizer: positive integers and their quotients in binary64
(42_corr.md R197, R206). -/

namespace Sys2Proof.Machine

/-! ### Rounding and the sign -/

theorem fpNeg_fpExact (neg : Bool) (m : Nat) (e : Int) : fpNeg (fpExact neg m e) = fpExact (!neg) m e := by
  unfold fpExact
  split <;> rfl

/-- Rounding to nearest is symmetric in the sign. -/
theorem fpNeg_fpRound (f : FpFormat) (neg : Bool) (m : Nat) (e : Int) :
    fpNeg (fpRound f neg m e) = fpRound f (!neg) m e := by
  simp only [fpRound]
  split
  · rfl
  · split
    · rfl
    · exact fpNeg_fpExact ..

theorem fpOfInt_natCast (n : Nat) : fpOfInt n = fpRound binary64 false n 0 := by
  rw [fpOfInt, decide_eq_false (by omega), Int.natAbs_natCast]

theorem fpOfInt_neg_natCast {n : Nat} (hn : n ≠ 0) : fpOfInt (-n) = fpNeg (fpOfInt n) := by
  rw [fpOfInt_natCast, fpNeg_fpRound, fpOfInt, decide_eq_true (by omega), Int.natAbs_neg, Int.natAbs_natCast]
  rfl

/-! ### How large a rounded number is -/

section
variable {f : FpFormat} {m : Nat} {e : Int} (hm : m ≠ 0)
include hm

/-- The kept part of a number that is not below the subnormals has its leading bit. -/
theorem fpRound_kept_ge {q : Int} (hq : q ≤ e + m.log2) :
    2 ^ (e + m.log2 - q).toNat ≤ shiftNearestEven (m * 2 ^ (e - q).toNat) (q - e).toNat := by
  apply le_shiftNearestEven
  calc 2 ^ ((e + m.log2 - q).toNat + (q - e).toNat) = 2 ^ m.log2 * 2 ^ (e - q).toNat := by
        rw [← pow_add]; congr 1; omega
    _ ≤ m * 2 ^ (e - q).toNat := Nat.mul_le_mul_right _ (Nat.log2_self_le hm)

/-- A rounded number that is not below the subnormals is at least the power of two of its leading bit. -/
theorem fpRound_ge (hp : 0 < f.prec) (hlow : f.lsbMin ≤ e + m.log2) :
    fpRound f false m e = .inf false ∨
      ∃ n g, fpRound f false m e = .fin false n g ∧ (2 : ℚ) ^ (e + m.log2) ≤ fpRat (.fin false n g) := by
  have hq : fpLastBit f (e + m.log2) ≤ e + m.log2 := max_le (by omega) hlow
  have hkept := fpRound_kept_ge hm hq
  simp only [fpRound, if_neg hm]
  generalize fpLastBit f (e + m.log2) = q at *
  generalize shiftNearestEven (m * 2 ^ (e - q).toNat) (q - e).toNat = n at *
  split
  · exact .inl rfl
  · have hn : n ≠ 0 := Nat.ne_of_gt (Nat.lt_of_lt_of_le (Nat.two_pow_pos _) hkept)
    obtain ⟨k, z, hexact, -⟩ := fpExact_eq false hn q
    refine .inr ⟨k, _, hexact, ?_⟩
    calc (2 : ℚ) ^ (e + m.log2) = (2 : ℚ) ^ (e + m.log2 - q).toNat * 2 ^ q := by
          rw [← zpow_natCast, ← zpow_add₀ (by norm_num)]; congr 1; omega
      _ ≤ n * 2 ^ q := mul_le_mul_of_nonneg_right (by exact_mod_cast hkept) (by positivity)
      _ = fpRat (fpExact false n q) := by rw [fpExact_toRat]; simp
      _ = _ := by rw [hexact]

/-- A number whose leading bit is below the greatest exponent does not overflow. -/
theorem fpRound_ne_inf (neg : Bool) (hrange : f.lsbMin + f.prec ≤ f.maxExp) (htop : e + m.log2 < f.maxExp) :
    fpRound f neg m e ≠ .inf neg := by
  have hkept := fpRound_kept_le f e hm
  have hq : fpLastBit f (e + m.log2) + f.prec ≤ f.maxExp := by unfold fpLastBit; omega
  simp only [fpRound, if_neg hm]
  generalize fpLastBit f (e + m.log2) = q at *
  generalize shiftNearestEven (m * 2 ^ (e - q).toNat) (q - e).toNat = n at *
  have hlog : n.log2 ≤ f.prec := by
    rw [← Nat.log2_two_pow (n := f.prec), Nat.log2_eq_log_two, Nat.log2_eq_log_two]
    exact Nat.log_mono_right hkept
  rw [if_neg (by omega)]
  unfold fpExact
  split <;> exact Fp.noConfusion

end

/-! ### Positive integers -/

/-- A positive integer in binary64 is at least 1. -/
theorem fpOfInt_ge_one {q : Nat} (hq : q ≠ 0) :
    fpOfInt q = .inf false ∨ ∃ n g, fpOfInt q = .fin false n g ∧ 1 ≤ fpRat (.fin false n g) := by
  rw [fpOfInt_natCast]
  refine (fpRound_ge hq (by decide) ?_).imp_right fun ⟨n, g, h, hle⟩ => ⟨n, g, h, le_trans ?_ hle⟩
  · rw [zero_add]
    exact Int.le_trans (by decide) (Int.natCast_nonneg _)
  · rw [zero_add, zpow_natCast]
    exact one_le_pow₀ (by norm_num)

/-- A positive integer in the range of binary64 is finite and not zero. -/
theorem fpOfInt_finite {q : Nat} (hq : q ≠ 0) (htop : q.log2 < 1023) :
    ∃ n g, fpOfInt q = .fin false n g ∧ n ≠ 0 := by
  obtain h | ⟨n, g, h, hge⟩ := fpOfInt_ge_one hq
  · rw [fpOfInt_natCast] at h
    exact absurd h (fpRound_ne_inf hq false (by decide) (by rw [zero_add]; exact Int.ofNat_lt.2 htop))
  · refine ⟨n, g, h, ?_⟩
    rintro rfl
    norm_num [fpRat] at hge

/-! ### A number over itself -/

/-- A quotient without a remainder is not rounded. -/
theorem shiftNearestEven_mul_pow (n s : Nat) : shiftNearestEven (n * 2 ^ s) s = n := by
  have hpos := Nat.two_pow_pos s
  simp only [shiftNearestEven, Nat.mul_mod_left, Nat.mul_div_cancel n hpos]
  rw [if_neg (by omega)]

/-- A significand of 53 + `j` bits whose value is 1 rounds to 1.0. -/
theorem fpRound_one (neg : Bool) (j : Nat) :
    fpRound binary64 neg (2 ^ 52 * 2 ^ j) (-52 - j) = .fin neg 1 0 := by
  have hm : 2 ^ 52 * 2 ^ j ≠ 0 := by positivity
  have hlast : fpLastBit binary64 (-52 - j + (2 ^ 52 * 2 ^ j).log2) = -52 := by
    rw [log2_mul_pow (by norm_num), Nat.log2_two_pow, Nat.cast_add, fpLastBit,
      show -52 - (j : Int) + ((52 : Nat) + j) = 0 by omega]
    decide
  have hup : (-52 - (j : Int) - -52).toNat = 0 := by omega
  have hdown : (-52 - (-52 - (j : Int))).toNat = j := by omega
  simp only [fpRound, if_neg hm, hlast, hup, hdown, pow_zero, Nat.mul_one, shiftNearestEven_mul_pow]
  cases neg <;> decide

theorem fpQuotient_self (neg : Bool) {n : Nat} (hn : n ≠ 0) (g : Int) : fpQuotient neg n g n g = .fin neg 1 0 := by
  have hsig : 2 * 2 ^ (55 + n.log2) = 2 ^ 52 * 2 ^ (4 + n.log2) := by rw [← pow_add, ← pow_succ']; congr 1; omega
  have hexp : g - g - ((55 + n.log2 : Nat) : Int) - 1 = -52 - ((4 + n.log2 : Nat) : Int) := by omega
  simp only [fpQuotient, Nat.mul_mod_right, if_true, Nat.add_zero, Nat.mul_div_cancel_left _ (Nat.pos_of_ne_zero hn),
    hsig, hexp, fpRound_one]

/-- A finite number that is not zero, under its opposite, is -1. -/
theorem div64_neg_self {n : Nat} (hn : n ≠ 0) (s : Bool) (g : Int) :
    div64 (fpNeg (.fin s n g)) (.fin s n g) = .fin true 1 0 := by
  simp only [fpNeg, div64, if_neg hn, fpQuotient_self _ hn, Bool.not_xor_self]

/-! ### The statements -/

theorem scoreT_zero {S : Nat} (hS : S ≠ 0) (htop : S.log2 < 1023) : scoreT 0 S = fpNeg fpOne := by
  obtain ⟨n, g, h, hn⟩ := fpOfInt_finite hS htop
  have hnum : 2 * ((0 : Nat) : Int) - (S : Int) = -S := by omega
  rw [scoreT, hnum, fpOfInt_neg_natCast hS, h, div64_neg_self hn]
  decide

/-- Settles O52: -S over S is -1, and the weight at t = -1 is a computation of constants. -/
theorem weightFormulaAtOffsetZero : Obligations.WeightFormulaAtOffsetZero := by
  intro S h1 hlt
  have hS : S ≠ 0 := by omega
  have ht : scoreT 0 S = fpNeg fpOne := scoreT_zero hS (((Nat.log2_lt hS).2 hlt).trans (by norm_num))
  have hw : scoreWeight 0 S = fpC075 := by
    rw [scoreWeight, ht]
    decide
  exact ⟨ht, hw, hw.symm⟩

theorem fpEps_eq : fpEps = .fin false 4835703278458517 (-82) := by decide

/-- No positive integer is below EPS, for it is at least 1. -/
theorem fpOfInt_not_lt_fpEps {q : Nat} (hq : q ≠ 0) : ¬ lt64 (fpOfInt q) fpEps = true := by
  rw [fpEps_eq]
  obtain h | ⟨n, g, h, hge⟩ := fpOfInt_ge_one hq
  · rw [h]
    exact Bool.false_ne_true
  · rw [h, lt64_fin_iff, not_lt]
    exact le_trans (by norm_num [fpRat]) hge

/-- Settles O53: the floor is the comparison with EPS, which only the integer 0 is below. -/
theorem nearZeroNormalizerIsFloored : Obligations.NearZeroNormalizerIsFloored := by
  refine ⟨fun n h => if_pos h, fun n h => if_neg (Bool.eq_false_iff.1 h), if_neg (by decide), fun q => ⟨?_, ?_⟩,
    by decide, by decide⟩
  · exact fun h => not_not.1 fun hq => fpOfInt_not_lt_fpEps hq h
  · rintro rfl
    decide

end Sys2Proof.Machine
end

section
/-! PROOFS. The decoder inverted: what an accepted word says of its fields, and that these fields are the whole word
(30_encoding.md R90 to R95). -/

namespace Sys2Proof

/-- Settles O1: each field of the encoder's word is the command's. -/
theorem encodeThenDecode : Obligations.EncodeThenDecode := fun _ h => decode_encode h

/-! ### Accepted words -/

section
variable {w : Word} {i j : Instr}

theorem decodeFixedChannels_command (h : decodeFixedChannels w i = .command j) :
    chField w = 0 ∧ nmField w = false ∧ j = i := by
  unfold decodeFixedChannels at h
  split at h
  · cases h
  · rename_i hch
    split at h
    · cases h
    · rename_i hnm
      cases h
      exact ⟨not_not.1 hch, Bool.eq_false_iff.2 hnm, rfl⟩

/-- Everything an accepted word can be, by its fields. -/
theorem decode_command_cases (h : decode w = .command i) : rsvField w = 0 ∧
    ((opField w = 1 ∧ chField w = 0 ∧ nmField w = false ∧ i = .firMono) ∨
      (opField w = 2 ∧ chField w = 0 ∧ nmField w = false ∧ i = .firStereo) ∨
      (opField w = 3 ∧ nmField w = false ∧ i = .firMulti (chField w)) ∨
      (opField w = 4 ∧ i = .corrSearch (chField w) (normModeOf (nmField w)))) := by
  have legal := mt (decode_illegal_iff (w := w)).2 (by rintro ⟨why, hw⟩; rw [h] at hw; cases hw)
  have hr : rsvField w = 0 := by by_contra hr; exact legal (.inr (.inl hr))
  have hop : opField w ≠ 0 ∧ opField w < 5 := by
    constructor
    · exact fun h0 => legal (.inl (.inl h0))
    · exact Nat.lt_of_not_le fun h5 => legal (.inl (.inr h5))
  refine ⟨hr, ?_⟩
  obtain ho | ho | ho | ho : opField w = 1 ∨ opField w = 2 ∨ opField w = 3 ∨ opField w = 4 := by omega
  · rw [decode_of_opField_one hr ho] at h
    exact .inl ⟨ho, decodeFixedChannels_command h⟩
  · rw [decode_of_opField_two hr ho] at h
    exact .inr (.inl ⟨ho, decodeFixedChannels_command h⟩)
  · rw [decode_of_opField_three hr ho] at h
    cases hnm : nmField w <;> rw [hnm] at h <;> cases h
    exact .inr (.inr (.inl ⟨ho, rfl, rfl⟩))
  · rw [decode_of_opField_four hr ho] at h
    cases h
    exact .inr (.inr (.inr ⟨ho, rfl⟩))

end

/-! ### The word of its fields -/

theorem normModeOf_nmField_bit (w : Word) : (normModeOf (nmField w)).bit = w.toNat / 256 % 2 := by
  rw [nmField_eq]
  by_cases h : w.toNat / 256 % 2 = 1
  · rw [decide_eq_true h, h]; rfl
  · rw [decide_eq_false h]; change 0 = _; omega

theorem chField_lt (w : Word) : chField w < 16 := by rw [chField_eq]; omega

/-- Settles O2: the encoder's word has the fields of the accepted one, and a word is its fields. -/
theorem decodeThenEncode : Obligations.DecodeThenEncode := by
  intro w i h
  have hbit := normModeOf_nmField_bit w
  have hch := chField_lt w
  obtain ⟨hr, h⟩ := decode_command_cases h
  rw [rsvField_eq] at hr
  rw [opField_eq, chField_eq] at *
  obtain ⟨ho, hc, hn, rfl⟩ | ⟨ho, hc, hn, rfl⟩ | ⟨ho, hn, rfl⟩ | ⟨ho, rfl⟩ := h
  · rw [hn] at hbit
    refine ⟨rfl, BitVec.eq_of_toNat_eq ?_⟩
    change 1 = _; change 0 = _ at hbit; omega
  · rw [hn] at hbit
    refine ⟨rfl, BitVec.eq_of_toNat_eq ?_⟩
    change 2 = _; change 0 = _ at hbit; omega
  · rw [hn] at hbit
    refine ⟨decide_eq_true hch, BitVec.eq_of_toNat_eq ?_⟩
    rw [encode_firMulti_toNat hch]
    change 0 = _ at hbit; omega
  · refine ⟨decide_eq_true hch, BitVec.eq_of_toNat_eq ?_⟩
    rw [encode_corrSearch_toNat _ hch, hbit]
    omega

/-- Settles O4: the decoder's answer to each word of the table. -/
theorem specWordsDecode : Obligations.SpecWordsDecode := by
  refine ⟨?_, ?_, ?_, ?_, ?_, ?_, ?_, ?_⟩ <;> decide

end Sys2Proof
end

section
/-! PROOFS. The static checks over the integers, and the two completions that touch no data memory: a static error and a
FIR command with nothing to do (40_control.md R128 to R130; 20_memory.md R64 to R67; 41_fir.md R151). -/

namespace Sys2Proof.Machine

/-! ### Regions whose size is an integer, a negative one being empty -/

section
variable {a b n k : Nat} {y z : ℤ}

theorem leavesSpace_iff (hn : n = z.toNat) : Region.leavesSpace ⟨b, n⟩ = true ↔ z > 0 ∧ (b : ℤ) + z > 2 ^ 32 := by
  simp only [Region.leavesSpace, Bool.and_eq_true, decide_eq_true_eq]
  omega

theorem meets_iff (hn : n = z.toNat) (hk : k = y.toNat) :
    Region.meets ⟨a, n⟩ ⟨b, k⟩ = true ↔ z > 0 ∧ y > 0 ∧ (a : ℤ) < b + y ∧ (b : ℤ) < a + z := by
  simp only [Region.meets, Bool.and_eq_true, decide_eq_true_eq]
  omega

end

/-! ### The sizes of the regions (20_memory.md R64, R65) -/

section
variable (p : Params) (c esz : Nat)

theorem outputs_eq_zero_iff : p.outputs = 0 ↔ ¬ (p.count.toNat : ℤ) - p.len.toNat > 0 := by
  unfold Params.outputs
  omega

theorem firSource_size : (firSource p c esz).size =
    (if (p.count.toNat : ℤ) - p.len.toNat > 0 then ((p.count.toNat : ℤ) - 1) * c * esz else 0).toNat := by
  have hout := outputs_eq_zero_iff p
  unfold firSource
  by_cases h : (p.count.toNat : ℤ) - p.len.toNat > 0
  · have hcast : ((p.count.toNat : ℤ) - 1) * c * esz = ((p.count.toNat - 1) * c * esz : Nat) := by
      push_cast [Nat.cast_sub (show 1 ≤ p.count.toNat by omega)]
      rfl
    rw [if_pos h, hcast, Int.toNat_natCast, if_neg (by rwa [hout, not_not])]
  · rw [if_neg h, if_pos (hout.2 h)]
    rfl

theorem firCoef_size : (firCoef p esz).size =
    (if (p.count.toNat : ℤ) - p.len.toNat > 0 then (p.len.toNat : ℤ) * esz else 0).toNat := by
  have hout := outputs_eq_zero_iff p
  unfold firCoef
  by_cases h : (p.count.toNat : ℤ) - p.len.toNat > 0
  · rw [if_pos h, if_neg (by rwa [hout, not_not]), ← Nat.cast_mul, Int.toNat_natCast]
  · rw [if_neg h, if_pos (hout.2 h)]
    rfl

theorem firDest_size : (firDest p c esz).size =
    (if (p.count.toNat : ℤ) - p.len.toNat > 0 then ((p.count.toNat : ℤ) - p.len.toNat) * c * esz else 0).toNat := by
  change p.outputs * c * esz = _
  by_cases h : (p.count.toNat : ℤ) - p.len.toNat > 0
  · have hcast : ((p.count.toNat : ℤ) - p.len.toNat) * c * esz = (p.outputs * c * esz : Nat) := by
      rw [Params.outputs]
      push_cast [Nat.cast_sub (show p.len.toNat ≤ p.count.toNat by omega)]
      rfl
    rw [if_pos h, hcast, Int.toNat_natCast]
  · rw [if_neg h, (outputs_eq_zero_iff p).2 h, Nat.zero_mul, Nat.zero_mul]
    rfl

/-- Truncated subtraction answers the empty region where R65's formula is negative. -/
theorem corrReference_size : (corrReference p c esz).size =
    ((((p.count.toNat : ℤ) - 1) * c + c * p.len.toNat) * esz).toNat := by
  have hsub : ((p.count.toNat : ℤ) - 1) * c + c * p.len.toNat =
      ((p.count.toNat * c + c * p.len.toNat : Nat) : ℤ) - (c : ℤ) := by push_cast; ring
  change (p.count.toNat * c + c * p.len.toNat - c) * esz = _
  rw [hsub]
  generalize p.count.toNat * c + c * p.len.toNat = x
  by_cases h : c ≤ x
  · rw [← Nat.cast_sub h, ← Nat.cast_mul, Int.toNat_natCast]
  · rw [Nat.sub_eq_zero_of_le (by omega), Nat.zero_mul, Int.toNat_of_nonpos]
    exact mul_nonpos_of_nonpos_of_nonneg (by omega) (by omega)

theorem corrCompare_size : (corrCompare p c esz).size = ((c : ℤ) * p.len.toNat * esz).toNat := by
  rw [← Nat.cast_mul, ← Nat.cast_mul, Int.toNat_natCast]
  rfl

end

/-! ### The checks -/

/-- Settles O28: the conditions one by one, the regions by the integer their size is. -/
theorem staticChecksInOrder : Obligations.StaticChecksInOrder := by
  intro i p esz hesz C L N src dst coef srcSize coefSize dstSize
  refine if_congr Int.natCast_eq_zero.symm rfl ?_
  cases hi : i.isFir with
  | true =>
    have hsrc : (firSource p i.channels esz).size = srcSize.toNat := by
      simp only [srcSize, hi, if_true]; exact firSource_size ..
    have hcoef : (firCoef p esz).size = coefSize.toNat := by
      simp only [coefSize, hi, if_true]; exact firCoef_size ..
    have hdst : (firDest p i.channels esz).size = dstSize.toNat := by
      simp only [dstSize, hi, if_true]; exact firDest_size ..
    simp only [usedBases, destRegion, readRegions, hi, if_true, List.any_cons, List.any_nil, Bool.or_eq_true,
      Bool.false_eq_true, or_false, Bool.true_and, Bool.not_true, Bool.false_and, if_false, true_and, not_true,
      false_and,
      decide_eq_true_eq]
    refine if_congr (by omega) rfl (if_congr (by omega) rfl (if_congr ?_ rfl (if_congr ?_ rfl (if_congr ?_ rfl rfl))))
    · obtain rfl | rfl := hesz <;> omega
    · rw [← leavesSpace_iff hsrc, ← leavesSpace_iff hcoef, ← leavesSpace_iff hdst]
      exact ⟨fun h => by tauto, fun h => by tauto⟩
    · refine (or_congr (meets_iff hdst hsrc) (meets_iff hdst hcoef)).trans ?_
      tauto
  | false =>
    have hsrc : (corrReference p i.channels esz).size = srcSize.toNat := by
      simp only [srcSize, hi, Bool.false_eq_true, if_false]; exact corrReference_size ..
    have hcoef : (corrCompare p i.channels esz).size = coefSize.toNat := by
      simp only [coefSize, hi, Bool.false_eq_true, if_false]; exact corrCompare_size ..
    have hdst : dstSize = 0 := by simp only [dstSize, hi, Bool.false_eq_true, if_false]
    have hno (b : Nat) : Region.leavesSpace ⟨b, 0⟩ = false := rfl
    have hnone (b : Nat) (r : Region) : Region.meets ⟨b, 0⟩ r = false := rfl
    simp only [usedBases, destRegion, readRegions, hi, List.any_cons, List.any_nil, Bool.or_eq_true,
      Bool.false_eq_true, or_false, false_or, Bool.true_and, Bool.not_false, Bool.false_and, if_false, false_and,
      not_false_iff, true_and, decide_eq_true_eq, hno, hnone, hdst, gt_iff_lt, lt_irrefl]
    refine if_congr (by omega) rfl (if_congr (by omega) rfl (if_congr (by omega) rfl (if_congr ?_ rfl
      (if_congr ?_ rfl rfl))))
    · obtain rfl | rfl := hesz <;> omega
    · exact or_congr (leavesSpace_iff hsrc) (leavesSpace_iff hcoef)

/-- The codes of the static checks (60_exceptions.md R240). -/
theorem staticCheck_code_mem {i : Instr} {p : Params} {esz : Nat} {code : ErrCode}
    (h : staticCheck i p esz = some code) : code ∈ [ErrCode.badChannels, .badLength, .badSeek, .badOvl, .nullAddr,
      .misaligned, .range, .overlap] := by
  unfold staticCheck at h
  split_ifs at h <;> cases h <;> decide

/-- A command that passes the static checks keeps its destination in the address space (20_memory.md R66). -/
theorem destRegion_in_space {i : Instr} {p : Params} {esz : Nat} (h : staticCheck i p esz = none) :
    (destRegion i p esz).base + (destRegion i p esz).size ≤ 4294967296 := by
  have hbase : (destRegion i p esz).base < 4294967296 := by
    unfold destRegion
    split <;> exact p.dstAddr.isLt
  have hleaves : ¬ (destRegion i p esz).leavesSpace = true := by
    intro hl
    unfold staticCheck at h
    simp only [List.any_cons, hl, Bool.true_or, if_true] at h
    split_ifs at h
  simp only [Region.leavesSpace, Bool.and_eq_true, decide_eq_true_eq] at hleaves
  omega

/-! ### Completions without an access -/

theorem exec_of_staticCheck_some {i : Instr} {s : State} {code : ErrCode} (h : staticCheck i s.P s.esz = some code) :
    exec i s = .next (completeErr s code 0) := by
  cases i with
  | corrSearch c nm => simp only [exec_corrSearch, completeCorr, h]
  | firMono => simp only [exec_firMono, completeFir, h]
  | firStereo => simp only [exec_firStereo, completeFir, h]
  | firMulti c => simp only [exec_firMulti, completeFir, h]

/-- Settles O29: the completion is `completeErr` with the check's code. -/
theorem staticErrorCompletes : Obligations.StaticErrorCompletes := by
  intro i s code h
  have hcode : code ≠ .noError ∧ code ≠ .bus ∧ code ≠ .accOvf := by
    have hmem := staticCheck_code_mem h
    refine ⟨?_, ?_, ?_⟩ <;> rintro rfl <;> revert hmem <;> decide
  obtain ⟨hnone, hbus, hovf⟩ := hcode
  exact ⟨_, exec_of_staticCheck_some h, completeErr_failed .., hnone, hbus, hovf, rfl, rfl, rfl,
    completeErr_keepsRest ..⟩

/-- Settles O30: without an output position the command is `completeOk` with 0. -/
theorem firWithNothingToDo : Obligations.FirWithNothingToDo := by
  intro i s hi hcheck hle
  have hrun : completeFir i s = completeOk s 0 := by
    simp only [completeFir, hcheck, runFir, Params.outputs, Nat.sub_eq_zero_of_le hle, if_true]
  refine ⟨_, exec_of_isFir hi s, ?_⟩
  rw [hrun]
  exact ⟨completeOk_succeeded .., rfl, rfl, completeOk_keepsRest ..⟩

end Sys2Proof.Machine
end

section
/-! PROOFS. The invariant of the machine: one lemma for each way a step changes the state, and from them that every step
keeps it (10_state.md sections 1 and 3; 40_control.md sections 1 to 4; 60_exceptions.md sections 1 and 3). -/

namespace Sys2Proof.Machine

/-! ### The internal registers -/

/-- The internal registers hold values of their widths (10_state.md R39 to R41). -/
structure Hidden.Fits (h : Hidden) (w : AccBits) : Prop where
  acc   : ∀ k, (hk : k < 16) → (h.acc[k]).fits w = true
  recip : fpFits binary64 h.recip = true
  norm  : h.norm.fits = true
  best  : fpFits binary64 h.bestScore = true

theorem EngineInv.hidden_fits {s : State} (h : EngineInv s) : s.hidden.Fits s.cfg.accBits :=
  ⟨h.acc, h.recip, h.norm, h.best⟩

theorem Hidden.reset_fits (w : AccBits) : Hidden.reset.Fits w := by
  refine ⟨fun k hk => ?_, fits_posZero _, rfl, fits_posZero _⟩
  have hacc : Hidden.reset.acc[k] = .fixed 0 := Vector.getElem_replicate hk
  rw [hacc]
  cases w <;> decide

theorem firHidden_fits {s : State} (h : s.hidden.Fits s.cfg.accBits) {acc : Vector AccReg 16}
    (ha : ∀ k, (hk : k < 16) → (acc[k]).fits s.cfg.accBits = true) : (firHidden s acc).Fits s.cfg.accBits := by
  refine ⟨ha, ?_, h.norm, h.best⟩
  cases hm : s.cfg.sampleMode <;> simp only [firHidden, hm]
  · exact h.recip
  · exact div64_fits ..

theorem corrRun_fits {s : State} (h : s.hidden.Fits s.cfg.accBits) (c : Nat) (nm : NormMode) :
    (corrRun c nm s).hidden.Fits s.cfg.accBits := by
  have fits {α : Type} (q : Search α) (hq : q.arith.Fits) (n : Nat) :
      (q.scan n 0 [] s.hidden).hidden.Fits s.cfg.accBits := by
    obtain ⟨hnorm, hbest, hacc, hrecip⟩ := scan_hidden_fits (n := n) (i := 0) (prev := []) hq h.norm h.best
    exact ⟨hacc ▸ h.acc, hrecip ▸ h.recip, hnorm, hbest⟩
  unfold corrRun
  split
  · exact fits _ corrFixed_fits _
  · exact fits _ corrFloat_fits _

/-! ### What each shared update keeps -/

section
variable {s : State}

/-- Registers, M0 and internal registers at their reset values meet the invariant over any well-formed memory. -/
theorem EngineInv.of_reset (hregs : s.regs = .reset) (hphase : s.phase = .idle) (hm0 : s.m0 = .reset)
    (hhidden : s.hidden = .reset) (hmem : s.mem.wf = true) : EngineInv s := by
  obtain ⟨hacc, hrecip, hnorm, hbest⟩ := Hidden.reset_fits s.cfg.accBits
  constructor
  case memWf => exact hmem
  case m0Wf => rw [hm0]; rfl
  case busy => rw [hphase]; exact fun h => by cases h
  case code => rw [hregs]; decide
  case errResult => rw [hregs]; exact fun _ => rfl
  case errAddr => rw [hregs]; exact fun _ _ => rfl
  case acc => rw [hhidden]; exact hacc
  case recip => rw [hhidden]; exact hrecip
  case norm => rw [hhidden]; exact hnorm
  case best => rw [hhidden]; exact hbest

/-- What a run leaves in memory and the internal registers. -/
theorem EngineInv.withRun (h : EngineInv s) {mem : Memory} {hidden : Hidden} (hmem : mem.wf = true)
    (hfits : hidden.Fits s.cfg.accBits) : EngineInv { s with hidden := hidden, mem := mem } :=
  ⟨hmem, h.m0Wf, h.busy, h.code, h.errResult, h.errAddr, hfits.acc, hfits.recip, hfits.norm, hfits.best⟩

theorem EngineInv.mark (h : EngineInv s) (k : MarkKind) (base size : Nat) : EngineInv (s.mark k base size) := by
  constructor <;> simp only [mark_mem, mark_m0, mark_phase, mark_regs, mark_hidden, mark_cfg]
  exacts [h.memWf, h.m0Wf, h.busy, h.code, h.errResult, h.errAddr, h.acc, h.recip, h.norm, h.best]

theorem EngineInv.completeOk (h : EngineInv s) (v : Nat) : EngineInv (completeOk s v) where
  memWf := h.memWf
  m0Wf := h.m0Wf
  busy := fun hp => by cases hp
  code := iff_of_true rfl rfl
  errResult := fun he => by cases he
  errAddr := fun he => by cases he
  acc := h.acc
  recip := h.recip
  norm := h.norm
  best := h.best

theorem EngineInv.completeErr (h : EngineInv s) {code : ErrCode} {addr : Nat} (hcode : code ≠ .noError)
    (haddr : code ≠ .bus → addr = 0) : EngineInv (completeErr s code addr) where
  memWf := h.memWf
  m0Wf := h.m0Wf
  busy := fun hp => by cases hp
  code := iff_of_false Bool.noConfusion hcode
  errResult := fun _ => rfl
  errAddr := fun _ hb => by rw [completeErr_regs_errAddr, haddr hb]
  acc := h.acc
  recip := h.recip
  norm := h.norm
  best := h.best

theorem EngineInv.completeErr_run (h : EngineInv s) (e : RunError) :
    EngineInv (Machine.completeErr s e.code e.addr) := by
  cases e with
  | bus a => exact h.completeErr ErrCode.noConfusion fun hb => absurd rfl hb
  | accOvf => exact h.completeErr ErrCode.noConfusion fun _ => rfl

theorem EngineInv.acceptStart (h : EngineInv s) : EngineInv (acceptStart s) where
  memWf := h.memWf
  m0Wf := h.memWf
  busy := fun _ => ⟨rfl, rfl, rfl, rfl⟩
  code := iff_of_true rfl rfl
  errResult := fun he => by cases he
  errAddr := fun he => by cases he
  acc := h.acc
  recip := h.recip
  norm := h.norm
  best := h.best

/-- Registers that agree on the flags and answers of the last command meet the invariant together. -/
theorem EngineInv.withRegs (h : EngineInv s) {g : Regs} (hdone : g.done = s.regs.done) (herr : g.err = s.regs.err)
    (hcode : g.errCode = s.regs.errCode) (hresult : g.result = s.regs.result) (haddr : g.errAddr = s.regs.errAddr) :
    EngineInv { s with regs := g } where
  memWf := h.memWf
  m0Wf := h.m0Wf
  busy := by rw [hdone, herr, hresult, haddr]; exact h.busy
  code := by rw [herr, hcode]; exact h.code
  errResult := by rw [herr, hresult]; exact h.errResult
  errAddr := by rw [herr, hcode, haddr]; exact h.errAddr
  acc := h.acc
  recip := h.recip
  norm := h.norm
  best := h.best

/-- Clearing ERR clears ERR_CODE with it (40_control.md R126). -/
theorem EngineInv.clearStatus (h : EngineInv s) (v : Word) : EngineInv (clearStatus s v) where
  memWf := h.memWf
  m0Wf := h.m0Wf
  busy := fun hp => by
    obtain ⟨hdone, herr, hresult, haddr⟩ := h.busy hp
    exact ⟨by rw [clearStatus_regs_done, hdone, Bool.false_and], by rw [clearStatus_regs_err, herr, Bool.false_and],
      hresult, haddr⟩
  code := by
    rw [clearStatus_regs_err, clearStatus_regs_errCode]
    cases v.getLsbD 2 with
    | true => simp
    | false => simpa using h.code
  errResult := fun he => h.errResult (Bool.and_elim_left he)
  errAddr := fun he hc => by
    rw [clearStatus_regs_err, Bool.and_eq_true, Bool.not_eq_true'] at he
    rw [clearStatus_regs_errCode, he.2] at hc
    exact h.errAddr he.1 hc
  acc := h.acc
  recip := h.recip
  norm := h.norm
  best := h.best

/-! ### Register writes -/

theorem EngineInv.writeCtrl (h : EngineInv s) (v : Word) : EngineInv (writeCtrl s v) := by
  obtain ⟨-, hw⟩ | ⟨-, -, hw⟩ | ⟨-, -, hw⟩ := writeCtrl_cases s v <;> rw [hw]
  · exact h.withRegs rfl rfl rfl rfl rfl
  · exact (h.withRegs (g := { s.regs with irqEn := v.getLsbD 1 }) rfl rfl rfl rfl rfl).acceptStart
  · exact h.withRegs rfl rfl rfl rfl rfl

theorem EngineInv.writeOffset (h : EngineInv s) (off : Nat) (v : Word) : EngineInv (writeOffset s off v) := by
  obtain hw | ⟨r, -, hw⟩ := writeOffset_cases s off v <;> rw [hw]
  · exact h
  · obtain ⟨hw, -⟩ | ⟨hw, -⟩ | ⟨-, -, g, hw, -, hdone, herr, -, hcode, hresult, haddr⟩ := writeRegister_cases s v r <;>
      rw [hw]
    · exact h.clearStatus v
    · exact h.writeCtrl v
    · exact h.withRegs hdone herr hcode hresult haddr

/-! ### Commands -/

theorem firRun_wf (h : EngineInv s) {i : Instr} (hi : i.isFir = true) (hcheck : staticCheck i s.P s.esz = none) :
    (firRun s i.channels).mem.wf = true := by
  have hspace := destRegion_in_space hcheck
  simp only [destRegion, hi, if_true, firDest] at hspace
  exact firLoop_wf h.memWf (by rw [Nat.zero_add, destElem]; exact hspace)

/-- Memory stays canonical because a checked destination lies in the address space (20_memory.md R66). -/
theorem EngineInv.completeFir (h : EngineInv s) {i : Instr} (hi : i.isFir = true) : EngineInv (completeFir i s) := by
  obtain ⟨code, hcheck, hc⟩ | ⟨-, -, hc⟩ | ⟨hcheck, -, hc⟩ := completeFir_cases i s <;> rw [hc]
  · refine h.completeErr ?_ fun _ => rfl
    rintro rfl
    exact absurd (staticCheck_code_mem hcheck) (by decide)
  · exact h.completeOk 0
  · refine EngineInv.mark ?_ ..
    have hwf := firRun_wf h hi hcheck
    have hfits := firHidden_fits h.hidden_fits
      (firLoop_acc_fits (c := i.channels) (n := s.P.outputs * i.channels) (e := 0)
        (r := { mem := s.mem, acc := s.hidden.acc, fail := none }) h.acc)
    obtain ⟨-, hf⟩ | ⟨e, err, -, hf⟩ := firFinish_cases s i.channels (firRun s i.channels) <;> rw [hf]
    · exact (h.withRun hwf hfits).completeOk _
    · exact (h.withRun (Memory.wf_scramble _ _ _ hwf) hfits).completeErr_run err

theorem EngineInv.completeCorr (h : EngineInv s) (c : Nat) (nm : NormMode) : EngineInv (completeCorr c nm s) := by
  have hrun := h.withRun h.memWf (corrRun_fits h.hidden_fits c nm)
  obtain ⟨code, hcheck, hc⟩ | ⟨-, -, hc⟩ | ⟨e, -, -, hc⟩ := completeCorr_cases c nm s <;> rw [hc]
  · refine h.completeErr ?_ fun _ => rfl
    rintro rfl
    exact absurd (staticCheck_code_mem hcheck) (by decide)
  · exact hrun.completeOk _
  · exact hrun.completeErr_run e

theorem EngineInv.exec (h : EngineInv s) {i : Instr} {t : State} (ht : exec i s = .next t) : EngineInv t := by
  cases i with
  | corrSearch c nm => cases ht; exact h.completeCorr c nm
  | firMono => cases ht; exact h.completeFir rfl
  | firStereo => cases ht; exact h.completeFir rfl
  | firMulti c => cases ht; exact h.completeFir rfl

theorem EngineInv.engineTurn (h : EngineInv s) {t : State} (ht : engineTurn s = .next t) : EngineInv t := by
  obtain ⟨-, rfl⟩ | ⟨-, -, -, rfl⟩ | ⟨-, i, -, hx⟩ := engineTurn_cases ht
  · exact h
  · exact h.completeErr (by decide) fun _ => rfl
  · exact h.exec hx

/-! ### Events and steps -/

/-- The lists of the outside world and the draw number are no part of the invariant. -/
theorem EngineInv.withOutside (h : EngineInv s) (agenda : List Event) (replies : List Reply) (draws : Nat) :
    EngineInv { s with agenda := agenda, replies := replies, draws := draws } :=
  ⟨h.memWf, h.m0Wf, h.busy, h.code, h.errResult, h.errAddr, h.acc, h.recip, h.norm, h.best⟩

theorem EngineInv.platformReset (h : EngineInv s) : EngineInv (platformReset s) :=
  .of_reset (platformReset_regs s) (platformReset_phase s) (platformReset_m0 s) (platformReset_hidden s)
    (by rw [platformReset_mem]; exact Memory.wf_scramble _ _ _ h.memWf)

theorem EngineInv.runEvent (h : EngineInv s) {e : Event} {t : State} (ht : runEvent e s = .next t) : EngineInv t := by
  obtain ⟨_, _, v, -, -, rfl⟩ | ⟨_, _, -, -, rfl⟩ | ⟨_, bytes, -, hspace, -, rfl⟩ | ⟨_, _, -, -, rfl⟩ | ⟨-, rfl⟩ |
    ⟨_, _, -, rfl⟩ | ⟨_, _, -, rfl⟩ | ⟨-, he⟩ | ⟨-, rfl⟩ := runEvent_cases ht
  · exact h.writeOffset ..
  · exact h.withOutside ..
  · exact (h.withRun (Memory.wf_writeBytes bytes h.memWf (of_decide_eq_true hspace)) h.hidden_fits).mark ..
  · exact h.withOutside ..
  · exact h.withOutside ..
  · exact h.mark ..
  · exact h.mark ..
  · exact h.engineTurn he
  · exact h.platformReset

end

/-- Settles O22: with nothing pending the step is the engine's turn, else the first event of the agenda. -/
theorem stepKeepsInvariant : Obligations.StepKeepsInvariant := by
  intro s t h ht
  cases ha : s.agenda with
  | nil => rw [step_nil ha] at ht; exact h.engineTurn ht
  | cons e rest => rw [step_cons ha] at ht; exact (h.withOutside rest s.replies s.draws).runEvent ht

/-- Settles O21: every field the invariant speaks of is at its reset value, and memory has no entry. -/
theorem resetMeetsInvariant : Obligations.ResetMeetsInvariant :=
  ⟨.of_reset rfl rfl rfl rfl rfl, fun _ => .of_reset rfl rfl rfl rfl rfl⟩

end Sys2Proof.Machine
end

section
/-! PROOFS. The engine's turn, the interrupt output, reset, and what a step can and cannot do to phase and parameters
(10_state.md R23, R35; 40_control.md R127 to R133; 60_exceptions.md R247, R248, R255; 70_reset_and_hazards.md R270,
R271). -/

namespace Sys2Proof.Machine

section
variable {s t : State}

/-! ### The engine's turn -/

theorem engineTurn_idle (hp : s.phase = .idle) : engineTurn s = .next s := by simp only [engineTurn, hp]

theorem engineTurn_command {i : Instr} (hp : s.phase = .busy) (hd : decode s.P.cmd = .command i) :
    engineTurn s = exec i s := by simp only [engineTurn, hp, hd]

/-- Settles O6: a BUSY engine's turn at a legal word. -/
theorem stepRunsDecodedCommand : Obligations.StepRunsDecodedCommand := fun s _ hp hd =>
  ⟨fun ha => (step_nil ha).trans (engineTurn_command hp hd),
    (step_thenDoes s .engine).trans (engineTurn_command hp hd)⟩

theorem withFetchWord_eq (s : State) (w : Word) : s.withFetchWord 32 w.toNat =
    (acceptStart { s with regs := { s.regs with cmd := w } }).thenDoes .engine := by
  rw [State.withFetchWord, Nat.mod_eq_of_lt w.isLt, BitVec.ofNat_toNat, BitVec.setWidth_eq]
  rfl

/-- Settles O7: the placed word is the latched one of an accepted start, with the engine's turn next. -/
theorem placedWordRunsNext : Obligations.PlacedWordRunsNext := by
  intro s w i hd
  have hturn :=
    engineTurn_command (s := acceptStart { s with regs := { s.regs with cmd := w } }) (acceptStart_phase _) hd
  exact ((congrArg step (withFetchWord_eq s w)).trans (step_thenDoes _ .engine)).trans hturn

theorem completeFir_completes (i : Instr) (s : State) :
    (completeFir i s).phase = .idle ∧ (completeFir i s).regs.done = true := by
  obtain ⟨_, -, h⟩ | ⟨-, -, h⟩ | ⟨-, -, h⟩ := completeFir_cases i s <;> rw [h]
  · exact ⟨rfl, rfl⟩
  · exact ⟨rfl, rfl⟩
  · rw [mark_phase, mark_regs]
    obtain ⟨-, h⟩ | ⟨_, _, -, h⟩ := firFinish_cases s i.channels (firRun s i.channels) <;> rw [h] <;> exact ⟨rfl, rfl⟩

theorem completeCorr_completes (c : Nat) (nm : NormMode) (s : State) :
    (completeCorr c nm s).phase = .idle ∧ (completeCorr c nm s).regs.done = true := by
  obtain ⟨_, -, h⟩ | ⟨-, -, h⟩ | ⟨_, -, -, h⟩ := completeCorr_cases c nm s <;> rw [h] <;> exact ⟨rfl, rfl⟩

/-- However a command ends, it ends IDLE with DONE, and keeps all that is not its own (40_control.md R129, R130). -/
theorem exec_completes {i : Instr} (h : exec i s = .next t) :
    t.phase = .idle ∧ t.regs.done = true ∧ KeepsRest s t := by
  cases i with
  | corrSearch c nm => cases h; exact and_assoc.1 ⟨completeCorr_completes c nm s, completeCorr_keepsRest c nm s⟩
  | firMono => cases h; exact and_assoc.1 ⟨completeFir_completes _ s, completeFir_keepsRest _ s⟩
  | firStereo => cases h; exact and_assoc.1 ⟨completeFir_completes _ s, completeFir_keepsRest _ s⟩
  | firMulti c => cases h; exact and_assoc.1 ⟨completeFir_completes _ s, completeFir_keepsRest _ s⟩

theorem engineTurn_completes (hp : s.phase = .busy) :
    ∃ t, engineTurn s = .next t ∧ t.phase = .idle ∧ t.regs.done = true ∧ KeepsRest s t := by
  cases hd : decode s.P.cmd with
  | illegal why => exact ⟨_, engineTurn_illegal hp hd, rfl, rfl, completeErr_keepsRest ..⟩
  | command i =>
    obtain ⟨t, ht⟩ := exec_isNext i s
    exact ⟨t, (engineTurn_command hp hd).trans ht, exec_completes ht⟩

theorem engineTurn_isNext (s : State) : ∃ t, engineTurn s = .next t := by
  cases hp : s.phase with
  | idle => exact ⟨s, engineTurn_idle hp⟩
  | busy => obtain ⟨t, ht, -⟩ := engineTurn_completes hp; exact ⟨t, ht⟩

/-- Settles O23: the step is the engine's turn, as an event and with nothing pending. -/
theorem busyEngineCompletes : Obligations.BusyEngineCompletes := by
  intro s hp
  obtain ⟨t, ht, hidle, hdone, -⟩ := engineTurn_completes hp
  exact ⟨⟨t, (step_thenDoes s .engine).trans ht, hidle, hdone⟩, fun ha => ⟨t, (step_nil ha).trans ht, hidle, hdone⟩⟩

/-! ### The bits of STATUS -/

theorem statusWord_done (s : State) : s.statusWord.getLsbD 1 = s.regs.done := by
  simp only [State.statusWord, BitVec.getLsbD_append]
  simp

theorem statusWord_err (s : State) : s.statusWord.getLsbD 2 = s.regs.err := by
  simp only [State.statusWord, BitVec.getLsbD_append]
  simp

theorem statusWord_sovr (s : State) : s.statusWord.getLsbD 3 = s.regs.sovr := by
  simp only [State.statusWord, BitVec.getLsbD_append]
  simp

theorem toNat_append_ofBool {n : Nat} (x : BitVec n) (b : Bool) :
    (x ++ BitVec.ofBool b).toNat = 2 * x.toNat + b.toNat := by
  rw [BitVec.toNat_append, ← Nat.shiftLeft_add_eq_or_of_lt (BitVec.isLt _), Nat.shiftLeft_eq, BitVec.toNat_ofBool]
  omega

/-- STATUS as a number: four flags below, the error code from bit 8 on. -/
theorem statusWord_toNat (s : State) : s.statusWord.toNat = s.regs.errCode.bits.toNat * 256 +
    (s.regs.sovr.toNat * 8 + s.regs.err.toNat * 4 + s.regs.done.toNat * 2 + s.isBusy.toNat) := by
  have hcode : (0#20 ++ s.regs.errCode.bits ++ 0#4).toNat = s.regs.errCode.bits.toNat * 16 := by
    cases s.regs.errCode <;> rfl
  simp only [State.statusWord, toNat_append_ofBool, hcode]
  omega

/-- Settles O13: the flags bit by bit, and STATUS as a number for the fields above them. -/
theorem statusBits : Obligations.StatusBits := by
  intro s
  have hnum := statusWord_toNat s
  have hflags : s.regs.sovr.toNat * 8 + s.regs.err.toNat * 4 + s.regs.done.toNat * 2 + s.isBusy.toNat < 16 := by
    have := Bool.toNat_le s.regs.sovr
    have := Bool.toNat_le s.regs.err
    have := Bool.toNat_le s.regs.done
    have := Bool.toNat_le s.isBusy
    omega
  have hcode : s.statusWord.toNat / 256 = s.regs.errCode.bits.toNat := by omega
  refine ⟨?_, statusWord_done s, statusWord_err s, statusWord_sovr s, by omega, ?_, ?_⟩
  · rw [statusWord_busy]; exact decide_eq_true_iff
  · rw [hcode]; cases s.regs.errCode <;> rfl
  · rintro hinv ⟨hbusy, hdone⟩
    rw [statusWord_busy] at hbusy
    rw [statusWord_done, (hinv.busy (of_decide_eq_true hbusy)).1] at hdone
    cases hdone

/-! ### The interrupt output -/

/-- Settles O18: DONE is set by completion, and cleared by the write, the accepted start and reset. -/
theorem interruptFollowsDone : Obligations.InterruptFollowsDone := by
  intro s hb
  refine ⟨Bool.and_eq_true_iff, step_thenDoes .., fun hp => ?_, ⟨_, step_thenWrites hb .status _, clearStatus_irq rfl⟩,
    fun hp => ⟨_, step_thenWrites hb .ctrl _, ?_⟩, ⟨_, step_thenWrites hb .ctrl _, rfl, rfl⟩,
    ⟨_, step_thenDoes s .reset, ?_⟩, rfl⟩
  · obtain ⟨t, ht, -, hdone, hkeeps⟩ := engineTurn_completes hp
    exact ⟨t, (step_thenDoes ..).trans ht, by rw [State.irq, hdone, hkeeps.irqEn, Bool.and_true]⟩
  · rw [writeRegister, writeCtrl_start_idle hp rfl]; rfl
  · rw [State.irq, platformReset_regs]; rfl

/-! ### Reset -/

theorem busyDest_idle (hp : s.phase = .idle) : s.busyDest = ⟨0, 0⟩ := by simp [State.busyDest, State.isBusy, hp]

theorem busyDest_illegal {why : Illegal} (hd : decode s.P.cmd = .illegal why) : s.busyDest = ⟨0, 0⟩ := by
  simp [State.busyDest, State.running, hd]

theorem busyDest_command {i : Instr} (hp : s.phase = .busy) (hd : decode s.P.cmd = .command i) :
    s.busyDest = destRegion i s.P s.esz := by simp [State.busyDest, State.isBusy, State.running, hp, hd]

theorem contains_iff (r : Region) (a : Nat) : r.contains a = true ↔ r.base ≤ a ∧ a < r.base + r.size := inRange_iff ..

theorem contains_eq_false_iff (r : Region) (a : Nat) : r.contains a = false ↔ a < r.base ∨ r.base + r.size ≤ a := by
  rw [Bool.eq_false_iff, Ne, contains_iff]
  omega

/-- Reset keeps memory when there is no destination to free. -/
theorem platformReset_mem_of_noDest (h : s.busyDest = ⟨0, 0⟩) : (platformReset s).mem = s.mem := by
  rw [platformReset_mem, h]; rfl

theorem statusWord_of_reset (hr : s.regs = .reset) (hp : s.phase = .idle) : s.statusWord = 0#32 := by
  rw [State.statusWord, State.isBusy, hr, hp]; rfl

theorem ctrlWord_of_reset (hr : s.regs = .reset) : s.ctrlWord = 0#32 := by rw [State.ctrlWord, hr]; rfl

/-- Settles O19: the registers of `Regs.reset`, and `scramble` over the destination of the running command. -/
theorem resetRestoresRegisters : Obligations.ResetRestoresRegisters := by
  intro s
  refine ⟨_, step_thenDoes s .reset, platformReset_regs s,
    statusWord_of_reset (platformReset_regs s) (platformReset_phase s), platformReset_phase s, ?_,
    readRegister_id_congr (platformReset_cfg s), fun hp a => ?_, fun i hp hd a => ⟨fun ha => ?_, fun ha hlt => ?_⟩,
    fun why _ hd a => ?_⟩
  · rw [State.irq, platformReset_regs]; rfl
  · rw [platformReset_mem_of_noDest (busyDest_idle hp)]
  · rw [platformReset_mem, busyDest_command hp hd]
    exact Memory.byteAt_scramble_outside _ _ ((contains_eq_false_iff ..).1 ha)
  · rw [platformReset_mem, busyDest_command hp hd]
    obtain ⟨hge, hend⟩ := (contains_iff ..).1 ha
    exact Memory.byteAt_scramble_inside _ _ hge hend hlt
  · rw [platformReset_mem_of_noDest (busyDest_illegal hd)]

/-- Settles O20: the values of `Regs.reset`, and the turn of an idle engine. -/
theorem powerOnState : Obligations.PowerOnState := by
  refine fun c => ⟨rfl, rfl, statusWord_of_reset rfl rfl, ctrlWord_of_reset rfl, fun r hid hdiv => ?_, rfl, rfl,
    (step_nil rfl).trans (engineTurn_idle rfl)⟩
  cases r with
  | id => exact absurd rfl hid
  | divider => exact absurd rfl hdiv
  | ctrl => exact ctrlWord_of_reset rfl
  | status => exact statusWord_of_reset rfl rfl
  | shift => exact (by decide : (0#26 ++ 0#6 : Word) = 0#32)
  | _ => rfl

/-! ### What leaves IDLE -/

theorem offset_of_ofOffset {off : Nat} {r : Reg} (h : Reg.ofOffset off = some r) : r.offset = off :=
  of_decide_eq_true (List.find?_some (p := fun r : Reg => decide (r.offset = off)) h)

/-- Of all register writes only an accepted start makes an idle engine BUSY (40_control.md R123). -/
theorem writeOffset_starts {off : Nat} {v : Word} (hp : s.phase = .idle)
    (hb : (writeOffset s off v).phase = .busy) : off = Reg.ctrl.offset ∧ v.getLsbD 0 = true := by
  obtain h | ⟨r, hr, h⟩ := writeOffset_cases s off v <;> rw [h] at hb
  · rw [hp] at hb; cases hb
  · obtain ⟨h, -⟩ | ⟨h, rfl⟩ | ⟨-, -, g, h, -⟩ := writeRegister_cases s v r <;> rw [h] at hb
    · rw [clearStatus_phase, hp] at hb; cases hb
    · refine ⟨(offset_of_ofOffset hr).symm, ?_⟩
      obtain ⟨-, h⟩ | ⟨hv, -⟩ | ⟨hv, -⟩ := writeCtrl_cases s v
      · rw [h] at hb; change s.phase = _ at hb; rw [hp] at hb; cases hb
      · exact hv
      · exact hv
    · change s.phase = _ at hb; rw [hp] at hb; cases hb

theorem runEvent_starts {e : Event} (hp : s.phase = .idle) (h : runEvent e s = .next t) (hb : t.phase = .busy) :
    ∃ v, e = .regWrite (s.cfg.engineBase + Reg.ctrl.offset) 4 v ∧ v.getLsbD 0 = true := by
  have stays {u : State} (hu : u.phase = s.phase) : ¬ u.phase = .busy := by rw [hu, hp]; exact Phase.noConfusion
  obtain ⟨addr, width, v, rfl, ha, rfl⟩ | ⟨_, _, -, -, rfl⟩ | ⟨_, _, -, -, -, rfl⟩ | ⟨_, _, -, -, rfl⟩ | ⟨-, rfl⟩ |
    ⟨_, _, -, rfl⟩ | ⟨_, _, -, rfl⟩ | ⟨-, h⟩ | ⟨-, rfl⟩ := runEvent_cases h
  · obtain ⟨hoff, hv⟩ := writeOffset_starts hp hb
    simp only [blockAccess, Bool.and_eq_true, decide_eq_true_eq] at ha
    obtain ⟨⟨⟨⟨rfl, hge⟩, -⟩, -⟩, -⟩ := ha
    exact ⟨v, by rw [← hoff, Nat.add_sub_cancel' hge], hv⟩
  · exact absurd hb (stays rfl)
  · exact absurd hb (stays (mark_phase ..))
  · exact absurd hb (stays rfl)
  · exact absurd hb (stays rfl)
  · exact absurd hb (stays (mark_phase ..))
  · exact absurd hb (stays (mark_phase ..))
  · rw [engineTurn_idle hp] at h; cases h; exact absurd hb (stays rfl)
  · exact absurd hb (stays ((platformReset_phase s).trans hp.symm))

/-- Settles O25: the engine's turn while IDLE, and the one event that leaves it. -/
theorem onlyStartLeavesIdle : Obligations.OnlyStartLeavesIdle := by
  refine fun s hp => ⟨fun ha => (step_nil ha).trans (engineTurn_idle hp), fun t h hb => ?_⟩
  cases ha : s.agenda with
  | nil =>
    rw [step_nil ha, engineTurn_idle hp] at h
    cases h
    rw [hp] at hb; cases hb
  | cons e rest =>
    rw [step_cons ha] at h
    obtain ⟨v, rfl, hv⟩ := runEvent_starts (s := { s with agenda := rest }) hp h hb
    exact ⟨v, rest, rfl, hv⟩

/-! ### The parameters -/

@[simp] theorem writeRegister_cfg (s : State) (v : Word) (r : Reg) : (writeRegister s v r).cfg = s.cfg := by
  obtain ⟨h, -⟩ | ⟨h, -⟩ | ⟨-, -, g, h, -⟩ := writeRegister_cases s v r <;> rw [h]
  · exact clearStatus_cfg ..
  · exact writeCtrl_cfg ..

@[simp] theorem writeOffset_cfg (s : State) (off : Nat) (v : Word) : (writeOffset s off v).cfg = s.cfg := by
  obtain h | ⟨r, -, h⟩ := writeOffset_cases s off v <;> rw [h]
  exact writeRegister_cfg ..

theorem engineTurn_cfg (h : engineTurn s = .next t) : t.cfg = s.cfg := by
  obtain ⟨-, rfl⟩ | ⟨-, -, -, rfl⟩ | ⟨-, i, -, h⟩ := engineTurn_cases h
  · rfl
  · rfl
  · obtain ⟨-, -, hkeeps⟩ := exec_completes h
    exact hkeeps.cfg

theorem runEvent_cfg {e : Event} (h : runEvent e s = .next t) : t.cfg = s.cfg := by
  obtain ⟨_, _, _, -, -, rfl⟩ | ⟨_, _, -, -, rfl⟩ | ⟨_, _, -, -, -, rfl⟩ | ⟨_, _, -, -, rfl⟩ | ⟨-, rfl⟩ |
    ⟨_, _, -, rfl⟩ | ⟨_, _, -, rfl⟩ | ⟨-, h⟩ | ⟨-, rfl⟩ := runEvent_cases h
  · exact writeOffset_cfg ..
  · rfl
  · exact mark_cfg ..
  · rfl
  · rfl
  · exact mark_cfg ..
  · exact mark_cfg ..
  · exact engineTurn_cfg h
  · exact platformReset_cfg s

/-- Settles O26: neither the engine's turn nor an event touches them, and ID is a function of them. -/
theorem parametersNeverChange : Obligations.ParametersNeverChange := by
  intro s t h
  have hcfg : t.cfg = s.cfg := by
    cases ha : s.agenda with
    | nil => exact engineTurn_cfg ((step_nil ha).symm.trans h)
    | cons e rest => exact runEvent_cfg (s := { s with agenda := rest }) ((step_cons ha).symm.trans h)
  exact ⟨hcfg, readRegister_id_congr hcfg⟩

/-! ### Where the machine stops -/

/-- An event goes on exactly when it keeps the duties of the outside world (40_control.md R133). -/
theorem runEvent_isNext_iff (e : Event) (s : State) : (∃ t, runEvent e s = .next t) ↔ e.keepsDuties s = true := by
  cases e with
  | regWrite addr width v =>
    simp only [runEvent, hostRegWrite, Event.keepsDuties]
    cases blockAccess s.cfg addr width <;> simp
  | regRead addr width =>
    simp only [runEvent, hostRegRead, Event.keepsDuties]
    cases blockAccess s.cfg addr width <;> simp
  | memWrite addr bytes =>
    simp only [runEvent, hostMemWrite, Event.keepsDuties]
    cases inDataSpace addr bytes.length <;> cases s.busyRegions.any (Region.meets ⟨addr, bytes.length⟩) <;> simp
  | memRead addr count =>
    simp only [runEvent, hostMemRead, Event.keepsDuties]
    cases inDataSpace addr count <;> simp
  | engine => exact iff_of_true (engineTurn_isNext s) rfl
  | sampleIrq => exact iff_of_true ⟨_, rfl⟩ rfl
  | cacheClean base size => exact iff_of_true ⟨_, rfl⟩ rfl
  | cacheInvalidate base size => exact iff_of_true ⟨_, rfl⟩ rfl
  | reset => exact iff_of_true ⟨_, rfl⟩ rfl

/-- Settles O27: the engine's turn always goes on, and the duties do not depend on what else is pending. -/
theorem onlyBrokenDutiesStopTheMachine : Obligations.OnlyBrokenDutiesStopTheMachine := by
  refine fun s => ⟨fun ha => ?_, fun e rest ha => ?_⟩
  · rw [Runs, step_nil ha]; exact engineTurn_isNext s
  · have hduties : e.keepsDuties { s with agenda := rest } = e.keepsDuties s := by cases e <;> rfl
    rw [Runs, step_cons ha, runEvent_isNext_iff, hduties]

end

end Sys2Proof.Machine
end

section
/-! PROOFS. How a FIR command ends, by the first failing event of the architectural order, and what its destination and
the rest of the machine hold then (20_memory.md R73, R74; 41_fir.md R153 to R166; 60_exceptions.md R241 to R244). -/

namespace Sys2Proof.Machine

/-! ### Shift and accumulator width (41_fir.md R154, R155) -/

/-- Settles O33: floor division by a power of two past the operand's width is 0 or -1. -/
theorem shiftIsFloorDivision : Obligations.ShiftIsFloorDivision := by
  have floor (a : ℤ) (sh : Nat) : asr a sh * 2 ^ sh ≤ a ∧ a < (asr a sh + 1) * 2 ^ sh := by
    rw [asr, Nat.cast_pow, Nat.cast_ofNat]
    exact ⟨Int.ediv_mul_le _ (by positivity), Int.lt_ediv_add_one_mul_self _ (by positivity)⟩
  refine ⟨floor, fun w a sh hfit hsh => ?_, sat16_eq_clamp⟩
  obtain ⟨hle, hlt⟩ := floor a sh
  have hpow : (2 : ℤ) ^ w.width ≤ 2 ^ sh := pow_le_pow_right₀ (by norm_num) hsh
  have hrange : -2 ^ sh ≤ a ∧ a < 2 ^ sh := by
    cases w with
    | w32 => rw [accFits_w32] at hfit; norm_num [AccBits.width] at hpow; omega
    | w64 => rw [accFits_w64] at hfit; norm_num [AccBits.width] at hpow; omega
  split
  · have : asr a sh < 1 := by nlinarith
    have : -1 < asr a sh := by nlinarith
    omega
  · have : asr a sh < 0 := by nlinarith
    have : -2 < asr a sh := by nlinarith
    omega

theorem abs_toInt_mul_le (x y : BitVec 16) : |x.toInt * y.toInt| ≤ 2 ^ 30 := by
  have hx := BitVec.le_toInt x
  have hx' := BitVec.toInt_lt (x := x)
  have hy := BitVec.le_toInt y
  have hy' := BitVec.toInt_lt (x := y)
  norm_num at hx hx' hy hy'
  calc |x.toInt * y.toInt| = |x.toInt| * |y.toInt| := abs_mul _ _
    _ ≤ 2 ^ 15 * 2 ^ 15 := mul_le_mul (abs_le.2 ⟨by omega, by omega⟩) (abs_le.2 ⟨by omega, by omega⟩)
        (abs_nonneg _) (by norm_num)
    _ = 2 ^ 30 := by norm_num

/-- Fewer than 2^32 products of int16 values fit 64 bits (41_fir.md R154). -/
theorem accFits_w64_firSum (s : State) (c j ch : Nat) : accFits .w64 (firSum s c j ch) = true := by
  have hsum : |firSum s c j ch| ≤ s.P.len.toNat * 2 ^ 30 := calc
    |firSum s c j ch| ≤ ∑ k ∈ Finset.range s.P.len.toNat, |tap16 s k * sample16 s c (j + k) ch| :=
        Finset.abs_sum_le_sum_abs _ _
    _ ≤ ∑ _k ∈ Finset.range s.P.len.toNat, 2 ^ 30 := Finset.sum_le_sum fun _ _ => abs_toInt_mul_le _ _
    _ = s.P.len.toNat * 2 ^ 30 := by rw [Finset.sum_const, Finset.card_range, nsmul_eq_mul]
  have hlen := s.P.len.isLt
  obtain ⟨hlow, hhigh⟩ := abs_le.1 hsum
  rw [accFits_w64]
  omega

/-! ### One position by its events -/

/-- The run-time error of a failing event (60_exceptions.md R240, R243). -/
def FirEvent.error : FirEvent → RunError
  | .access _ a => .bus a
  | .sum _ _ => .accOvf

@[simp] theorem FirEvent.error_code (v : FirEvent) : v.error.code = v.code := by cases v <;> rfl

@[simp] theorem FirEvent.error_addr (v : FirEvent) : v.error.addr = v.addr := by cases v <;> rfl

/-- The word a FIR command stores in destination element `e`: y(j, c) of its position (41_fir.md R155, R159). -/
def firWord (s : State) (c e : Nat) : Word :=
  match s.cfg.sampleMode with
  | .fixed => BitVec.ofInt 32 (firOut s c (e / c) (e % c))
  | .float => fp32Bits s.draws e (firOut64 s c (e / c) (e % c))

theorem firWord_fixed {s : State} (hm : s.cfg.sampleMode = .fixed) (c e : Nat) :
    firWord s c e = BitVec.ofInt 32 (firOut s c (e / c) (e % c)) := by simp only [firWord, hm]

theorem firWord_float {s : State} (hm : s.cfg.sampleMode = .float) (c e : Nat) :
    firWord s c e = fp32Bits s.draws e (firOut64 s c (e / c) (e % c)) := by simp only [firWord, hm]

section
variable (s : State) (c e : Nat)

/-- What a position does, by its events: the first rejected read, the failing overflow check, or its output. -/
theorem firPos_cases :
    (∃ a, (positionReads s c e).find? (fun a => !memOk s.cfg a s.esz .read) = some a ∧
      firPos s c e = .error (.bus a)) ∨
    ((positionReads s c e).find? (fun a => !memOk s.cfg a s.esz .read) = none ∧
      (((FirEvent.sum (e / c) (e % c)).fails s c = true ∧ ∃ acc, firPos s c e = .ok (acc, none)) ∨
        ((FirEvent.sum (e / c) (e % c)).fails s c = false ∧
          ∃ acc, firPos s c e = .ok (acc, some (firWord s c e))))) := by
  cases hm : s.cfg.sampleMode with
  | fixed =>
    rw [firPos_fixed hm, firWord_fixed hm, esz_fixed hm]
    cases hf : (positionReads s c e).find? (fun a => !memOk s.cfg a 2 .read) with
    | some a => exact .inl ⟨a, rfl, rfl⟩
    | none =>
      have hsum : (FirEvent.sum (e / c) (e % c)).fails s c = !accFits s.cfg.accBits (firSum s c (e / c) (e % c)) := by
        simp only [FirEvent.fails, hm, decide_true, Bool.true_and]
      rw [hsum]
      cases accFits s.cfg.accBits (firSum s c (e / c) (e % c)) with
      | true => exact .inr ⟨rfl, .inr ⟨rfl, _, rfl⟩⟩
      | false => exact .inr ⟨rfl, .inl ⟨rfl, _, rfl⟩⟩
  | float =>
    rw [firPos_float hm, firWord_float hm, esz_float hm]
    cases hf : (positionReads s c e).find? (fun a => !memOk s.cfg a 4 .read) with
    | some a => exact .inl ⟨a, rfl, rfl⟩
    | none => exact .inr ⟨rfl, .inr ⟨by simp only [FirEvent.fails, hm, reduceCtorEq, decide_false, Bool.false_and],
        _, rfl⟩⟩

theorem positionEvents_eq : positionEvents s c e = (positionReads s c e).map (.access .read) ++
    [.sum (e / c) (e % c), .access .write (destElem s.P s.esz e)] := by
  simp only [positionReads, List.map_flatMap]
  rfl

/-- The first failing event of a position is its first rejected read, else its overflow check, else its write. -/
theorem positionEvents_find? : (positionEvents s c e).find? (fun v => v.fails s c) =
    (((positionReads s c e).find? (fun a => !memOk s.cfg a s.esz .read)).map (.access .read)).or
      ([.sum (e / c) (e % c), .access .write (destElem s.P s.esz e)].find? fun v => v.fails s c) := by
  rw [positionEvents_eq, List.find?_append, List.find?_map]
  rfl

end

/-! ### The run by its events -/

/-- The loop ends at the first failing event of its positions, with that event's error (60_exceptions.md R241). -/
theorem firLoop_fail (s : State) (c n e : Nat) (r : FirRun) (h0 : r.fail = none) :
    (firLoop s c n e r).fail = (((List.range' e n).flatMap fun e => (positionEvents s c e).map fun v => (e, v)).find?
      (fun v => v.2.fails s c)).map fun v => (v.1, v.2.error) := by
  induction n generalizing e r with
  | zero => exact h0
  | succ n ih =>
    have hpos : ((positionEvents s c e).map fun v => (e, v)).find? (fun v => v.2.fails s c) =
        ((positionEvents s c e).find? fun v => v.fails s c).map fun v => (e, v) := List.find?_map ..
    rw [List.range'_succ, List.flatMap_cons, List.find?_append, hpos, positionEvents_find?, firLoop]
    obtain ⟨a, hreads, hp⟩ | ⟨hreads, ⟨hsum, acc, hp⟩ | ⟨hsum, acc, hp⟩⟩ := firPos_cases s c e
    · rw [hp, hreads]; rfl
    · rw [hp, hreads, List.find?_cons_of_pos hsum]; rfl
    · have hwrite : (FirEvent.access .write (destElem s.P s.esz e)).fails s c =
          !memOk s.cfg (destElem s.P s.esz e) s.esz .write := rfl
      rw [hp, hreads, List.find?_cons_of_neg (Bool.eq_false_iff.1 hsum), List.find?_cons, hwrite]
      obtain ⟨hok, hst⟩ | ⟨hok, hst⟩ := storeElem_cases s.cfg (destElem s.P s.esz e) s.esz (firWord s c e) r.mem
      · simp only [hst, hok]
        exact ih (e + 1) _ rfl
      · simp only [hst, hok]
        rfl

theorem firRun_fail (s : State) (c : Nat) : (firRun s c).fail =
    ((firEvents s c).find? fun v => v.2.fails s c).map fun v => (v.1, v.2.error) := by
  rw [firRun, firLoop_fail s c _ _ _ rfl, firEvents, List.range_eq_range']

/-- A run stores the elements before the one it stops at, and changes no byte outside them. -/
theorem firRun_stored (s : State) (c : Nat) :
    ∃ d, d ≤ s.P.outputs * c ∧ (∀ k, k < d → PosStored s c k (firRun s c).mem) ∧
      (∀ a, a < destElem s.P s.esz 0 ∨ destElem s.P s.esz d ≤ a → (firRun s c).mem.byteAt a = s.mem.byteAt a) ∧
      (((firRun s c).fail = none ∧ d = s.P.outputs * c) ∨
        ∃ err, d < s.P.outputs * c ∧ (firRun s c).fail = some (d, err)) := by
  obtain ⟨d, hd, hstored, hkept, hend⟩ :=
    firLoop_spec s c (s.P.outputs * c) 0 { mem := s.mem, acc := s.hidden.acc, fail := none } rfl
  rw [Nat.zero_add] at hstored hkept hend
  exact ⟨d, hd, fun k => hstored k (Nat.zero_le k), hkept, hend.imp_right fun ⟨err, hlt, hf, _⟩ => ⟨err, hlt, hf⟩⟩

/-! ### What a stored element holds -/

section
variable {s : State} {c e : Nat} {m : Memory}

theorem firWord_of_firPos {acc : AccReg} {y : Word} (h : firPos s c e = .ok (acc, some y)) : y = firWord s c e := by
  obtain ⟨a, -, hp⟩ | ⟨-, ⟨-, acc', hp⟩ | ⟨-, acc', hp⟩⟩ := firPos_cases s c e <;> rw [hp] at h <;> cases h
  rfl

theorem PosStored.byteAt (h : PosStored s c e m) {k : Nat} (hk : k < s.esz) :
    m.byteAt (destElem s.P s.esz e + k) = BitVec.ofNat 8 ((firWord s c e).toNat / 256 ^ k) := by
  obtain ⟨acc, y, hp, -, hbytes⟩ := h
  rw [← firWord_of_firPos hp]
  exact hbytes k hk

/-- An element depends on its own bytes alone. -/
theorem PosStored.congr (h : PosStored s c e m) {m' : Memory}
    (hm : ∀ k, k < s.esz → m'.byteAt (destElem s.P s.esz e + k) = m.byteAt (destElem s.P s.esz e + k)) :
    PosStored s c e m' := by
  obtain ⟨acc, y, hp, hw, hbytes⟩ := h
  exact ⟨acc, y, hp, hw, fun k hk => (hm k hk).trans (hbytes k hk)⟩

theorem PosStored.memHalf (hm : s.cfg.sampleMode = .fixed) (h : PosStored s c e m) :
    (memHalf m (destElem s.P 2 e)).toInt = firOut s c (e / c) (e % c) := by
  have hbytes : ∀ k, k < 2 → m.byteAt (destElem s.P 2 e + k) = BitVec.ofNat 8 ((firWord s c e).toNat / 256 ^ k) := by
    intro k hk
    rw [← esz_fixed hm] at hk ⊢
    exact h.byteAt hk
  rw [memHalf_of_bytes hbytes, firWord_fixed hm, firOut, toInt_extract_sat16]

/-- Four bytes that are those of `y` read back as `y`. -/
theorem memWord_of_bytes {a : Nat} {y : Word}
    (h : ∀ k, k < 4 → m.byteAt (a + k) = BitVec.ofNat 8 (y.toNat / 256 ^ k)) : memWord m a = y := by
  have hk (k : Nat) (hk : k < 4) : m.byteAt (a + k) = (Memory.writeLE m a 4 y.toNat).byteAt (a + k) :=
    (h k hk).trans (Memory.byteAt_writeLE_inside m y.toNat k hk).symm
  have h0 := hk 0 (by norm_num)
  rw [Nat.add_zero] at h0
  rw [← memWord_writeLE m a y, memWord, memWord, h0, hk 1 (by norm_num), hk 2 (by norm_num), hk 3 (by norm_num)]

theorem PosStored.memWord (hm : s.cfg.sampleMode = .float) (h : PosStored s c e m) :
    memWord m (destElem s.P 4 e) = fp32Bits s.draws e (firOut64 s c (e / c) (e % c)) := by
  rw [← firWord_float hm]
  refine memWord_of_bytes fun k hk => ?_
  rw [← esz_float hm] at hk ⊢
  exact h.byteAt hk

end

/-! ### The command by its events -/

section
variable {i : Instr} {s : State}

theorem firEvents_of_no_outputs {c : Nat} (h : s.P.outputs = 0) : firEvents s c = [] := by
  rw [firEvents, h, Nat.zero_mul]; rfl

/-- Without a failing event the command succeeds and stores every element. -/
theorem completeFir_of_no_event (hcheck : staticCheck i s.P s.esz = none)
    (h : (firEvents s i.channels).find? (fun v => v.2.fails s i.channels) = none) :
    Succeeded (completeFir i s) s.P.outputs ∧
      ∀ e, e < s.P.outputs * i.channels → PosStored s i.channels e (completeFir i s).mem := by
  have hnone : (firRun s i.channels).fail = none := by rw [firRun_fail, h]; rfl
  obtain ⟨d, -, hstored, -, ⟨-, rfl⟩ | ⟨err, -, hf⟩⟩ := firRun_stored s i.channels
  · obtain ⟨_, hc, -⟩ | ⟨-, hout, hc⟩ | ⟨-, -, hc⟩ := completeFir_cases i s
    · rw [hcheck] at hc; cases hc
    · rw [hc, hout, Nat.zero_mul]
      exact ⟨completeOk_succeeded .., fun e he => absurd he (Nat.not_lt_zero e)⟩
    · obtain ⟨-, hfin⟩ | ⟨_, _, hf, -⟩ := firFinish_cases s i.channels (firRun s i.channels)
      · rw [hc, hfin]
        exact ⟨(completeOk_succeeded ..).mark .., by simpa only [mark_mem, completeOk_mem] using hstored⟩
      · rw [hnone] at hf; cases hf
  · rw [hnone] at hf; cases hf

theorem Failed.mark {t : State} {code : ErrCode} {addr : Nat} (h : Failed t code addr) (k : MarkKind)
    (base size : Nat) : Failed (t.mark k base size) code addr := by
  obtain ⟨hres, herr, hcode, haddr, hdone, hidle⟩ := h
  constructor <;> simpa only [mark_regs, mark_phase]

/-- The elements from `e` on end where the `n` elements end. -/
theorem destElem_add_rest (p : Params) (esz : Nat) {e n : Nat} (h : e ≤ n) :
    destElem p esz e + (n - e) * esz = destElem p esz n := by
  rw [destElem, destElem, Nat.add_assoc, ← Nat.add_mul, Nat.add_sub_cancel' h]

/-- The first failing event ends the command with its error: the elements before its own are stored, and the rest of the
destination is free (60_exceptions.md R244). -/
theorem completeFir_of_event (hi : i.isFir = true) (hcheck : staticCheck i s.P s.esz = none) {e : Nat} {ev : FirEvent}
    (h : (firEvents s i.channels).find? (fun v => v.2.fails s i.channels) = some (e, ev)) :
    e < s.P.outputs * i.channels ∧ Failed (completeFir i s) ev.code ev.addr ∧
      (∀ k, k < e → PosStored s i.channels k (completeFir i s).mem) ∧
      ∀ a, destElem s.P s.esz e ≤ a → a < destElem s.P s.esz (s.P.outputs * i.channels) →
        (completeFir i s).mem.byteAt a = Config.freeByte s.draws a := by
  have hfail : (firRun s i.channels).fail = some (e, ev.error) := by rw [firRun_fail, h]; rfl
  have hspace := destRegion_in_space hcheck
  simp only [destRegion, hi, if_true, firDest] at hspace
  obtain ⟨d, -, hstored, -, ⟨hf, -⟩ | ⟨err, hlt, hf⟩⟩ := firRun_stored s i.channels
  · rw [hfail] at hf; cases hf
  · rw [hfail] at hf; cases hf
    have hend := destElem_add_rest s.P s.esz hlt.le
    obtain ⟨_, hc, -⟩ | ⟨-, hout, -⟩ | ⟨-, -, hc⟩ := completeFir_cases i s
    · rw [hcheck] at hc; cases hc
    · rw [firEvents_of_no_outputs hout] at h; cases h
    · obtain ⟨hn, -⟩ | ⟨_, _, hf, hfin⟩ := firFinish_cases s i.channels (firRun s i.channels)
      · rw [hfail] at hn; cases hn
      · rw [hfail] at hf; cases hf
        have hmem : (completeFir i s).mem = Memory.scramble (firRun s i.channels).mem s.draws (destElem s.P s.esz e)
            ((s.P.outputs * i.channels - e) * s.esz) := by rw [hc, hfin, mark_mem, completeErr_mem]
        refine ⟨hlt, ?_, fun k hk => ?_, fun a hge ha => ?_⟩
        · rw [hc, hfin, FirEvent.error_code, FirEvent.error_addr]
          exact (completeErr_failed ..).mark ..
        · rw [hmem]
          refine (hstored k hk).congr fun b hb => Memory.byteAt_scramble_outside _ _ (.inl ?_)
          have hmono := destElem_mono s.P s.esz (Nat.succ_le_of_lt hk)
          rw [destElem_succ] at hmono
          omega
        · rw [hmem]
          exact Memory.byteAt_scramble_inside _ _ hge (by omega) (ha.trans_le hspace)

/-- However a FIR command ends, no byte outside its destination changes (20_memory.md R74). -/
theorem completeFir_frame (i : Instr) (s : State) {a : Nat}
    (ha : a < destElem s.P s.esz 0 ∨ destElem s.P s.esz (s.P.outputs * i.channels) ≤ a) :
    (completeFir i s).mem.byteAt a = s.mem.byteAt a := by
  obtain ⟨_, -, hc⟩ | ⟨-, -, hc⟩ | ⟨-, -, hc⟩ := completeFir_cases i s <;> rw [hc]
  · rfl
  · rfl
  · obtain ⟨d, hd, -, hkept, hend⟩ := firRun_stored s i.channels
    have hrun := hkept a (ha.imp_right (le_trans (destElem_mono s.P s.esz hd)))
    obtain ⟨-, hfin⟩ | ⟨e, err, hf, hfin⟩ := firFinish_cases s i.channels (firRun s i.channels) <;>
      rw [hfin, mark_mem]
    · exact hrun
    · obtain ⟨hn, -⟩ | ⟨_, hlt, hd⟩ := hend
      · rw [hf] at hn; cases hn
      · rw [hf] at hd; cases hd
        refine (Memory.byteAt_scramble_outside _ _ ?_).trans hrun
        have hend := destElem_add_rest s.P s.esz hlt.le
        have := destElem_mono s.P s.esz (Nat.zero_le d)
        omega

end

/-! ### The statements -/

theorem mulAdd_lt {j n ch c : Nat} (hj : j < n) (hch : ch < c) : j * c + ch < n * c := calc
  j * c + ch < (j + 1) * c := by rw [Nat.succ_mul]; omega
  _ ≤ n * c := Nat.mul_le_mul_right _ hj

theorem mulAdd_div_mod {j ch c : Nat} (hch : ch < c) : (j * c + ch) / c = j ∧ (j * c + ch) % c = ch := by
  constructor
  · rw [Nat.mul_comm, Nat.mul_add_div (by omega), Nat.div_eq_of_lt hch, Nat.add_zero]
  · exact Nat.mul_add_mod_of_lt hch

/-- A FLOAT-mode position whose reads are answered has an output, whatever the data (41_fir.md R158, R159). -/
theorem firPos_float_ok {s : State} {c e : Nat} (hm : s.cfg.sampleMode = .float) (hr : FirReadable s c)
    (he : e < s.P.outputs * c) : ∃ acc y, firPos s c e = .ok (acc, some y) := by
  have hreads := positionReads_answered hr he
  rw [esz_float hm] at hreads
  exact ⟨_, _, by simp only [firPos_float hm, hreads]; rfl⟩

/-- Settles O32: every position goes through, so the command stores every element, and element j*C + c is position
(j, c). -/
theorem firFloatWritesOutputs : Obligations.FirFloatWritesOutputs := by
  intro i s hi hm hcheck hlt hr hw
  obtain ⟨hok, hstored, hkept⟩ := completeFir_stores hcheck hlt (fun e he => firPos_float_ok hm hr he) hw
  refine ⟨_, exec_of_isFir hi s, hok, completeFir_keepsRest i s, fun j ch hj hch => ?_, hkept⟩
  have hread := (hstored _ (mulAdd_lt hj hch)).memWord hm
  obtain ⟨hdiv, hmod⟩ := mulAdd_div_mod (j := j) hch
  rwa [hdiv, hmod] at hread

/-- Settles O35: the static check, or the first failing event. -/
theorem firReportsFirstFailingEvent : Obligations.FirReportsFirstFailingEvent := by
  intro i s hi
  refine ⟨_, exec_of_isFir hi s, fun code hcheck => ?_, fun hcheck => ⟨fun hall => ?_, fun v hv => ?_⟩⟩
  · rw [completeFir, hcheck]; exact completeErr_failed ..
  · exact (completeFir_of_no_event hcheck (List.find?_eq_none.2 fun v hv => Bool.eq_false_iff.1 (hall v hv))).1
  · obtain ⟨-, hfailed, -⟩ := completeFir_of_event hi hcheck hv
    exact hfailed

/-- A wide accumulator, or FLOAT mode, lets every overflow check pass. -/
theorem sum_not_fails {s : State} (h : s.cfg.accBits = .w64 ∨ s.cfg.sampleMode = .float) (c j ch : Nat) :
    (FirEvent.sum j ch).fails s c = false := by
  obtain h | h := h
  · simp only [FirEvent.fails, h, accFits_w64_firSum, Bool.not_true, Bool.and_false]
  · simp only [FirEvent.fails, h, reduceCtorEq, decide_false, Bool.false_and]

theorem completeFir_not_accOvf {i : Instr} {s : State} (hi : i.isFir = true)
    (h : s.cfg.accBits = .w64 ∨ s.cfg.sampleMode = .float) : (completeFir i s).regs.errCode ≠ .accOvf := by
  cases hcheck : staticCheck i s.P s.esz with
  | some code =>
    have hcode : (completeFir i s).regs.errCode = code := by rw [completeFir, hcheck]; rfl
    rw [hcode]
    rintro rfl
    exact absurd (staticCheck_code_mem hcheck) (by decide)
  | none =>
    cases hv : (firEvents s i.channels).find? (fun v => v.2.fails s i.channels) with
    | none =>
      obtain ⟨hok, -⟩ := completeFir_of_no_event hcheck hv
      rw [hok.errCode]
      exact ErrCode.noConfusion
    | some v =>
      obtain ⟨e, ev⟩ := v
      obtain ⟨-, hfailed, -⟩ := completeFir_of_event hi hcheck hv
      have hfails : ev.fails s i.channels = true :=
        List.find?_some (p := fun v : Nat × FirEvent => v.2.fails s i.channels) hv
      rw [hfailed.errCode]
      cases ev with
      | access kind a => exact ErrCode.noConfusion
      | sum j ch => rw [sum_not_fails h] at hfails; cases hfails

/-- Settles O37: the destination is all of memory a FIR command touches, and the accumulators and RECIP all of the
internal registers. -/
theorem firFrame : Obligations.FirFrame := by
  intro i s t hi h
  obtain ⟨hidle, -, hkeeps⟩ := exec_completes h
  rw [exec_of_isFir hi] at h
  cases h
  have hrest : ∃ acc recip, (completeFir i s).hidden = { s.hidden with acc := acc, recip := recip } := by
    obtain ⟨_, -, hc⟩ | ⟨-, -, hc⟩ | ⟨-, -, hc⟩ := completeFir_cases i s <;> rw [hc]
    · exact ⟨_, _, rfl⟩
    · exact ⟨_, _, rfl⟩
    · rw [mark_hidden]
      obtain ⟨-, hfin⟩ | ⟨_, _, -, hfin⟩ := firFinish_cases s i.channels (firRun s i.channels) <;>
        rw [hfin] <;> exact ⟨_, _, rfl⟩
  obtain ⟨acc, recip, hhidden⟩ := hrest
  refine ⟨hkeeps, hidle, by rw [hhidden], by rw [hhidden], by rw [hhidden], by rw [hhidden], fun hcoh => ?_,
    fun a ha => completeFir_frame i s (outside_of_not_inDestElem ha)⟩
  obtain ⟨_, -, hc⟩ | ⟨-, -, hc⟩ | ⟨-, -, hc⟩ := completeFir_cases i s <;> rw [hc]
  · rfl
  · rfl
  · obtain ⟨-, hfin⟩ | ⟨_, _, -, hfin⟩ := firFinish_cases s i.channels (firRun s i.channels)
    · rw [hfin, mark_coherent]
      · rfl
      · exact hcoh
    · rw [hfin, mark_coherent]
      · rfl
      · exact hcoh

end Sys2Proof.Machine
end

section
/-! PROOFS. How a search ends, by its first failing read; the order that picks its winner; and the statements that speak
of FIR commands and searches together (20_memory.md R73; 42_corr.md R196, R202; 60_exceptions.md R241 to R244). -/

namespace Sys2Proof.Machine

/-! ### The first failing read -/

/-- A scan over windows that fail at their first rejected read fails at the first rejected read of them all. -/
theorem scan_fail_eq {α : Type} {q : Search α} {ok : Nat → Bool} {reads : Nat → List Nat} {ps : Nat → List (α × α)}
    (hw : ∀ i, q.window i = match (reads i).find? (fun a => !ok a) with
      | none => .ok (ps i)
      | some a => .error (.bus a)) (n i : Nat) (prev : List α) (h : Hidden) :
    (q.scan n i prev h).fail = (((List.range' i n).flatMap reads).find? (fun a => !ok a)).map .bus := by
  induction n generalizing i prev h with
  | zero => rfl
  | succ n ih =>
    rw [Search.scan, hw, List.range'_succ, List.flatMap_cons, List.find?_append]
    cases (reads i).find? (fun a => !ok a) with
    | some a => rfl
    | none => exact ih ..

/-- The reads of window `i`, in order (20_memory.md R73). -/
def windowReads (p : Params) (esz c i : Nat) : List Nat :=
  (List.range (p.window c)).flatMap fun k => [refElem p esz c i k, cmpElem p esz k]

theorem searchOf_window_eq {α : Type} {load : Nat → Except RunError α} {ok : Nat → Bool} {v : Nat → α}
    (hl : ∀ a, load a = if ok a then .ok (v a) else .error (.bus a)) (arith : CorrArith α) (p : Params) (esz c : Nat)
    (nm : NormMode) (i : Nat) :
    (searchOf load arith p esz c nm).window i = match (windowReads p esz c i).find? (fun a => !ok a) with
      | none => .ok (windowPairs v p esz c i)
      | some a => .error (.bus a) := by
  rw [windowReads, windowPairs, List.range_eq_range']
  exact readPairs_eq hl ..

/-- A search ends at its first failing read, with a bus error at its address (60_exceptions.md R241). -/
theorem corrRun_fail (c : Nat) (nm : NormMode) (s : State) :
    (corrRun c nm s).fail = ((corrAccesses s c).find? fun a => !memOk s.cfg a s.esz .read).map .bus := by
  rw [corrAccesses, List.range_eq_range' (n := s.P.count.toNat)]
  cases hm : s.cfg.sampleMode with
  | fixed =>
    simp only [corrRun, hm, esz_fixed hm]
    exact scan_fail_eq (searchOf_window_eq (load16_eq s) corrFixed s.P 2 c nm) ..
  | float =>
    simp only [corrRun, hm, esz_float hm]
    exact scan_fail_eq (searchOf_window_eq (load32_eq s) corrFloat s.P 4 c nm) ..

/-- A search writes no data memory, however it ends (20_memory.md R65). -/
theorem completeCorr_mem (c : Nat) (nm : NormMode) (s : State) : (completeCorr c nm s).mem = s.mem := by
  obtain ⟨_, -, h⟩ | ⟨-, -, h⟩ | ⟨_, -, -, h⟩ := completeCorr_cases c nm s <;> rw [h] <;> rfl

section
variable {c : Nat} {nm : NormMode} {s : State} (hcheck : staticCheck (.corrSearch c nm) s.P s.esz = none)
include hcheck

theorem completeCorr_of_no_failing_read
    (h : (corrAccesses s c).find? (fun a => !memOk s.cfg a s.esz .read) = none) :
    completeCorr c nm s =
      completeOk { s with hidden := (corrRun c nm s).hidden } (corrRun c nm s).hidden.bestOff.toNat := by
  have hfail : (corrRun c nm s).fail = none := by rw [corrRun_fail, h]; rfl
  obtain ⟨_, hc, -⟩ | ⟨-, -, hc⟩ | ⟨_, -, hf, -⟩ := completeCorr_cases c nm s
  · rw [hcheck] at hc; cases hc
  · exact hc
  · rw [hfail] at hf; cases hf

theorem completeCorr_of_failing_read {a : Nat}
    (h : (corrAccesses s c).find? (fun a => !memOk s.cfg a s.esz .read) = some a) :
    completeCorr c nm s = completeErr { s with hidden := (corrRun c nm s).hidden } .bus a := by
  have hfail : (corrRun c nm s).fail = some (.bus a) := by rw [corrRun_fail, h]; rfl
  obtain ⟨_, hc, -⟩ | ⟨-, hf, -⟩ | ⟨_, -, hf, hc⟩ := completeCorr_cases c nm s
  · rw [hcheck] at hc; cases hc
  · rw [hfail] at hf; cases hf
  · rw [hfail] at hf; cases hf
    exact hc

end

/-- Settles O54: the run's error is that of the first failing read. -/
theorem corrReportsFirstFailingRead : Obligations.CorrReportsFirstFailingRead := by
  intro c nm s hcheck
  refine ⟨_, exec_corrSearch c nm s, completeCorr_mem c nm s, fun hall => ?_, fun a ha => ?_⟩
  · have hnone : (corrAccesses s c).find? (fun a => !memOk s.cfg a s.esz .read) = none :=
      List.find?_eq_none.2 fun a ha => by rw [hall a ha]; exact Bool.false_ne_true
    rw [completeCorr_of_no_failing_read hcheck hnone]
    exact ⟨rfl, rfl⟩
  · rw [completeCorr_of_failing_read hcheck ha]
    exact completeErr_failed ..

theorem scanStep_keeps (h : Hidden) (i : Nat) (norm : NormReg) (x : Fp) :
    (scanStep h i norm x).acc = h.acc ∧ (scanStep h i norm x).recip = h.recip := by
  unfold scanStep
  split <;> exact ⟨rfl, rfl⟩

theorem scan_keeps {α : Type} (q : Search α) (n i : Nat) (prev : List α) (h : Hidden) :
    (q.scan n i prev h).hidden.acc = h.acc ∧ (q.scan n i prev h).hidden.recip = h.recip := by
  induction n generalizing i prev h with
  | zero => exact ⟨rfl, rfl⟩
  | succ n ih =>
    rw [Search.scan]
    split
    · exact ⟨rfl, rfl⟩
    · exact ⟨(ih ..).1.trans (scanStep_keeps ..).1, (ih ..).2.trans (scanStep_keeps ..).2⟩

theorem corrRun_keeps (c : Nat) (nm : NormMode) (s : State) :
    (corrRun c nm s).hidden.acc = s.hidden.acc ∧ (corrRun c nm s).hidden.recip = s.hidden.recip := by
  unfold corrRun
  split <;> exact scan_keeps ..

/-- Settles O55: a search changes the registers of its completion and of its scan, and no memory. -/
theorem corrFrame : Obligations.CorrFrame := by
  intro c nm s t h
  obtain ⟨hidle, -, hkeeps⟩ := exec_completes h
  cases h
  obtain ⟨hacc, hrecip⟩ := corrRun_keeps c nm s
  have hmem (a : Nat) : (completeCorr c nm s).mem.byteAt a = s.mem.byteAt a := by rw [completeCorr_mem]
  obtain ⟨_, -, hc⟩ | ⟨-, -, hc⟩ | ⟨_, -, -, hc⟩ := completeCorr_cases c nm s
  · exact ⟨hkeeps, hidle, by rw [hc]; rfl, by rw [hc]; rfl, by rw [hc]; rfl, hmem⟩
  · exact ⟨hkeeps, hidle, by rw [hc]; exact hacc, by rw [hc]; exact hrecip, by rw [hc]; rfl, hmem⟩
  · exact ⟨hkeeps, hidle, by rw [hc]; exact hacc, by rw [hc]; exact hrecip, by rw [hc]; rfl, hmem⟩

/-! ### FIXED mode: the two normalizers -/

theorem corrReadable_of_no_failing_read {c : Nat} {s : State}
    (h : (corrAccesses s c).find? (fun a => !memOk s.cfg a s.esz .read) = none) : CorrReadable s c := by
  intro i k hi hk
  have answered (a : Nat) (ha : a ∈ [refElem s.P s.esz c i k, cmpElem s.P s.esz k]) :
      memOk s.cfg a s.esz .read = true := by
    have hmem : a ∈ corrAccesses s c :=
      List.mem_flatMap.2 ⟨i, List.mem_range.2 hi, List.mem_flatMap.2 ⟨k, List.mem_range.2 hk, ha⟩⟩
    simpa using List.find?_eq_none.1 h a hmem
  exact ⟨answered _ (by simp), answered _ (by simp)⟩

/-- In FIXED mode a score does not depend on the normalizer mode (42_corr.md R196). -/
theorem corrScoreAt_fixed {s : State} (hm : s.cfg.sampleMode = .fixed) (c : Nat) (nm nm' : NormMode) :
    corrScoreAt s c nm = corrScoreAt s c nm' := by
  funext i
  have hnorm : corrNormAt s c nm i = corrNormAt s c nm' i := by simp only [corrNormAt, hm]
  rw [corrScoreAt_eq, corrScoreAt_eq, hnorm]

/-- Settles O50: both runs fail at the same read, or compare the same scores. -/
theorem fixedModeNormalizersAgree : Obligations.FixedModeNormalizersAgree := by
  intro c s hm
  refine ⟨_, _, exec_corrSearch .., exec_corrSearch .., ?_, by rw [completeCorr_mem, completeCorr_mem]⟩
  cases hcheck : staticCheck (.corrSearch c .incremental) s.P s.esz with
  | some code =>
    have hcheck' : staticCheck (.corrSearch c .fresh) s.P s.esz = some code := hcheck
    rw [completeCorr, completeCorr, hcheck, hcheck']
  | none =>
    have hcheck' : staticCheck (.corrSearch c .fresh) s.P s.esz = none := hcheck
    cases ha : (corrAccesses s c).find? (fun a => !memOk s.cfg a s.esz .read) with
    | some a =>
      rw [completeCorr_of_failing_read hcheck ha, completeCorr_of_failing_read hcheck' ha]
      rfl
    | none =>
      have hr := corrReadable_of_no_failing_read ha
      have result {nm : NormMode} (hcheck : staticCheck (.corrSearch c nm) s.P s.esz = none) :
          (completeCorr c nm s).regs.result.toNat =
            bestOffset (corrScoreAt s c .incremental) (s.P.count.toNat - 1) := by
        obtain ⟨_, h, -, hresult, -⟩ := corrSearchFindsBestOffset c nm s hcheck hr
        cases h
        rw [hresult, corrScoreAt_fixed hm c nm .incremental]
      have hresult := BitVec.eq_of_toNat_eq ((result hcheck').trans (result hcheck).symm)
      rw [completeCorr_of_no_failing_read hcheck ha, completeCorr_of_no_failing_read hcheck' ha] at *
      simp only [completeOk_regs_result] at hresult
      simp only [completeOk, hresult]

/-! ### The order that picks the winner -/

/-- The place of a datum that is not a NaN among the rationals and the two infinities. -/
def fpPlace : Fp → WithBot (WithTop ℚ)
  | .nan => ⊥
  | .inf true => ⊥
  | .inf false => (⊤ : WithTop ℚ)
  | .fin s m e => ((fpRat (.fin s m e) : WithTop ℚ) : WithBot (WithTop ℚ))

/-- `lt64` on data that are no NaN is a linear order (00_scope.md R8). -/
theorem lt64_iff_place {a b : Fp} (ha : a ≠ .nan) (hb : b ≠ .nan) : lt64 a b = true ↔ fpPlace a < fpPlace b := by
  cases a with
  | nan => exact absurd rfl ha
  | inf s =>
    cases b with
    | nan => exact absurd rfl hb
    | inf t => cases s <;> cases t <;> simp [lt64, fpPlace]
    | fin t n g => cases s <;> simp [lt64, fpPlace]
  | fin s m e =>
    cases b with
    | nan => exact absurd rfl hb
    | inf t =>
      cases t with
      | true => simp [lt64, fpPlace]
      | false => exact iff_of_true rfl (WithBot.coe_lt_coe.2 (WithTop.coe_lt_top _))
    | fin t n g => rw [lt64_fin_iff]; simp [fpPlace]

section
variable {score : Nat → Fp}

/-- Without NaN scores the winner is a greatest one, and greater than every earlier one (42_corr.md R202). -/
theorem bestOffset_place {n : Nat} (h : ∀ i, i ≤ n → score i ≠ .nan) :
    (∀ i, i ≤ n → fpPlace (score i) ≤ fpPlace (score (bestOffset score n))) ∧
      ∀ i, i < bestOffset score n → fpPlace (score i) < fpPlace (score (bestOffset score n)) := by
  induction n with
  | zero => exact ⟨fun i hi => by rw [Nat.le_zero.1 hi]; rfl, fun i hi => absurd hi (Nat.not_lt_zero i)⟩
  | succ n ih =>
    obtain ⟨hmax, hfirst⟩ := ih fun i hi => h i (by omega)
    have hle := bestOffset_le score n
    have hgt : gt64 (score (n + 1)) (score (bestOffset score n)) = true ↔
        fpPlace (score (bestOffset score n)) < fpPlace (score (n + 1)) :=
      lt64_iff_place (h _ (by omega)) (h _ (Nat.le_refl _))
    rw [bestOffset]
    split
    · rename_i hnew
      rw [hgt] at hnew
      refine ⟨fun i hi => ?_, fun i hi => (hmax i (by omega)).trans_lt hnew⟩
      obtain rfl | hi := Nat.eq_or_lt_of_le hi
      · exact le_refl _
      · exact (hmax i (by omega)).trans hnew.le
    · rename_i hold
      rw [hgt, not_lt] at hold
      refine ⟨fun i hi => ?_, hfirst⟩
      obtain rfl | hi := Nat.eq_or_lt_of_le hi
      · exact hold
      · exact hmax i (by omega)

theorem bestOffset_of_nan (h : score 0 = .nan) (n : Nat) : bestOffset score n = 0 := by
  induction n with
  | zero => rfl
  | succ n ih => rw [bestOffset, ih, h, gt64_nan_right]; rfl

theorem bestOffset_ne_nan (h : score 0 ≠ .nan) (n : Nat) : score (bestOffset score n) ≠ .nan := by
  induction n with
  | zero => exact h
  | succ n ih =>
    rw [bestOffset]
    split
    · rename_i hnew
      intro hnan
      rw [hnan, gt64_nan_left] at hnew
      cases hnew
    · exact ih

end

/-- Settles O49: the winner of the scan, by the order `lt64` is. -/
theorem corrWinnerIsStrictlyBest : Obligations.CorrWinnerIsStrictlyBest := by
  intro c nm s hcheck hr
  obtain ⟨t, ht, -, hresult, -⟩ := corrSearchFindsBestOffset c nm s hcheck hr
  obtain ⟨-, hcount, -⟩ := corr_counts_pos hcheck
  refine ⟨t, ht, fun hnan => ?_, fun hnan => ?_, fun hnan => ?_⟩
  · obtain ⟨hmax, hfirst⟩ := bestOffset_place (score := corrScoreAt s c nm) (n := s.P.count.toNat - 1)
      fun i hi => hnan i (by omega)
    have hbest := hnan _ ((bestOffset_le (corrScoreAt s c nm) _).trans_lt (Nat.sub_lt hcount Nat.one_pos))
    rw [hresult]
    refine ⟨fun i hi => Bool.eq_false_iff.2 ?_, fun i hi => ?_⟩
    · rw [gt64, Ne, lt64_iff_place hbest (hnan i hi), not_lt]
      exact hmax i (by omega)
    · have hlt := bestOffset_le (corrScoreAt s c nm) (s.P.count.toNat - 1)
      exact (lt64_iff_place (hnan i (by omega)) hbest).2 (hfirst i hi)
  · rw [bestOffset_of_nan hnan] at hresult
    exact BitVec.eq_of_toNat_eq hresult
  · rw [hresult]
    exact bestOffset_ne_nan hnan _

/-! ### FIR commands and searches together -/

theorem completeCorr_not_accOvf (c : Nat) (nm : NormMode) (s : State) :
    (completeCorr c nm s).regs.errCode ≠ .accOvf := by
  cases hcheck : staticCheck (.corrSearch c nm) s.P s.esz with
  | some code =>
    have hcode : (completeCorr c nm s).regs.errCode = code := by rw [completeCorr, hcheck]; rfl
    rw [hcode]
    rintro rfl
    exact absurd (staticCheck_code_mem hcheck) (by decide)
  | none =>
    cases ha : (corrAccesses s c).find? (fun a => !memOk s.cfg a s.esz .read) with
    | some a => rw [completeCorr_of_failing_read hcheck ha]; exact ErrCode.noConfusion
    | none => rw [completeCorr_of_no_failing_read hcheck ha]; exact ErrCode.noConfusion

/-- Settles O34: no static code and no bus error is ACC_OVF, and the overflow check of a FIR command passes. -/
theorem wideAccumulatorNeverOverflows : Obligations.WideAccumulatorNeverOverflows := by
  intro i s t hwide h
  cases i with
  | corrSearch c nm => cases h; exact completeCorr_not_accOvf c nm s
  | firMono => cases h; exact completeFir_not_accOvf rfl hwide
  | firStereo => cases h; exact completeFir_not_accOvf rfl hwide
  | firMulti c => cases h; exact completeFir_not_accOvf rfl hwide

/-- Settles O36: the elements before the event's are stored, the others free, and a search stores nothing. -/
theorem destinationAfterAnError : Obligations.DestinationAfterAnError := by
  refine ⟨fun i s t e ev hi hcheck hev h => ?_, fun i s t code hcheck h => ?_, fun c nm s t h _ => ?_⟩
  · rw [exec_of_isFir hi] at h
    cases h
    obtain ⟨-, -, hstored, hfree⟩ := completeFir_of_event hi hcheck hev
    refine ⟨fun k hk hm => (hstored k hk).memHalf hm, fun k hk hm => (hstored k hk).memWord hm, hfree, fun a ha => ?_⟩
    exact completeFir_frame i s (ha.imp_left fun hlt => by rwa [destElem, Nat.zero_mul, Nat.add_zero])
  · rw [exec_of_staticCheck_some hcheck] at h
    cases h
    rfl
  · cases h
    exact completeCorr_mem c nm s

end Sys2Proof.Machine
end

section
/-! PROOFS. What a command depends on: an output of a FIR command on the coefficients and its own window, and every
command on the regions it reads (20_memory.md R64, R65, R72; 40_control.md R127; 41_fir.md R166). -/

namespace Sys2Proof.Machine

/-! ### An output and its window -/

/-- Two states agree, as their mode reads them, on the coefficients and on the source elements of position (j, c). -/
structure SameWindow (s s' : State) (c j ch : Nat) : Prop where
  fixed : s.cfg.sampleMode = .fixed → ∀ k, k < s.P.len.toNat →
    s'.half (coefElem s.P 2 k) = s.half (coefElem s.P 2 k) ∧
    s'.half (sourceElem s.P 2 c j ch k) = s.half (sourceElem s.P 2 c j ch k)
  float : s.cfg.sampleMode = .float → ∀ k, k < s.P.len.toNat →
    s'.word (coefElem s.P 4 k) = s.word (coefElem s.P 4 k) ∧
    s'.word (sourceElem s.P 4 c j ch k) = s.word (sourceElem s.P 4 c j ch k)

section
variable {s s' : State} {c j ch : Nat} (hP : s'.P = s.P) (h : SameWindow s s' c j ch)
include hP h

theorem firSum_congr (hm : s.cfg.sampleMode = .fixed) : firSum s' c j ch = firSum s c j ch := by
  rw [firSum, firSum, hP]
  refine Finset.sum_congr rfl fun k hk => ?_
  obtain ⟨hcoef, hsrc⟩ := h.fixed hm k (Finset.mem_range.1 hk)
  rw [tap16, tap16, sample16, sample16, hP, ← sourceElem_eq_frameElem, hcoef, hsrc]

theorem firSum64_congr (hm : s.cfg.sampleMode = .float) : firSum64 s' c j ch = firSum64 s c j ch := by
  rw [firSum64, firSum64, hP]
  refine List.foldl_ext _ _ _ fun a k hk => ?_
  obtain ⟨hcoef, hsrc⟩ := h.float hm k (List.mem_range.1 hk)
  rw [tap32, tap32, sample32, sample32, hP, ← sourceElem_eq_frameElem, hcoef, hsrc]

theorem sum_fails_congr (hcfg : s'.cfg = s.cfg) : (FirEvent.sum j ch).fails s' c = (FirEvent.sum j ch).fails s c := by
  cases hm : s.cfg.sampleMode with
  | fixed => simp only [FirEvent.fails, hcfg, firSum_congr hP h hm]
  | float => simp only [FirEvent.fails, hcfg, hm, reduceCtorEq, decide_false, Bool.false_and]

end

theorem firWord_congr {s s' : State} {c e : Nat} (hcfg : s'.cfg = s.cfg) (hP : s'.P = s.P) (hd : s'.draws = s.draws)
    (h : SameWindow s s' c (e / c) (e % c)) : firWord s' c e = firWord s c e := by
  cases hm : s.cfg.sampleMode with
  | fixed => rw [firWord_fixed hm, firWord_fixed (hcfg ▸ hm), firOut, firOut, firSum_congr hP h hm, hP]
  | float =>
    rw [firWord_float hm, firWord_float (hcfg ▸ hm), firOut64, firOut64, firSum64_congr hP h hm, recip64, recip64, hP,
      hd]

/-- Two stored elements with the same word have the same bytes. -/
theorem PosStored.byteAt_eq {s s' : State} {c e k : Nat} {m m' : Memory} (h : PosStored s c e m)
    (h' : PosStored s' c e m') (hP : s'.P = s.P) (hcfg : s'.cfg = s.cfg) (hw : firWord s' c e = firWord s c e)
    (hk : k < s.esz) : m'.byteAt (destElem s.P s.esz e + k) = m.byteAt (destElem s.P s.esz e + k) := by
  have hesz : s'.esz = s.esz := by rw [State.esz, State.esz, hcfg]
  have hbyte := h'.byteAt (hesz.symm ▸ hk)
  rw [hP, hesz, hw] at hbyte
  rw [hbyte, h.byteAt hk]

/-- A FIR command that ends without an error has stored every element. -/
theorem completeFir_stored_of_no_err {i : Instr} {s : State} (hi : i.isFir = true)
    (h : (completeFir i s).regs.err = false) {e : Nat} (he : e < s.P.outputs * i.channels) :
    PosStored s i.channels e (completeFir i s).mem := by
  cases hcheck : staticCheck i s.P s.esz with
  | some code => rw [completeFir, hcheck] at h; cases h
  | none =>
    cases hv : (firEvents s i.channels).find? (fun v => v.2.fails s i.channels) with
    | none => exact (completeFir_of_no_event hcheck hv).2 e he
    | some v =>
      obtain ⟨-, hfailed, -⟩ := completeFir_of_event hi hcheck hv
      rw [hfailed.err] at h; cases h

/-- Settles O40: both runs store the element, and its word is a function of the window. -/
theorem outputDependsOnItsWindow : Obligations.OutputDependsOnItsWindow := by
  intro i s s' t t' j ch hi hcfg hP hd h h' herr herr' hj hch hfixed hfloat a ha
  rw [exec_of_isFir hi] at h h'
  cases h
  cases h'
  have he : j * i.channels + ch < s.P.outputs * i.channels := mulAdd_lt hj hch
  have he' : j * i.channels + ch < s'.P.outputs * i.channels := by rwa [hP]
  obtain ⟨hdiv, hmod⟩ := mulAdd_div_mod (j := j) hch
  have hwindow : SameWindow s s' i.channels ((j * i.channels + ch) / i.channels)
      ((j * i.channels + ch) % i.channels) := by rw [hdiv, hmod]; exact ⟨hfixed, hfloat⟩
  obtain ⟨k, rfl⟩ := Nat.exists_eq_add_of_le ((inRange_iff ..).1 ha).1
  exact (completeFir_stored_of_no_err hi herr he).byteAt_eq (completeFir_stored_of_no_err hi herr' he') hP hcfg
    (firWord_congr hcfg hP hd hwindow) (Nat.lt_of_add_lt_add_left ((inRange_iff ..).1 ha).2)

/-! ### The elements of the read regions -/

/-- A byte of element `k` of `n` lies in their range. -/
theorem inRange_element {base esz n k b : Nat} (hk : k < n) (hb : b < esz) :
    inRange base (n * esz) (base + k * esz + b) = true := by
  have hend : (k + 1) * esz ≤ n * esz := Nat.mul_le_mul_right _ hk
  rw [Nat.succ_mul] at hend
  exact (inRange_iff ..).2 ⟨by omega, by omega⟩

/-- A byte of the range of `n` elements is a byte of one of them. -/
theorem exists_element {base esz n a : Nat} (hz : 0 < esz) (hge : base ≤ a) (hlt : a < base + n * esz) :
    ∃ e k, e < n ∧ k < esz ∧ a = base + e * esz + k := by
  refine ⟨(a - base) / esz, (a - base) % esz, Nat.div_lt_of_lt_mul (by rw [Nat.mul_comm]; omega), Nat.mod_lt _ hz, ?_⟩
  have := Nat.div_add_mod' (a - base) esz
  omega

theorem esz_pos (s : State) : 0 < s.esz := by
  unfold State.esz
  cases s.cfg.sampleMode <;> decide

section
variable {p : Params} {esz c i j ch k b : Nat} (hb : b < esz)
include hb

theorem coefElem_mem_firCoef (hout : p.outputs ≠ 0) (hk : k < p.len.toNat) :
    (firCoef p esz).contains (coefElem p esz k + b) = true := by
  simp only [Region.contains, firCoef, if_neg hout]
  exact inRange_element hk hb

theorem sourceElem_mem_firSource (hj : j < p.outputs) (hch : ch < c) (hk : k < p.len.toNat) :
    (firSource p c esz).contains (sourceElem p esz c j ch k + b) = true := by
  have hframe : j + k < p.count.toNat - 1 := by unfold Params.outputs at hj; omega
  simp only [Region.contains, firSource, if_neg (show p.outputs ≠ 0 by omega)]
  exact inRange_element (mulAdd_lt hframe hch) hb

theorem cmpElem_mem_corrCompare (hk : k < p.window c) :
    (corrCompare p c esz).contains (cmpElem p esz k + b) = true := inRange_element hk hb

theorem refElem_mem_corrReference (hi : i < p.count.toNat) (hk : k < p.window c) :
    (corrReference p c esz).contains (refElem p esz c i k + b) = true := by
  have hframe : (i + 1) * c ≤ p.count.toNat * c := Nat.mul_le_mul_right _ hi
  rw [Nat.succ_mul] at hframe
  exact inRange_element (by omega) hb

end

section
variable {s s' : State} (hcfg : s'.cfg = s.cfg) (hcoh : s.cfg.hostCoherent = true) {a : Nat}
include hcfg hcoh

theorem half_eq_of_bytes (h : ∀ b, b < 2 → s'.m0.mem.byteAt (a + b) = s.m0.mem.byteAt (a + b)) :
    s'.half a = s.half a := by
  have h0 := h 0 (by norm_num)
  rw [Nat.add_zero] at h0
  rw [half_coherent hcoh, half_coherent (hcfg ▸ hcoh), memHalf, memHalf, h0, h 1 (by norm_num)]

theorem word_eq_of_bytes (h : ∀ b, b < 4 → s'.m0.mem.byteAt (a + b) = s.m0.mem.byteAt (a + b)) :
    s'.word a = s.word a := by
  have h0 := h 0 (by norm_num)
  rw [Nat.add_zero] at h0
  rw [word_coherent hcoh, word_coherent (hcfg ▸ hcoh), memWord, memWord, h0, h 1 (by norm_num), h 2 (by norm_num),
    h 3 (by norm_num)]

end

/-! ### FIR commands -/

section
variable {i : Instr} {s s' : State} (hi : i.isFir = true) (hcfg : s'.cfg = s.cfg) (hP : s'.P = s.P)
  (hcoh : s.cfg.hostCoherent = true)
  (hbytes : ∀ r ∈ readRegions i s.P s.esz, ∀ a, r.contains a = true → s'.m0.mem.byteAt a = s.m0.mem.byteAt a)

include hi hcfg hcoh hbytes in
theorem sameWindow_of_regions {j ch : Nat} (hj : j < s.P.outputs) (hch : ch < i.channels) :
    SameWindow s s' i.channels j ch := by
  simp only [readRegions, hi, if_true, List.mem_cons, List.not_mem_nil, or_false, forall_eq_or_imp, forall_eq] at hbytes
  obtain ⟨hsrc, hcoef⟩ := hbytes
  constructor
  · intro hm k hk
    rw [esz_fixed hm] at hsrc hcoef
    exact ⟨half_eq_of_bytes hcfg hcoh fun b hb => hcoef _ (coefElem_mem_firCoef hb (by omega) hk),
      half_eq_of_bytes hcfg hcoh fun b hb => hsrc _ (sourceElem_mem_firSource hb hj hch hk)⟩
  · intro hm k hk
    rw [esz_float hm] at hsrc hcoef
    exact ⟨word_eq_of_bytes hcfg hcoh fun b hb => hcoef _ (coefElem_mem_firCoef hb (by omega) hk),
      word_eq_of_bytes hcfg hcoh fun b hb => hsrc _ (sourceElem_mem_firSource hb hj hch hk)⟩

include hcfg hP in
theorem firEvents_congr (c : Nat) : firEvents s' c = firEvents s c := by
  simp only [firEvents, positionEvents, State.esz, hcfg, hP]

theorem mem_firEvents {c e : Nat} {ev : FirEvent} (h : (e, ev) ∈ firEvents s c) :
    e < s.P.outputs * c ∧ ev ∈ positionEvents s c e := by
  simp only [firEvents, List.mem_flatMap, List.mem_range, List.mem_map, Prod.mk.injEq] at h
  obtain ⟨_, he, _, hev, rfl, rfl⟩ := h
  exact ⟨he, hev⟩

theorem mem_positionEvents_sum {c e j ch : Nat} (h : FirEvent.sum j ch ∈ positionEvents s c e) :
    j = e / c ∧ ch = e % c := by
  simpa [positionEvents_eq] using h

include hi hcfg hP hcoh hbytes in
/-- The first failing event is the same one: accesses are answered by the platform, sums come from the regions. -/
theorem firEvents_find?_congr : (firEvents s' i.channels).find? (fun v => v.2.fails s' i.channels) =
    (firEvents s i.channels).find? (fun v => v.2.fails s i.channels) := by
  rw [firEvents_congr hcfg hP]
  refine List.find?_congr fun v hv => ?_
  obtain ⟨e, ev⟩ := v
  obtain ⟨he, hev⟩ := mem_firEvents hv
  cases ev with
  | access kind a => simp only [FirEvent.fails, State.esz, hcfg]
  | sum j ch =>
    obtain ⟨rfl, rfl⟩ := mem_positionEvents_sum hev
    obtain ⟨hj, hch⟩ := position_lt he
    exact sum_fails_congr hP (sameWindow_of_regions hi hcfg hcoh hbytes hj hch) hcfg

/-- Two states show the same RESULT, ERR, ERR_CODE and ERR_ADDR. -/
def SameAnswer (t t' : State) : Prop :=
  t'.regs.result = t.regs.result ∧ t'.regs.err = t.regs.err ∧ t'.regs.errCode = t.regs.errCode ∧
    t'.regs.errAddr = t.regs.errAddr

theorem Succeeded.sameAnswer {t t' : State} {v : Nat} (h : Succeeded t v) (h' : Succeeded t' v) : SameAnswer t t' :=
  ⟨h'.result.trans h.result.symm, h'.err.trans h.err.symm, h'.errCode.trans h.errCode.symm,
    h'.errAddr.trans h.errAddr.symm⟩

theorem Failed.sameAnswer {t t' : State} {code : ErrCode} {addr : Nat} (h : Failed t code addr)
    (h' : Failed t' code addr) : SameAnswer t t' :=
  ⟨h'.result.trans h.result.symm, h'.err.trans h.err.symm, h'.errCode.trans h.errCode.symm,
    h'.errAddr.trans h.errAddr.symm⟩

include hi hcfg hP hcoh hbytes in
/-- A FIR command is a function of its read regions: what it answers, and what it leaves in its destination. -/
theorem completeFir_congr (hd : s'.draws = s.draws) (hcheck : staticCheck i s.P s.esz = none) :
    SameAnswer (completeFir i s) (completeFir i s') ∧ ∀ a, (destRegion i s.P s.esz).contains a = true →
      (completeFir i s').mem.byteAt a = (completeFir i s).mem.byteAt a := by
  have hesz : s'.esz = s.esz := by rw [State.esz, State.esz, hcfg]
  have hcheck' : staticCheck i s'.P s'.esz = none := by rwa [hP, hesz]
  have hfind := firEvents_find?_congr hi hcfg hP hcoh hbytes
  have hword {e : Nat} (he : e < s.P.outputs * i.channels) : firWord s' i.channels e = firWord s i.channels e := by
    obtain ⟨hj, hch⟩ := position_lt he
    exact firWord_congr hcfg hP hd (sameWindow_of_regions hi hcfg hcoh hbytes hj hch)
  have hregion {a : Nat} (ha : (destRegion i s.P s.esz).contains a = true) :
      ∃ e k, e < s.P.outputs * i.channels ∧ k < s.esz ∧ a = destElem s.P s.esz e + k := by
    simp only [destRegion, hi, if_true, firDest] at ha
    obtain ⟨hge, hlt⟩ := (contains_iff ..).1 ha
    exact exists_element (esz_pos s) hge hlt
  cases hv : (firEvents s i.channels).find? (fun v => v.2.fails s i.channels) with
  | none =>
    obtain ⟨hok, hstored⟩ := completeFir_of_no_event hcheck hv
    obtain ⟨hok', hstored'⟩ := completeFir_of_no_event hcheck' (hfind.trans hv)
    rw [hP] at hok' hstored'
    refine ⟨hok.sameAnswer hok', fun a ha => ?_⟩
    obtain ⟨e, k, he, hk, rfl⟩ := hregion ha
    exact (hstored e he).byteAt_eq (hstored' e he) hP hcfg (hword he) hk
  | some v =>
    obtain ⟨e, ev⟩ := v
    obtain ⟨hlt, hfailed, hstored, hfree⟩ := completeFir_of_event hi hcheck hv
    obtain ⟨-, hfailed', hstored', hfree'⟩ := completeFir_of_event hi hcheck' (hfind.trans hv)
    rw [hP, hesz, hd] at hfree'
    refine ⟨hfailed.sameAnswer hfailed', fun a ha => ?_⟩
    obtain ⟨g, k, hg, hk, rfl⟩ := hregion ha
    by_cases hge : g < e
    · exact (hstored g hge).byteAt_eq (hstored' g hge) hP hcfg (hword hg) hk
    · have hfrom := destElem_mono s.P s.esz (Nat.le_of_not_lt hge)
      have hend := destElem_mono s.P s.esz (Nat.succ_le_of_lt hg)
      rw [destElem_succ] at hend
      rw [hfree _ (by omega) (by omega), hfree' _ (by omega) (by omega)]

end

/-! ### CORR_SEARCH -/

section
variable {α : Type} (q : Search α) (w : Nat → Except RunError (List (α × α))) (ps : Nat → List (α × α))

theorem normAt_withWindow (i : Nat) : { q with window := w }.normAt ps i = q.normAt ps i := by
  induction i with
  | zero => rfl
  | succ i ih => rw [Search.normAt, Search.normAt, ih]; rfl

/-- Scores are computed from the elements that were read, not from how they were read. -/
theorem scoreAt_withWindow : { q with window := w }.scoreAt ps = q.scoreAt ps := by
  funext i
  simp only [Search.scoreAt, Search.normValueAt, normAt_withWindow]

variable {q w ps}

/-- Two searches that read the same windows find the same offset, whatever the registers held before. -/
theorem scan_bestOff_congr {n : Nat} (hq : ∀ k, k ≤ n → q.window k = .ok (ps k)) (hw : ∀ k, k ≤ n → w k = .ok (ps k))
    (h h' : Hidden) : ({ q with window := w }.scan (n + 1) 0 [] h').hidden.bestOff =
      (q.scan (n + 1) 0 [] h).hidden.bestOff := by
  obtain ⟨g, hscan, hstate⟩ := scan_ok h hq
  obtain ⟨g', hscan', hstate'⟩ := scan_ok (q := { q with window := w }) h' hw
  rw [hscan, hscan']
  rw [hstate.bestOff, hstate'.bestOff, scoreAt_withWindow]

end

section
variable {s s' : State} {c : Nat} {nm : NormMode} (hcfg : s'.cfg = s.cfg) (hP : s'.P = s.P)
  (hcoh : s.cfg.hostCoherent = true)
  (hbytes : ∀ r ∈ readRegions (.corrSearch c nm) s.P s.esz, ∀ a, r.contains a = true →
    s'.m0.mem.byteAt a = s.m0.mem.byteAt a)

theorem windowPairs_congr {α : Type} {v v' : Nat → α} {p : Params} {esz i : Nat}
    (h : ∀ k, k < p.window c → v' (refElem p esz c i k) = v (refElem p esz c i k) ∧
      v' (cmpElem p esz k) = v (cmpElem p esz k)) : windowPairs v' p esz c i = windowPairs v p esz c i := by
  refine List.map_congr_left fun k hk => ?_
  obtain ⟨href, hcmp⟩ := h k (List.mem_range.1 hk)
  rw [href, hcmp]

include hcfg hP hcoh hbytes in
/-- With every read answered, the offset found is a function of the read regions. -/
theorem corrRun_bestOff_congr (hcount : 0 < s.P.count.toNat) (hr : CorrReadable s c) :
    (corrRun c nm s').hidden.bestOff = (corrRun c nm s).hidden.bestOff := by
  simp only [readRegions, Instr.isFir, Instr.channels, Bool.false_eq_true, if_false, List.mem_cons, List.not_mem_nil,
    or_false, forall_eq_or_imp, forall_eq] at hbytes
  obtain ⟨href, hcmp⟩ := hbytes
  obtain ⟨n, hn⟩ := Nat.exists_eq_succ_of_ne_zero hcount.ne'
  cases hm : s.cfg.sampleMode with
  | fixed =>
    rw [esz_fixed hm] at href hcmp
    rw [CorrReadable, esz_fixed hm] at hr
    have hread (i : Nat) (hi : i ≤ n) (k : Nat) := hr i k (by omega)
    simp only [corrRun, hcfg, hm, hP, hn]
    refine scan_bestOff_congr (q := searchOf s.load16 corrFixed s.P 2 c nm) (ps := windowPairs s.half s.P 2 c)
      (fun i hi => searchOf_window (load16_eq s) corrFixed s.P 2 c nm i (hread i hi)) (fun i hi => ?_) _ _
    refine (searchOf_window (load16_eq s') corrFixed s.P 2 c nm i (hcfg.symm ▸ hread i hi)).trans
      (congrArg _ (windowPairs_congr fun k hk => ⟨?_, ?_⟩))
    · exact half_eq_of_bytes hcfg hcoh fun b hb => href _ (refElem_mem_corrReference hb (by omega) hk)
    · exact half_eq_of_bytes hcfg hcoh fun b hb => hcmp _ (cmpElem_mem_corrCompare hb hk)
  | float =>
    rw [esz_float hm] at href hcmp
    rw [CorrReadable, esz_float hm] at hr
    have hread (i : Nat) (hi : i ≤ n) (k : Nat) := hr i k (by omega)
    simp only [corrRun, hcfg, hm, hP, hn]
    refine scan_bestOff_congr (q := searchOf s.load32 corrFloat s.P 4 c nm) (ps := windowPairs s.word s.P 4 c)
      (fun i hi => searchOf_window (load32_eq s) corrFloat s.P 4 c nm i (hread i hi)) (fun i hi => ?_) _ _
    refine (searchOf_window (load32_eq s') corrFloat s.P 4 c nm i (hcfg.symm ▸ hread i hi)).trans
      (congrArg _ (windowPairs_congr fun k hk => ⟨?_, ?_⟩))
    · exact word_eq_of_bytes hcfg hcoh fun b hb => href _ (refElem_mem_corrReference hb (by omega) hk)
    · exact word_eq_of_bytes hcfg hcoh fun b hb => hcmp _ (cmpElem_mem_corrCompare hb hk)

include hcfg hP hcoh hbytes in
theorem completeCorr_congr (hcheck : staticCheck (.corrSearch c nm) s.P s.esz = none) :
    SameAnswer (completeCorr c nm s) (completeCorr c nm s') := by
  have hesz : s'.esz = s.esz := by rw [State.esz, State.esz, hcfg]
  have hcheck' : staticCheck (.corrSearch c nm) s'.P s'.esz = none := by rwa [hP, hesz]
  have hfind : (corrAccesses s' c).find? (fun a => !memOk s'.cfg a s'.esz .read) =
      (corrAccesses s c).find? (fun a => !memOk s.cfg a s.esz .read) := by
    simp only [corrAccesses, hcfg, hP, hesz]
  cases ha : (corrAccesses s c).find? (fun a => !memOk s.cfg a s.esz .read) with
  | some a =>
    rw [completeCorr_of_failing_read hcheck ha, completeCorr_of_failing_read hcheck' (hfind.trans ha)]
    exact (completeErr_failed ..).sameAnswer (completeErr_failed ..)
  | none =>
    obtain ⟨-, hcount, -⟩ := corr_counts_pos hcheck
    rw [completeCorr_of_no_failing_read hcheck ha, completeCorr_of_no_failing_read hcheck' (hfind.trans ha),
      corrRun_bestOff_congr hcfg hP hcoh hbytes hcount (corrReadable_of_no_failing_read ha)]
    exact (completeOk_succeeded ..).sameAnswer (completeOk_succeeded ..)

end

theorem corrSearch_of_not_isFir {i : Instr} (hi : i.isFir = false) :
    ∃ c nm, i = .corrSearch c nm := by
  cases i with
  | corrSearch c nm => exact ⟨c, nm, rfl⟩
  | firMono => cases hi
  | firStereo => cases hi
  | firMulti c => cases hi

/-- Settles O41: a static error is a function of P, and past the checks the command is one of its read regions. -/
theorem commandDependsOnlyOnItsRegions : Obligations.CommandDependsOnlyOnItsRegions := by
  intro i s s' t t' hcfg hP hd hcoh hbytes h h'
  have hesz : s'.esz = s.esz := by rw [State.esz, State.esz, hcfg]
  suffices hboth : SameAnswer t t' ∧ (staticCheck i s.P s.esz = none →
      ∀ a, (destRegion i s.P s.esz).contains a = true → t'.mem.byteAt a = t.mem.byteAt a) by
    obtain ⟨⟨hresult, herr, hcode, haddr⟩, hmem⟩ := hboth
    exact ⟨hresult, herr, hcode, haddr, hmem⟩
  cases hcheck : staticCheck i s.P s.esz with
  | some code =>
    rw [exec_of_staticCheck_some hcheck] at h
    rw [exec_of_staticCheck_some (code := code) (by rwa [hP, hesz])] at h'
    cases h
    cases h'
    exact ⟨(completeErr_failed ..).sameAnswer (completeErr_failed ..), fun hn => by cases hn⟩
  | none =>
    cases hi : i.isFir with
    | true =>
      rw [exec_of_isFir hi] at h h'
      cases h
      cases h'
      obtain ⟨hanswer, hmem⟩ := completeFir_congr hi hcfg hP hcoh hbytes hd hcheck
      exact ⟨hanswer, fun _ => hmem⟩
    | false =>
      obtain ⟨c, nm, rfl⟩ := corrSearch_of_not_isFir hi
      cases h
      cases h'
      refine ⟨completeCorr_congr hcfg hP hcoh hbytes hcheck, fun _ a ha => ?_⟩
      obtain ⟨hge, hlt⟩ := (contains_iff ..).1 ha
      exact absurd hlt (Nat.not_lt.2 hge)

end Sys2Proof.Machine
end

section
/-! PROOFS. Host accesses to data memory beside a command, and what skipped cache maintenance makes free
(20_memory.md R77, R80; 70_reset_and_hazards.md R271, R277). -/

namespace Sys2Proof.Machine

section
variable {s : State}

/-! ### The regions of the running command -/

theorem busyRegions_command {i : Instr} (hp : s.phase = .busy) (hd : decode s.P.cmd = .command i) :
    s.busyRegions = destRegion i s.P s.esz :: readRegions i s.P s.esz := by
  simp [State.busyRegions, State.isBusy, State.running, hp, hd]

/-- A machine is BUSY with a legal command, or has no region to guard and no destination. -/
theorem busy_cases (s : State) : (∃ i, s.phase = .busy ∧ decode s.P.cmd = .command i) ∨
    (s.busyRegions = [] ∧ s.busyDest = ⟨0, 0⟩) := by
  cases hp : s.phase with
  | idle => exact .inr ⟨by simp [State.busyRegions, State.isBusy, hp], busyDest_idle hp⟩
  | busy =>
    cases hd : decode s.P.cmd with
    | command i => exact .inl ⟨i, rfl, rfl⟩
    | illegal why => exact .inr ⟨by simp [State.busyRegions, State.running, hd], busyDest_illegal hd⟩

/-! ### Host writes -/

section
variable {addr : Nat} {bytes : List Byte} (hspace : addr + bytes.length ≤ 4294967296)
include hspace

theorem step_memWrite_refused (h : s.busyRegions.any (Region.meets ⟨addr, bytes.length⟩) = true) :
    step (s.thenDoes (.memWrite addr bytes)) = .refused .bufferHazard := by
  have hin : inDataSpace addr bytes.length = true := decide_eq_true hspace
  simp only [step_thenDoes, runEvent, hostMemWrite, hin, h, Bool.not_true, Bool.false_eq_true, if_false, if_true]

theorem step_memWrite_stored (h : s.busyRegions.any (Region.meets ⟨addr, bytes.length⟩) = false) :
    step (s.thenDoes (.memWrite addr bytes)) =
      .next ({ s with mem := Memory.writeBytes s.mem addr bytes }.mark .hostWrote addr bytes.length) := by
  have hin : inDataSpace addr bytes.length = true := decide_eq_true hspace
  simp only [step_thenDoes, runEvent, hostMemWrite, hin, h, Bool.not_true, Bool.false_eq_true, if_false]

end

/-- Settles O56: the write meets a region of the running command, or none. -/
theorem hostWritesStoreOrAreRefused : Obligations.HostWritesStoreOrAreRefused := by
  refine fun s addr bytes hspace => ⟨fun i hp hd hmeets => ?_, fun hclear => ?_⟩
  · obtain ⟨r, hr, hmeets⟩ := hmeets
    refine step_memWrite_refused hspace (List.any_eq_true.2 ⟨r, ?_, hmeets⟩)
    rw [busyRegions_command hp hd]
    exact List.mem_cons.2 hr
  · have hnone : s.busyRegions.any (Region.meets ⟨addr, bytes.length⟩) = false := by
      obtain ⟨i, hp, hd⟩ | ⟨hregions, -⟩ := busy_cases s
      · rw [busyRegions_command hp hd, List.any_eq_false]
        exact fun r hr => Bool.eq_false_iff.1 (hclear i hp hd r (List.mem_cons.1 hr))
      · rw [hregions]; rfl
    refine ⟨_, step_memWrite_stored hspace hnone, fun k hk => ?_, fun a ha => ?_, mark_regs .., mark_P .., mark_m0 ..,
      mark_phase ..⟩
    · rw [mark_mem]; exact Memory.byteAt_writeBytes_inside _ _ k hk
    · rw [mark_mem]; exact Memory.byteAt_writeBytes_outside _ _ ha

/-! ### Host reads -/

theorem hostByte_of_busyDest {a : Nat} (h : s.busyDest.contains a = true) :
    s.hostByte a = Config.freeByte s.draws a := by
  simp only [State.hostByte, h, Bool.true_or, if_true]

theorem hostByte_of_memory {a : Nat} (h : s.busyDest.contains a = false)
    (hc : s.cfg.hostCoherent = true ∨ isStale s.cache a = false) : s.hostByte a = Memory.byteAt s.mem a := by
  obtain hc | hc := hc <;> simp [State.hostByte, h, hc]

theorem contains_empty (base a : Nat) : (⟨base, 0⟩ : Region).contains a = false := by
  rw [contains_eq_false_iff]
  exact Nat.lt_or_ge a base

/-- Settles O57: byte by byte, in the destination of the running command or not. -/
theorem hostReadsOfTheDestinationAreFree : Obligations.HostReadsOfTheDestinationAreFree := by
  intro s addr n hspace hcoh
  have hin : inDataSpace addr n = true := decide_eq_true hspace
  refine ⟨{ s with
      replies := .data addr ((List.range n).map fun k => s.hostByte (addr + k)) :: s.replies
      draws := s.draws + 1 }, _, ?_, rfl, by rw [List.length_map, List.length_range], rfl, rfl, fun k hk => ?_⟩
  · simp only [step_thenDoes, runEvent, hostMemRead, hin, Bool.not_true, Bool.false_eq_true, if_false]
  · rw [List.getElem_map, List.getElem_range]
    refine ⟨fun ⟨i, hp, hd, ha⟩ => hostByte_of_busyDest ?_, fun hclear => hostByte_of_memory ?_ (.inl hcoh)⟩
    · rwa [busyDest_command hp hd]
    · obtain ⟨i, hp, hd⟩ | ⟨-, hdest⟩ := busy_cases s
      · rw [busyDest_command hp hd]; exact hclear i hp hd
      · rw [hdest]; exact contains_empty ..

/-! ### The newest cache mark -/

section
variable (hc : s.cfg.hostCoherent = false) {base size a : Nat} (hge : base ≤ a) (hlt : a < base + size)
include hc hge hlt

theorem newestMark_mark {p : MarkKind → Bool} {k : MarkKind} (hk : p k = true) :
    newestMark p a (s.mark k base size).cache = some k := by
  rw [mark_cache s k base size hc (by omega)]
  exact newestMark_hit _ hk ((inRange_iff ..).2 ⟨hge, hlt⟩)

theorem isCleaned_mark {k : MarkKind} (hk : k = .hostWrote ∨ k = .cleaned) :
    isCleaned (s.mark k base size).cache a = decide (k = .cleaned) := by
  rw [isCleaned, newestMark_mark hc hge hlt (decide_eq_true hk)]
  simp only [Option.some.injEq]

theorem isStale_mark {k : MarkKind} (hk : k ≠ .cleaned) :
    isStale (s.mark k base size).cache a = decide (k = .engineWrote) := by
  rw [isStale, newestMark_mark hc hge hlt (decide_eq_true hk)]
  simp only [Option.some.injEq]

end

/-! ### What the engine sees -/

theorem sees_of_uncleaned (hc : s.cfg.hostCoherent = false) {a k n : Nat} (hk : k < n)
    (h : isCleaned s.m0.marks (a + k) = false) : s.sees a n = false := by
  rw [State.sees, hc, Bool.false_or, List.all_eq_false]
  exact ⟨k, List.mem_range.2 hk, Bool.eq_false_iff.1 h⟩

theorem half_of_unseen {a : Nat} (h : s.sees a 2 = false) :
    s.half a = Config.freeByte s.m0.draw (a + 1) ++ Config.freeByte s.m0.draw a := by
  simp only [State.half, State.engineByte, h, Bool.false_eq_true, if_false]

theorem word_of_unseen {a : Nat} (h : s.sees a 4 = false) :
    s.word a = Config.freeByte s.m0.draw (a + 3) ++ Config.freeByte s.m0.draw (a + 2) ++
      Config.freeByte s.m0.draw (a + 1) ++ Config.freeByte s.m0.draw a := by
  simp only [State.word, State.engineByte, h, Bool.false_eq_true, if_false]

theorem half_of_seen {a : Nat} (h : s.sees a 2 = true) : s.half a = memHalf s.m0.mem a := by
  simp only [State.half, State.engineByte, h, if_true, memHalf]

theorem word_of_seen {a : Nat} (h : s.sees a 4 = true) : s.word a = memWord s.m0.mem a := by
  simp only [State.word, State.engineByte, h, if_true, memWord]

/-- A command started right after a clean sees the elements in the cleaned range. -/
theorem sees_after_clean (hc : s.cfg.hostCoherent = false) {base size a n : Nat} (hge : base ≤ a)
    (hend : a + n ≤ base + size) : (acceptStart (s.mark .cleaned base size)).sees a n = true := by
  rw [State.sees, Bool.or_eq_true, List.all_eq_true]
  refine .inr fun k hk => ?_
  have := List.mem_range.1 hk
  exact isCleaned_mark hc (by omega) (by omega) (.inr rfl)

/-! ### What the host sees after the engine wrote -/

/-- The bytes under a newest engine mark are free to the host (20_memory.md R80). -/
theorem stale_after_engine {t : State} (hc : t.cfg.hostCoherent = false) {r : Region} {a : Nat}
    (ha : r.contains a = true) : isStale (t.mark .engineWrote r.base r.size).cache a = true ∧
      (t.mark .engineWrote r.base r.size).hostByte a = Config.freeByte (t.mark .engineWrote r.base r.size).draws a := by
  obtain ⟨hge, hlt⟩ := (contains_iff ..).1 ha
  have hstale : isStale (t.mark .engineWrote r.base r.size).cache a = true :=
    isStale_mark hc hge hlt (by decide)
  exact ⟨hstale, hostByte_of_stale _ ((congrArg Config.hostCoherent (mark_cfg ..)).trans hc) hstale⟩

/-- A FIR command with outputs ends with an engine mark over its destination, however it ends. -/
theorem completeFir_marks {i : Instr} (hi : i.isFir = true) (hcheck : staticCheck i s.P s.esz = none)
    (hlt : s.P.len.toNat < s.P.count.toNat) : ∃ t : State, completeFir i s =
      t.mark .engineWrote (destRegion i s.P s.esz).base (destRegion i s.P s.esz).size ∧ t.cfg = s.cfg := by
  have hdest : destRegion i s.P s.esz = ⟨s.P.dstAddr.toNat, s.P.outputs * i.channels * s.esz⟩ := by
    rw [destRegion, hi, if_pos rfl, firDest]
  obtain ⟨_, hc, -⟩ | ⟨-, hout, -⟩ | ⟨-, -, hc⟩ := completeFir_cases i s
  · rw [hcheck] at hc; cases hc
  · unfold Params.outputs at hout; omega
  · rw [hdest]
    exact ⟨_, hc, (firFinish_keepsRest s i.channels (firRun s i.channels)).cfg⟩

/-- Reset ends with an engine mark over the destination it abandons (log 24). -/
theorem platformReset_marks (s : State) : ∃ t : State,
    platformReset s = t.mark .engineWrote s.busyDest.base s.busyDest.size ∧ t.cfg = s.cfg := ⟨_, rfl, rfl⟩

/-- Settles O58: each event's mark is the newest over its bytes. -/
theorem skippedCacheMaintenanceGivesFreeData : Obligations.SkippedCacheMaintenanceGivesFreeData := by
  intro s hc
  refine ⟨fun a k hk h => half_of_unseen (sees_of_uncleaned hc hk h),
    fun a k hk h => word_of_unseen (sees_of_uncleaned hc hk h),
    fun base size => ⟨_, step_thenDoes s (.cacheClean base size), fun a hge hend => ?_, fun a hge hend => ?_⟩,
    fun addr bytes t h a hge hlt => ?_, fun i t hi hcheck hlt h a ha => ?_,
    fun i hp hd => ⟨_, step_thenDoes s .reset, fun a ha => ?_⟩, fun a _ h => hostByte_of_stale s hc h,
    fun base size a hge hlt hp => ⟨_, step_thenDoes s (.cacheInvalidate base size), ?_⟩⟩
  · rw [half_of_seen (sees_after_clean hc hge hend), acceptStart_m0, mark_mem]
  · rw [word_of_seen (sees_after_clean hc hge hend), acceptStart_m0, mark_mem]
  · rw [step_thenDoes] at h
    obtain ⟨_, _, _, he, -⟩ | ⟨_, _, he, -⟩ | ⟨_, _, he, -, -, rfl⟩ | ⟨_, _, he, -⟩ | ⟨he, -⟩ | ⟨_, _, he, -⟩ |
      ⟨_, _, he, -⟩ | ⟨he, -⟩ | ⟨he, -⟩ := runEvent_cases h <;> cases he
    have hc' : { s with mem := Memory.writeBytes s.mem addr bytes }.cfg.hostCoherent = false := hc
    exact ⟨isCleaned_mark hc' hge hlt (.inl rfl), isStale_mark hc' hge hlt (by decide)⟩
  · rw [exec_of_isFir hi] at h
    cases h
    obtain ⟨t, ht, hcfg⟩ := completeFir_marks hi hcheck hlt
    rw [ht]
    exact stale_after_engine (by rw [hcfg, hc]) ha
  · obtain ⟨t, ht, hcfg⟩ := platformReset_marks s
    rw [← busyDest_command hp hd] at ha
    rw [ht]
    exact stale_after_engine (by rw [hcfg, hc]) ha
  · refine hostByte_of_memory ?_ (.inr (isStale_mark hc hge hlt (by decide)))
    rw [busyDest_idle ((mark_phase ..).trans hp)]
    exact contains_empty ..

end

end Sys2Proof.Machine
end

section
/-! PROOFS. The element writes of a host script, step by step beside an idle engine (30_encoding.md R100). -/

namespace Sys2Proof.Machine

/-! ### Element writes -/

/-- One write per value, each of the `w` bytes `f` gives it, at rising addresses. -/
def elementWrites {α : Type} (w : Nat) (f : α → List Byte) : Nat → List α → List Event
  | _, [] => []
  | a, v :: vs => .memWrite a (f v) :: elementWrites w f (a + w) vs

/-- The bytes of an int16 element, little-endian (20_memory.md R62). -/
def bytes16 (v : BitVec 16) : List Byte := [v.extractLsb' 0 8, v.extractLsb' 8 8]

/-- The bytes of a 32-bit element, little-endian (20_memory.md R62). -/
def bytes32 (v : Word) : List Byte := [v.extractLsb' 0 8, v.extractLsb' 8 8, v.extractLsb' 16 8, v.extractLsb' 24 8]

theorem writes16_eq (a : Nat) (vs : List (BitVec 16)) : writes16 a vs = elementWrites 2 bytes16 a vs := by
  induction vs generalizing a with
  | nil => rfl
  | cons v vs ih => rw [writes16, elementWrites, ih]; rfl

theorem writes32_eq (a : Nat) (vs : List Word) : writes32 a vs = elementWrites 4 bytes32 a vs := by
  induction vs generalizing a with
  | nil => rfl
  | cons v vs ih => rw [writes32, elementWrites, ih]; rfl

/-- A host write beside an idle engine is stored (20_memory.md R62). -/
theorem step_memWrite_idle {s : State} {addr : Nat} {bytes : List Byte} {rest : List Event} (hp : s.phase = .idle)
    (hspace : addr + bytes.length ≤ 4294967296) (ha : s.agenda = .memWrite addr bytes :: rest) :
    ∃ t, step s = .next t ∧ t.phase = .idle ∧ t.agenda = rest ∧ t.regs = s.regs ∧
      t.mem = Memory.writeBytes s.mem addr bytes := by
  have hnone : ({ s with agenda := rest } : State).busyRegions.any (Region.meets ⟨addr, bytes.length⟩) = false := by
    simp [State.busyRegions, State.isBusy, hp]
  have hstep := step_memWrite_stored (s := { s with agenda := rest }) hspace hnone
  rw [step_thenDoes] at hstep
  exact ⟨_, (step_cons ha).trans hstep, (mark_phase ..).trans hp, mark_agenda .., mark_regs .., mark_mem ..⟩

/-- What the element writes leave: the elements at their addresses, and every other byte and the registers as before. -/
structure ElementsStored {α : Type} (w : Nat) (f : α → List Byte) (a : Nat) (vs : List α) (s t : State) : Prop where
  regs   : t.regs = s.regs
  inside : ∀ k, (hk : k < vs.length) → ∀ b, (hb : b < (f vs[k]).length) → t.mem.byteAt (a + w * k + b) = (f vs[k])[b]
  outside : ∀ x, x < a ∨ a + w * vs.length ≤ x → t.mem.byteAt x = s.mem.byteAt x

/-- Beside an idle engine the element writes all go on, one step each, before what else is pending. -/
theorem runSteps_elementWrites {α : Type} {w : Nat} {f : α → List Byte} (hf : ∀ v, (f v).length = w) {s : State}
    {a : Nat} {vs : List α} {rest : List Event} (hp : s.phase = .idle) (hspace : a + w * vs.length ≤ 4294967296)
    (ha : s.agenda = elementWrites w f a vs ++ rest) :
    ∃ t, runSteps vs.length s = .next t ∧ t.agenda = rest ∧ ElementsStored w f a vs s t := by
  induction vs generalizing s a with
  | nil => exact ⟨s, rfl, ha, rfl, fun k hk => absurd hk (Nat.not_lt_zero k), fun _ _ => rfl⟩
  | cons v vs ih =>
    rw [List.length_cons, Nat.mul_succ] at hspace
    obtain ⟨u, hstep, hidle, hrest, hkept, hmem⟩ := step_memWrite_idle hp (by rw [hf]; omega) ha
    obtain ⟨t, hrun, hagenda, hregs, hinside, houtside⟩ := ih hidle (by omega) hrest
    refine ⟨t, ?_, hagenda, hregs.trans hkept, fun k hk b hb => ?_, fun x hx => ?_⟩
    · rw [List.length_cons, runSteps, hstep]; exact hrun
    · cases k with
      | zero =>
        rw [houtside _ (.inl (by rw [Nat.mul_zero, ← hf v]; exact Nat.add_lt_add_left hb a)), hmem]
        exact Memory.byteAt_writeBytes_inside _ (f v) b hb
      | succ k =>
        rw [show a + w * (k + 1) + b = a + w + w * k + b by rw [Nat.mul_succ]; omega]
        exact hinside k (Nat.lt_of_succ_lt_succ hk) b hb
    · rw [List.length_cons, Nat.mul_succ] at hx
      rw [houtside x (by omega), hmem]
      exact Memory.byteAt_writeBytes_outside _ _ (by rw [hf]; omega)

theorem ElementsStored.memHalf {a : Nat} {vs : List (BitVec 16)} {s t : State}
    (h : ElementsStored 2 bytes16 a vs s t) {k : Nat} (hk : k < vs.length) : memHalf t.mem (a + 2 * k) = vs[k] := by
  have h0 := h.inside k hk 0 (by simp [bytes16])
  have h1 := h.inside k hk 1 (by simp [bytes16])
  rw [Nat.add_zero] at h0
  rw [Machine.memHalf, h0, h1]
  simp only [bytes16, List.getElem_cons_zero, List.getElem_cons_succ]
  rw [BitVec.extractLsb'_append_extractLsb'_eq_extractLsb' (show 8 = 0 + 8 from rfl)]
  exact BitVec.extractLsb'_eq_self

theorem ElementsStored.memWord {a : Nat} {vs : List Word} {s t : State}
    (h : ElementsStored 4 bytes32 a vs s t) {k : Nat} (hk : k < vs.length) : memWord t.mem (a + 4 * k) = vs[k] := by
  have h0 := h.inside k hk 0 (by simp [bytes32])
  have h1 := h.inside k hk 1 (by simp [bytes32])
  have h2 := h.inside k hk 2 (by simp [bytes32])
  have h3 := h.inside k hk 3 (by simp [bytes32])
  rw [Nat.add_zero] at h0
  rw [Machine.memWord, h0, h1, h2, h3]
  simp only [bytes32, List.getElem_cons_zero, List.getElem_cons_succ]
  rw [BitVec.extractLsb'_append_extractLsb'_eq_extractLsb' (show 24 = 16 + 8 from rfl),
    BitVec.extractLsb'_append_extractLsb'_eq_extractLsb' (show 16 = 8 + 8 from rfl),
    BitVec.extractLsb'_append_extractLsb'_eq_extractLsb' (show 8 = 0 + 8 from rfl)]
  exact BitVec.extractLsb'_eq_self

theorem agenda_of_thenScript (s : State) (h : HostState) (st : Stmt) :
    (s.thenScript h [st]).agenda = st.transactions s.cfg.engineBase h ++ s.agenda := by
  simp only [State.thenScript, List.flatMap_cons, List.flatMap_nil, List.append_nil]

/-- Settles O59: the transactions of `mem16` and `mem32` are element writes. -/
theorem scriptMemoryWritesStoreElements : Obligations.ScriptMemoryWritesStoreElements := by
  refine fun s h a hp => ⟨fun vs hspace => ?_, fun vs hspace => ?_⟩
  · obtain ⟨t, hrun, hagenda, hstored⟩ := runSteps_elementWrites (f := bytes16) (fun _ => rfl)
      (s := s.thenScript h [.mem16 a vs]) hp hspace (by rw [agenda_of_thenScript, Stmt.transactions, writes16_eq])
    exact ⟨t, hrun, hagenda, hstored.regs, fun k hk => hstored.memHalf hk, hstored.outside⟩
  · obtain ⟨t, hrun, hagenda, hstored⟩ := runSteps_elementWrites (f := bytes32) (fun _ => rfl)
      (s := s.thenScript h [.mem32 a vs]) hp hspace (by rw [agenda_of_thenScript, Stmt.transactions, writes32_eq])
    exact ⟨t, hrun, hagenda, hstored.regs, fun k hk => hstored.memWord hk, hstored.outside⟩

end Sys2Proof.Machine
end

section
/-! PROOFS. The expansions of the pseudo-instructions, run in place in any script (30_encoding.md R102). -/

namespace Sys2Proof.Machine

/-! ### Where a fragment stands in a script -/

theorem script_getElem? {α : Type} (pre frag post : List α) {k : Nat} (hk : k < frag.length) :
    (pre ++ frag ++ post)[pre.length + k]? = some frag[k] := by
  rw [List.append_assoc, List.getElem?_append_right (Nat.le_add_right _ _), Nat.add_sub_cancel_left,
    List.getElem?_append_left hk, List.getElem?_eq_getElem hk]

theorem labelIndex_append {pre : List Stmt} {w : String} (h : Stmt.label w ∉ pre) (rest : List Stmt) :
    labelIndex (pre ++ .label w :: rest) w = pre.length := by
  have hnone : ¬ ∃ st, st ∈ pre ∧ decide (st = Stmt.label w) = true := by
    rintro ⟨st, hst, hw⟩
    exact h (of_decide_eq_true hw ▸ hst)
  rw [labelIndex, List.findIdx_append, if_neg (by simpa using hnone), List.findIdx_cons, decide_eq_true rfl]
  exact Nat.zero_add _

/-! ### Runs of register writes -/

/-- The register write of an assignment, as the trace shows it. -/
def writeTransaction (base : Nat) (h : HostState) (q : Reg × HostExpr) : Event × Option Word :=
  (.regWrite (base + q.1.offset) 4 (BitVec.ofNat 32 (q.2.eval h)), none)

/-- The machine after the register writes of the assignments `ws`, in order. -/
def State.writeAll (s : State) (h : HostState) (ws : List (Reg × HostExpr)) : State :=
  ws.foldl (fun t q => writeRegister t (BitVec.ofNat 32 (q.2.eval h)) q.1) s

@[simp] theorem writeAll_nil (s : State) (h : HostState) : s.writeAll h [] = s := rfl

@[simp] theorem writeAll_cons (s : State) (h : HostState) (q : Reg × HostExpr) (ws : List (Reg × HostExpr)) :
    s.writeAll h (q :: ws) = (writeRegister s (BitVec.ofNat 32 (q.2.eval h)) q.1).writeAll h ws := rfl

theorem writeAll_append (s : State) (h : HostState) (ws us : List (Reg × HostExpr)) :
    s.writeAll h (ws ++ us) = (s.writeAll h ws).writeAll h us := List.foldl_append

/-- A fragment of register writes makes them one by one, and stands at its end. -/
theorem runScript_writes (ws : List (Reg × HostExpr)) {pre post : List Stmt} {r : ScriptRun}
    (hpc : r.host.pc = pre.length) (hpend : r.pending = []) (hb : r.machine.cfg.engineBase % 4 = 0) :
    runScript (pre ++ ws.map (fun q => .wr q.1 q.2) ++ post) (List.replicate ws.length .host) r = .next
      { host := { r.host with pc := pre.length + ws.length }
        pending := []
        machine := r.machine.writeAll r.host ws
        trace := (ws.map (writeTransaction r.machine.cfg.engineBase r.host)).reverse ++ r.trace } := by
  induction ws generalizing pre r with
  | nil =>
    obtain ⟨host, pending, machine, trace⟩ := r
    obtain ⟨pc, vars⟩ := host
    obtain rfl : pending = [] := hpend
    obtain rfl : pc = pre.length := hpc
    rfl
  | cons q ws ih =>
    have hstmt : (pre ++ (q :: ws).map (fun q => Stmt.wr q.1 q.2) ++ post)[r.host.pc]? = some (.wr q.1 q.2) := by
      rw [hpc]
      exact script_getElem? pre ((q :: ws).map fun q => Stmt.wr q.1 q.2) post (k := 0) (Nat.succ_pos _)
    have hprog : pre ++ (q :: ws).map (fun q => Stmt.wr q.1 q.2) ++ post =
        (pre ++ [.wr q.1 q.2]) ++ ws.map (fun q => Stmt.wr q.1 q.2) ++ post := by simp
    rw [List.length_cons, List.replicate_succ, runScript_host (hostMove_wr hstmt hpend hb), hprog,
      ih (by simp [hpc]) rfl (by rw [writeRegister_cfg]; exact hb)]
    have heval (h : HostState) (n : Nat) (m : State) : m.writeAll { h with pc := n } ws = m.writeAll h ws := by
      simp only [State.writeAll, eval_pc]
    have htrace (base : Nat) (h : HostState) (n : Nat) :
        writeTransaction base { h with pc := n } = writeTransaction base h := by
      funext q
      simp only [writeTransaction, eval_pc]
    simp only [heval, htrace, writeRegister_cfg, List.length_append, List.length_cons, List.length_nil, List.map_cons,
      List.reverse_cons, List.append_assoc, List.cons_append, List.nil_append, writeAll_cons]
    rw [show pre.length + (0 + 1) + ws.length = pre.length + (ws.length + 1) by omega]
    rfl

/-! ### What the writes leave in the registers -/

theorem writeCtrl_irqEn (s : State) (v : Word) : (writeCtrl s v).regs.irqEn = v.getLsbD 1 := by
  obtain ⟨-, h⟩ | ⟨-, -, h⟩ | ⟨-, -, h⟩ := writeCtrl_cases s v <;> exact congrArg (fun t => t.regs.irqEn) h

theorem writeRegister_phase (s : State) (v : Word) {r : Reg} (hr : r ∈ operandRegs) :
    (writeRegister s v r).phase = s.phase := by rw [writeRegister_operand s v hr]; rfl

theorem writeAll_phase (s : State) (h : HostState) {ws : List (Reg × HostExpr)} (hw : ∀ q ∈ ws, q.1 ∈ operandRegs) :
    (s.writeAll h ws).phase = s.phase := by
  induction ws generalizing s with
  | nil => rfl
  | cons q ws ih =>
    rw [writeAll_cons, ih _ fun p hp => hw p (List.mem_cons_of_mem _ hp),
      writeRegister_phase s _ (hw q List.mem_cons_self)]

/-- A write to one operand register leaves the others. -/
theorem readRegister_writeRegister_ne (s : State) (v : Word) {r q : Reg} (hr : r ∈ operandRegs) (hq : q ∈ operandRegs)
    (hne : q ≠ r) : readRegister (writeRegister s v r) q = readRegister s q := by
  revert hne
  unfold operandRegs at hr hq
  fin_cases hr <;> fin_cases hq <;> simp [readRegister, writeRegister]

/-- The value an operand of `run` leaves in its register: the named one, cut to the register's width, or the old one. -/
def runValue (s : State) (h : HostState) (operands : List (Reg × HostExpr)) (q : Reg) : Word :=
  match operands.lookup q with
  | none => readRegister s q
  | some v => if q = .shift then 0#26 ++ (BitVec.ofNat 32 (v.eval h)).extractLsb' 0 6 else BitVec.ofNat 32 (v.eval h)

/-- The assignments `run` makes to the registers `rs`: the first value each is named with. -/
def namedOperands (operands : List (Reg × HostExpr)) (rs : List Reg) : List (Reg × HostExpr) :=
  rs.filterMap fun r => (operands.lookup r).map fun v => (r, v)

theorem namedOperands_cons (operands : List (Reg × HostExpr)) (r : Reg) (rs : List Reg) :
    namedOperands operands (r :: rs) = match operands.lookup r with
      | none => namedOperands operands rs
      | some v => (r, v) :: namedOperands operands rs := by
  rw [namedOperands, List.filterMap_cons]
  cases operands.lookup r <;> rfl

theorem mem_namedOperands {operands : List (Reg × HostExpr)} {rs : List Reg} {q : Reg × HostExpr}
    (h : q ∈ namedOperands operands rs) : q.1 ∈ rs := by
  obtain ⟨r, hr, hq⟩ := List.mem_filterMap.1 h
  obtain ⟨v, -, rfl⟩ := Option.map_eq_some_iff.1 hq
  exact hr

/-- Each register is written at most once, so it holds its own operand at the end. -/
theorem readRegister_writeAll_named (s : State) (h : HostState) (operands : List (Reg × HostExpr)) {rs : List Reg}
    (hrs : rs ⊆ operandRegs) (hnodup : rs.Nodup) {q : Reg} (hq : q ∈ operandRegs) :
    readRegister (s.writeAll h (namedOperands operands rs)) q =
      if q ∈ rs then runValue s h operands q else readRegister s q := by
  induction rs generalizing s with
  | nil => rfl
  | cons r rs ih =>
    obtain ⟨hr, hrs⟩ := List.cons_subset.1 hrs
    obtain ⟨hnot, hnodup⟩ := List.nodup_cons.1 hnodup
    rw [namedOperands_cons]
    cases hl : operands.lookup r with
    | none =>
      rw [ih s hrs hnodup]
      by_cases hqr : q = r
      · subst hqr
        rw [if_neg hnot, if_pos List.mem_cons_self, runValue, hl]
      · simp only [List.mem_cons, hqr, false_or]
    | some v =>
      rw [writeAll_cons, ih _ hrs hnodup]
      by_cases hqr : q = r
      · subst hqr
        rw [if_neg hnot, if_pos List.mem_cons_self, runValue, hl, readRegister_writeRegister _ _ hq]
      · have hkeep := readRegister_writeRegister_ne s (BitVec.ofNat 32 (v.eval h)) hr hq hqr
        simp only [List.mem_cons, hqr, false_or, runValue, hkeep]

/-! ### The fragments -/

section
variable {pre post : List Stmt} {r : ScriptRun} (hpc : r.host.pc = pre.length) (hpend : r.pending = [])
  (hb : r.machine.cfg.engineBase % 4 = 0)
include hpc hpend hb

/-- A fragment of one register write. -/
theorem runScript_write (reg : Reg) (v : HostExpr) : runScript (pre ++ [.wr reg v] ++ post) [.host] r = .next
    { host := { r.host with pc := pre.length + 1 }
      pending := []
      machine := writeRegister r.machine (BitVec.ofNat 32 (v.eval r.host)) reg
      trace := (.regWrite (r.machine.cfg.engineBase + reg.offset) 4 (BitVec.ofNat 32 (v.eval r.host)), none) ::
        r.trace } := runScript_writes [(reg, v)] hpc hpend hb

end

/-- The value `clr` writes clears all that can be cleared (40_control.md R126). -/
theorem clearStatus_all (s : State) : (clearStatus s 0xE#32).regs.done = false ∧
    (clearStatus s 0xE#32).regs.err = false ∧ (clearStatus s 0xE#32).regs.errCode = .noError ∧
    (clearStatus s 0xE#32).regs.sovr = false := by
  rw [clearStatus_eq]
  exact ⟨rfl, rfl, rfl, rfl⟩

theorem writeCtrl_starts {s : State} {v : Word} (hp : s.phase = .idle) (hv : v.getLsbD 0 = true) :
    (writeCtrl s v).phase = .busy ∧ (writeCtrl s v).P.cmd = s.regs.cmd := by
  rw [writeCtrl_start_idle hp hv]
  exact ⟨rfl, rfl⟩

/-- The bit `wait` tests is DONE (30_encoding.md R102). -/
theorem statusWord_wait (s : State) : (s.statusWord.toNat / 2 ^ 1 &&& 1) = s.regs.done.toNat := by
  rw [← statusWord_done, Nat.and_one_is_mod, BitVec.getLsbD, Nat.testBit_eq_decide_div_mod_eq]
  have := Nat.mod_two_eq_zero_or_one (s.statusWord.toNat / 2 ^ 1)
  obtain h | h := this <;> rw [h] <;> rfl

theorem get_newest (pc : Nat) (x : String) (n : Nat) (vars : List (String × Nat)) :
    (HostState.mk pc ((x, n) :: vars)).get x = n := by
  rw [HostState.get, List.lookup_cons_self]
  rfl

theorem get_older (pc : Nat) {x d : String} (hne : x ≠ d) (n : Nat) (vars : List (String × Nat)) :
    (HostState.mk pc ((d, n) :: vars)).get x = (HostState.mk pc vars).get x := by
  rw [HostState.get, List.lookup_cons, beq_false_of_ne hne]
  rfl

/-- `wait` at its label: one STATUS read, and back to the label while DONE = 0 (30_encoding.md R102). -/
theorem runScript_wait {pre post : List Stmt} {vars : List (String × Nat)} {machine : State}
    {trace : List (Event × Option Word)} (hb : machine.cfg.engineBase % 4 = 0) {w : String} (x d : String)
    (hw : Stmt.label w ∉ pre) :
    runScript (pre ++ pseudoWait w x d ++ post) [.host, .host, .host, .host]
        { host := { pc := pre.length, vars := vars }, pending := [], machine := machine, trace := trace } = .next
      { host := { pc := if machine.regs.done then pre.length + 4 else pre.length
                  vars := (d, machine.regs.done.toNat) :: (x, machine.statusWord.toNat) :: vars }
        pending := []
        machine := { machine with
          replies := .reg (machine.cfg.engineBase + 0x08) machine.statusWord :: machine.replies }
        trace := (.regRead (machine.cfg.engineBase + 0x08) 4, some machine.statusWord) :: trace } := by
  have stmt {k : Nat} (hk : k < 4) := script_getElem? pre (pseudoWait w x d) post (k := k) hk
  have hloop : labelIndex (pre ++ pseudoWait w x d ++ post) w = pre.length := by
    rw [List.append_assoc]
    exact labelIndex_append hw _
  rw [runScript_host (hostMove_silent (st := .label w) (stmt (k := 0) (by norm_num)) rfl rfl),
    runScript_host (hostMove_rd (reg := .status) (x := x) (stmt (k := 1) (by norm_num)) rfl hb),
    runScript_host
      (hostMove_silent (st := .letVar d (.band (.shr (.var x) 1) 1)) (stmt (k := 2) (by norm_num)) rfl rfl),
    runScript_host (hostMove_silent (st := .beq d 0 w) (stmt (k := 3) (by norm_num)) rfl rfl), runScript_nil]
  simp only [HostState.after, HostExpr.eval, get_newest, readRegister, statusWord_wait, hloop]
  cases machine.regs.done <;> rfl

/-! ### `run` -/

/-- The register writes of `run`: the named operands in the fixed order, the command word, and the start. -/
def runWrites (operands : List (Reg × HostExpr)) (cmd : Word) : List (Reg × HostExpr) :=
  namedOperands operands runOrder ++ [(.cmd, .lit cmd.toNat), (.ctrl, .lit 0x00000001)]

/-- `run` is its register writes and then `wait`. -/
theorem pseudoRun_eq_some {i : Instr} {operands : List (Reg × HostExpr)} {w x d : String} {frag : List Stmt}
    (h : pseudoRun i operands w x d = some frag) : ∃ cmd, assemble i = some cmd ∧
      frag = (runWrites operands cmd).map (fun q => .wr q.1 q.2) ++ pseudoWait w x d := by
  unfold pseudoRun at h
  cases ha : assemble i with
  | none => rw [ha] at h; cases h
  | some cmd =>
    rw [ha] at h
    cases h
    refine ⟨cmd, rfl, ?_⟩
    have hnamed : (runOrder.filterMap fun r => (operands.lookup r).map fun v => Stmt.wr r v) =
        (namedOperands operands runOrder).map fun q => .wr q.1 q.2 := by
      simp only [namedOperands, List.map_filterMap, Option.map_map]
      rfl
    simp only [hnamed, runWrites, pseudoStart, List.map_append, List.append_assoc, List.map_cons, List.map_nil,
      List.cons_append, List.nil_append]

theorem runOrder_subset : runOrder ⊆ operandRegs := by decide

/-- An idle engine is BUSY after the writes of `run`, with the command word and the operands latched
(40_control.md R123). -/
theorem writeAll_runWrites {s : State} (hp : s.phase = .idle) (h : HostState) (operands : List (Reg × HostExpr))
    (cmd : Word) : (s.writeAll h (runWrites operands cmd)).phase = .busy ∧
      (s.writeAll h (runWrites operands cmd)).regs.irqEn = false ∧
      (s.writeAll h (runWrites operands cmd)).P.cmd = cmd ∧
      ∀ q ∈ runOrder, (s.writeAll h (runWrites operands cmd)).P.value q = runValue s h operands q := by
  have hmem (q : Reg × HostExpr) (hq : q ∈ namedOperands operands runOrder) := runOrder_subset (mem_namedOperands hq)
  have hcmd : BitVec.ofNat 32 ((HostExpr.lit cmd.toNat).eval h) = cmd := by
    rw [HostExpr.eval, BitVec.ofNat_toNat, BitVec.setWidth_eq]
  have hidle : (s.writeAll h (namedOperands operands runOrder)).phase = .idle := (writeAll_phase s h hmem).trans hp
  rw [runWrites, writeAll_append, writeAll_cons, writeAll_cons, writeAll_nil, hcmd]
  generalize hu : s.writeAll h (namedOperands operands runOrder) = u at hidle
  have hstart : writeRegister (writeRegister u cmd .cmd) (BitVec.ofNat 32 ((HostExpr.lit 0x00000001).eval h)) .ctrl =
      acceptStart { u with regs := { u.regs with cmd := cmd, irqEn := false } } :=
    writeCtrl_start_idle (s := writeRegister u cmd .cmd) (v := 0x00000001#32) hidle rfl
  rw [hstart]
  refine ⟨rfl, rfl, rfl, fun q hq => ?_⟩
  rw [acceptStart_P_value _ (runOrder_subset hq), runValue]
  have hread := readRegister_writeAll_named s h operands runOrder_subset (by decide) (runOrder_subset hq)
  rw [if_pos hq, hu, runValue] at hread
  rw [← hread]
  unfold runOrder at hq
  fin_cases hq <;> rfl

/-- Settles O60: each fragment is a run of register writes, and `wait` its four moves. -/
theorem pseudoInstructionsTakeEffect : Obligations.PseudoInstructionsTakeEffect := by
  intro pre post r hpc hpend hb base
  refine ⟨⟨_, runScript_write hpc hpend hb .status (.lit 0xE), rfl, rfl, clearStatus_all r.machine⟩,
    ⟨_, runScript_write hpc hpend hb .ctrl (.lit 1), rfl, writeCtrl_irqEn r.machine 1#32,
      fun hp => writeCtrl_starts (v := 1#32) hp rfl⟩,
    ⟨_, runScript_write hpc hpend hb .ctrl (.lit 3), rfl, writeCtrl_irqEn r.machine 3#32,
      fun hp => writeCtrl_starts (v := 3#32) hp rfl⟩, fun w x d hw => ?_, ?_⟩
  · obtain ⟨⟨pc, vars⟩, pending, machine, trace⟩ := r
    obtain rfl : pc = pre.length := hpc
    obtain rfl : pending = [] := hpend
    refine ⟨_, runScript_wait hb x d hw, rfl, rfl, fun hne => ?_, rfl, rfl, rfl⟩
    exact (get_older _ hne ..).trans (get_newest ..)
  · intro i operands w x d frag hfrag named
    obtain ⟨cmd, ha, rfl⟩ := pseudoRun_eq_some hfrag
    have hnamed : named = (namedOperands operands runOrder).map (writeTransaction base r.host) := by
      simp only [namedOperands, List.map_filterMap, Option.map_map]
      rfl
    have hlen : (runWrites operands cmd).length = named.length + 2 := by
      rw [hnamed, runWrites, List.length_append, List.length_map]
      rfl
    have hrun := runScript_writes (runWrites operands cmd) (post := pseudoWait w x d ++ post) hpc hpend hb
    rw [hlen, ← List.append_assoc, List.append_assoc pre] at hrun
    refine ⟨cmd, _, ha, hrun, rfl, rfl, ?_, ?_, fun hp => writeAll_runWrites hp r.host operands cmd⟩
    · have hcmd : BitVec.ofNat 32 cmd.toNat = cmd := by rw [BitVec.ofNat_toNat, BitVec.setWidth_eq]
      rw [hnamed, runWrites, List.map_append, List.reverse_append, List.map_cons, List.map_cons, writeTransaction,
        HostExpr.eval, hcmd]
      rfl
    · exact List.drop_left' (by rw [List.length_map, hlen])

end Sys2Proof.Machine
end

section
/-! PROOFS. Rounding to nearest, ties to even (00_scope.md R8): which multiple of the last kept bit is nearest a number,
why no other value of the format is nearer, and where a format overflows. -/

namespace Sys2Proof.Machine

/-! ### The kept part of a number -/

/-- The exponent of the last bit `fpRound` keeps. -/
def keptExp (f : FpFormat) (m : Nat) (e : Int) : Int := fpLastBit f (e + m.log2)

/-- What `fpRound` keeps, in units of that bit. -/
def kept (f : FpFormat) (m : Nat) (e : Int) : Nat :=
  shiftNearestEven (m * 2 ^ (e - keptExp f m e).toNat) (keptExp f m e - e).toNat

theorem fpRound_of_ne_zero (f : FpFormat) (neg : Bool) {m : Nat} (hm : m ≠ 0) (e : Int) :
    fpRound f neg m e = if f.maxExp < keptExp f m e + (kept f m e).log2 then .inf neg
      else fpExact neg (kept f m e) (keptExp f m e) := by
  simp only [fpRound, if_neg hm]
  rfl

/-- A half is rounded to the even side. -/
theorem shiftNearestEven_tie {m s : Nat} (h : 2 * (shiftNearestEven m s * 2 ^ s) = 2 * m + 2 ^ s ∨
    2 * m = 2 * (shiftNearestEven m s * 2 ^ s) + 2 ^ s) : shiftNearestEven m s % 2 = 0 := by
  have hpos := Nat.two_pow_pos s
  have hdm := Nat.div_add_mod' m (2 ^ s)
  have hlt := Nat.mod_lt m hpos
  simp only [shiftNearestEven] at h ⊢
  split at h
  · rename_i hup
    rw [Nat.add_mul] at h
    rw [if_pos hup]
    omega
  · rename_i hdown
    rw [if_neg hdown]
    omega

section
variable {K : Type*} [Field K] [LinearOrder K] [IsStrictOrderedRing K]

theorem two_zpow_pos (a : Int) : (0 : K) < 2 ^ a := zpow_pos two_pos a

theorem two_zpow_le {a b : Int} (h : a ≤ b) : (2 : K) ^ a ≤ 2 ^ b := zpow_le_zpow_right₀ one_le_two h

theorem two_zpow_add (a b : Int) : (2 : K) ^ (a + b) = 2 ^ a * 2 ^ b := zpow_add₀ two_ne_zero a b

/-- A number with leading bit `log2` lies between two powers of two. -/
theorem two_zpow_log2_le {m : Nat} (hm : m ≠ 0) (e : Int) : (2 : K) ^ (e + m.log2) ≤ m * 2 ^ e := by
  rw [two_zpow_add, zpow_natCast, mul_comm]
  exact mul_le_mul_of_nonneg_right (by exact_mod_cast Nat.log2_self_le hm) (two_zpow_pos e).le

theorem lt_two_zpow_log2 (m : Nat) (e : Int) : (m : K) * 2 ^ e < 2 ^ (e + m.log2 + 1) := by
  rw [add_assoc, two_zpow_add, ← Nat.cast_succ, zpow_natCast, mul_comm]
  exact mul_lt_mul_of_pos_left (by exact_mod_cast Nat.lt_log2_self) (two_zpow_pos e)

/-- `n` units of 2^q are what a format keeps of the number `X`: a nearest multiple of 2^q, the even one of two, where
2^q is the format's last bit for numbers of the size of `X`. -/
structure Rounded (f : FpFormat) (X : K) (n : Nat) (q : Int) : Prop where
  near  : |X - n * 2 ^ q| ≤ 2 ^ q / 2
  tie   : |X - n * 2 ^ q| = 2 ^ q / 2 → n % 2 = 0
  lsb   : f.lsbMin ≤ q
  lead  : q = f.lsbMin ∨ 2 ^ (q + f.prec - 1) ≤ X
  small : X < 2 ^ (q + f.prec)

theorem kept_near (f : FpFormat) (m : Nat) (e : Int) :
    |(m : K) * 2 ^ e - kept f m e * 2 ^ keptExp f m e| ≤ 2 ^ keptExp f m e / 2 ∧
      (|(m : K) * 2 ^ e - kept f m e * 2 ^ keptExp f m e| = 2 ^ keptExp f m e / 2 → kept f m e % 2 = 0) := by
  unfold kept
  generalize keptExp f m e = q
  have hnear := shiftNearestEven_near (m * 2 ^ (e - q).toNat) (q - e).toNat
  have htie := shiftNearestEven_tie (m := m * 2 ^ (e - q).toNat) (s := (q - e).toNat)
  have hX : (m : K) * 2 ^ e = (m * 2 ^ (e - q).toNat : Nat) * 2 ^ (q - (q - e).toNat) := by
    rw [Nat.cast_mul, mul_assoc, Nat.cast_pow, Nat.cast_ofNat, ← zpow_natCast, ← two_zpow_add]
    congr 2
    omega
  have hq : (2 : K) ^ q = (2 ^ (q - e).toNat : Nat) * 2 ^ (q - (q - e).toNat) := by
    rw [Nat.cast_pow, Nat.cast_ofNat, ← zpow_natCast, ← two_zpow_add]
    congr 1
    omega
  have hu : (0 : K) < 2 ^ (q - (q - e).toNat) := two_zpow_pos _
  rw [hX, hq]
  generalize (2 : K) ^ (q - (q - e).toNat) = u at hu
  generalize m * 2 ^ (e - q).toNat = x at hnear htie
  generalize shiftNearestEven x (q - e).toNat = n at hnear htie
  generalize 2 ^ (q - e).toNat = p at hnear htie
  have hlow : 2 * ((n : K) * p) ≤ 2 * x + p := by exact_mod_cast hnear.1
  have hhigh : 2 * (x : K) ≤ 2 * (n * p) + p := by exact_mod_cast hnear.2
  have hdiff : (x : K) * u - n * (p * u) = (x - n * p) * u := by ring
  rw [hdiff, abs_mul, abs_of_pos hu, mul_div_right_comm]
  refine ⟨mul_le_mul_of_nonneg_right (abs_le.2 ⟨by linarith, by linarith⟩) hu.le, fun h => htie ?_⟩
  obtain h | h := (abs_eq (by positivity)).1 (mul_right_cancel₀ hu.ne' h)
  · have : 2 * (x : K) = 2 * (n * p) + p := by linarith
    exact .inr (by exact_mod_cast this)
  · have : 2 * ((n : K) * p) = 2 * x + p := by linarith
    exact .inl (by exact_mod_cast this)

/-- `fpRound` keeps what a format keeps of its argument. -/
theorem rounded_kept {f : FpFormat} {m : Nat} (hm : m ≠ 0) (e : Int) :
    Rounded f ((m : K) * 2 ^ e) (kept f m e) (keptExp f m e) := by
  obtain ⟨hnear, htie⟩ := kept_near (K := K) f m e
  refine ⟨hnear, htie, fpLastBit_ge _ _, ?_, (lt_two_zpow_log2 m e).trans_le (two_zpow_le ?_)⟩
  · obtain h | h := max_choice (e + m.log2 - (f.prec - 1)) f.lsbMin
    · refine .inr ((two_zpow_le ?_).trans (two_zpow_log2_le hm e))
      rw [keptExp, fpLastBit, h]
      omega
    · exact .inl h
  · have : e + m.log2 - (f.prec - 1) ≤ keptExp f m e := le_max_left _ _
    omega

/-! ### The overflow threshold -/

/-- The least number that overflows a format (IEEE 754 roundTiesToEven). -/
def overflowThreshold (K : Type*) [Field K] (f : FpFormat) : K := (2 - 2 ^ (-(f.prec : Int))) * 2 ^ f.maxExp

theorem overflowThreshold_eq (f : FpFormat) :
    overflowThreshold K f = (2 ^ (f.prec + 1) - 1) * 2 ^ (f.maxExp - f.prec) := by
  have hp : (2 : K) ^ f.maxExp = 2 ^ f.prec * 2 ^ (f.maxExp - f.prec) := by
    rw [← zpow_natCast, ← two_zpow_add]
    congr 1
    omega
  have hn : (2 : K) ^ (-(f.prec : Int)) * 2 ^ f.prec = 1 := by
    rw [← zpow_natCast, ← two_zpow_add, neg_add_cancel, zpow_zero]
  rw [overflowThreshold, hp, pow_succ]
  linear_combination (-(2 : K) ^ (f.maxExp - f.prec)) * hn

/-! ### No other value is nearer -/

/-- A value of the format is a multiple of 2^q, or too small to have its last bit there. -/
theorem fits_grid {f : FpFormat} {t : Bool} {k : Nat} {h q : Int} (hv : fpFits f (.fin t k h) = true) :
    (∃ j : Int, (fpRat (.fin t k h) : K) = j * 2 ^ q) ∨
      (f.lsbMin < q ∧ (fpRat (.fin t k h) : K) < 2 ^ (q + f.prec - 1)) := by
  simp only [fpFits, Bool.or_eq_true, Bool.and_eq_true, decide_eq_true_eq] at hv
  obtain ⟨rfl, rfl⟩ | ⟨⟨⟨-, hk⟩, hlsb⟩, -⟩ := hv
  · exact .inl ⟨0, by simp [fpRat]⟩
  by_cases hq : q ≤ h
  · refine .inl ⟨(if t then -1 else 1) * (k * 2 ^ (h - q).toNat : Nat), ?_⟩
    have hpow : (2 : K) ^ h = 2 ^ (h - q).toNat * 2 ^ q := by
      rw [← zpow_natCast, ← two_zpow_add]
      congr 1
      omega
    cases t <;> simp [fpRat, hpow, mul_assoc]
  · refine .inr ⟨by omega, ?_⟩
    have hk' : (k : K) * 2 ^ h < 2 ^ (q + f.prec - 1) := calc
      (k : K) * 2 ^ h < 2 ^ f.prec * 2 ^ h := mul_lt_mul_of_pos_right (by exact_mod_cast hk) (two_zpow_pos h)
      _ = 2 ^ (f.prec + h) := by rw [two_zpow_add, zpow_natCast]
      _ ≤ 2 ^ (q + f.prec - 1) := two_zpow_le (by omega)
    have hpos : (0 : K) ≤ k * 2 ^ h := mul_nonneg (Nat.cast_nonneg k) (two_zpow_pos h).le
    cases t <;> simp [fpRat] <;> linarith

section
variable {f : FpFormat} {X : K} {n : Nat} {q : Int} (hr : Rounded f X n q)
include hr

/-- Among the multiples of 2^q none is nearer, and a tie is with an even one. -/
theorem Rounded.near_grid (j : Int) : |X - n * 2 ^ q| ≤ |X - j * 2 ^ q| ∧
    (|X - n * 2 ^ q| = |X - j * 2 ^ q| → (j : K) * 2 ^ q ≠ n * 2 ^ q → n % 2 = 0) := by
  have hq : (0 : K) < 2 ^ q := two_zpow_pos q
  by_cases hj : j = n
  · subst hj
    exact ⟨le_of_eq (by simp), fun _ hne => absurd (by simp) hne⟩
  · have hstep : (2 : K) ^ q ≤ |(((n : Int) - j : Int) : K) * 2 ^ q| := by
      rw [abs_mul, abs_of_pos hq]
      refine le_mul_of_one_le_left hq.le ?_
      exact_mod_cast Int.one_le_abs (sub_ne_zero.2 (Ne.symm hj))
    have htri : |(((n : Int) - j : Int) : K) * 2 ^ q| ≤ |X - j * 2 ^ q| + |X - n * 2 ^ q| := by
      have hsplit : (((n : Int) - j : Int) : K) * 2 ^ q = (X - j * 2 ^ q) - (X - n * 2 ^ q) := by push_cast; ring
      rw [hsplit]
      exact abs_sub _ _
    have hnear := hr.near
    refine ⟨by linarith, fun heq _ => hr.tie (le_antisymm hnear (by linarith))⟩

/-- Among the values of the format none is nearer, and a tie is with an even multiple of 2^q. -/
theorem Rounded.nearest (hp : 0 < f.prec) {t : Bool} {k : Nat} {h : Int} (hv : fpFits f (.fin t k h) = true) :
    |X - n * 2 ^ q| ≤ |X - fpRat (.fin t k h)| ∧
      (|X - n * 2 ^ q| = |X - fpRat (.fin t k h)| → (fpRat (.fin t k h) : K) ≠ n * 2 ^ q → n % 2 = 0) := by
  obtain ⟨j, hj⟩ | ⟨hlsb, hsmall⟩ := fits_grid (K := K) (q := q) hv
  · rw [hj]
    exact hr.near_grid j
  · obtain hq | hlead := hr.lead
    · omega
    · have hgrid : (2 : K) ^ (q + f.prec - 1) = ((2 ^ (f.prec - 1) : Nat) : Int) * 2 ^ q := by
        push_cast
        rw [← zpow_natCast, ← two_zpow_add]
        congr 1
        omega
      have hnear := (hr.near_grid (2 ^ (f.prec - 1) : Nat)).1
      rw [← hgrid, abs_of_nonneg (sub_nonneg.2 hlead)] at hnear
      have hlt : |X - n * 2 ^ q| < |X - fpRat (.fin t k h)| := by
        rw [abs_of_pos (sub_pos.2 (hsmall.trans_le hlead))]
        linarith
      exact ⟨hlt.le, fun heq => absurd heq hlt.ne⟩

/-! ### Overflow -/

/-- The kept part has at most `prec` bits. -/
theorem Rounded.kept_le : n ≤ 2 ^ f.prec := by
  by_contra hn
  have hge : (2 : K) ^ f.prec + 1 ≤ n := by exact_mod_cast Nat.lt_of_not_le hn
  have hq : (0 : K) < 2 ^ q := two_zpow_pos q
  have hnear := (abs_le.1 hr.near).1
  have hsmall := hr.small
  rw [two_zpow_add, zpow_natCast] at hsmall
  nlinarith

/-- A multiple of 2^q that is not above the number is not above its kept part. -/
theorem Rounded.le_kept {c : Nat} (h : (c : K) * 2 ^ q ≤ X) : c ≤ n := by
  by_contra hn
  have hge : (n : K) + 1 ≤ c := by exact_mod_cast Nat.lt_of_not_le hn
  have hq : (0 : K) < 2 ^ q := two_zpow_pos q
  have hnear := (abs_le.1 hr.near).2
  nlinarith

/-- At the greatest exponent the threshold is half a unit below 2^prec units, and the tie goes to 2^prec. -/
theorem Rounded.overflow_at_top (hp : 0 < f.prec) (hq : q = f.maxExp - f.prec + 1) :
    2 ^ f.prec ≤ n ↔ overflowThreshold K f ≤ X := by
  have hunit : (2 : K) ^ q = 2 * 2 ^ (f.maxExp - f.prec) := by rw [hq, two_zpow_add, zpow_one, mul_comm]
  have hu : (0 : K) < 2 ^ (f.maxExp - f.prec) := two_zpow_pos _
  have hnear := abs_le.1 hr.near
  have htie := hr.tie
  rw [overflowThreshold_eq, pow_succ]
  rw [hunit] at hnear htie
  generalize (2 : K) ^ (f.maxExp - f.prec) = u at *
  constructor
  · intro hn
    have hn' : (2 : K) ^ f.prec ≤ n := by exact_mod_cast hn
    nlinarith
  · intro hX
    by_contra hn
    have hn' : (n : K) + 1 ≤ 2 ^ f.prec := by exact_mod_cast Nat.lt_of_not_le hn
    have htop : (n : K) + 1 = 2 ^ f.prec := by nlinarith
    have heven := htie (by rw [abs_of_nonneg (by nlinarith)]; nlinarith)
    have hodd : n + 1 = 2 ^ f.prec := by exact_mod_cast htop
    obtain ⟨k, hk⟩ := Nat.exists_eq_succ_of_ne_zero hp.ne'
    rw [hk, Nat.pow_succ] at hodd
    omega

/-- The kept part overflows exactly from the threshold on. -/
theorem Rounded.overflow_iff (hp : 0 < f.prec) (hrange : f.lsbMin + f.prec ≤ f.maxExp) :
    f.maxExp < q + n.log2 ↔ overflowThreshold K f ≤ X := by
  have hle := hr.kept_le
  have hlog : n.log2 ≤ f.prec := by
    by_cases hn : n = 0
    · rw [hn]; exact Nat.zero_le _
    · exact Nat.le_of_lt_succ ((Nat.log2_lt hn).2 (hle.trans_lt (Nat.pow_lt_pow_succ one_lt_two)))
  obtain hq | hq | hq := lt_trichotomy q (f.maxExp - f.prec + 1)
  · refine iff_of_false (by omega) (not_le.2 ?_)
    calc X < 2 ^ (q + f.prec) := hr.small
      _ ≤ 2 ^ f.maxExp := two_zpow_le (by omega)
      _ ≤ overflowThreshold K f := by
        refine le_mul_of_one_le_left (two_zpow_pos _).le ?_
        have : (2 : K) ^ (-(f.prec : Int)) ≤ 2 ^ (0 : Int) := two_zpow_le (by omega)
        rw [zpow_zero] at this
        linarith
  · rw [← hr.overflow_at_top hp hq]
    by_cases hn : n = 0
    · subst hn
      exact iff_of_false (by rw [Nat.log2_zero]; omega) (Nat.not_le.2 (Nat.two_pow_pos _))
    · rw [← Nat.le_log2 hn]
      omega
  · obtain hlsb | hlead := hr.lead
    · omega
    have hge : 2 ^ (f.prec - 1) ≤ n := hr.le_kept (by
      push_cast
      rw [← zpow_natCast, ← two_zpow_add]
      exact (two_zpow_le (by omega)).trans hlead)
    refine iff_of_true ?_ ?_
    · have := (Nat.le_log2 (Nat.ne_of_gt ((Nat.two_pow_pos _).trans_le hge))).2 hge
      omega
    · calc overflowThreshold K f ≤ 2 * 2 ^ f.maxExp := by
            refine mul_le_mul_of_nonneg_right ?_ (two_zpow_pos _).le
            have := two_zpow_pos (K := K) (-(f.prec : Int))
            linarith
        _ = 2 ^ (1 + f.maxExp) := by rw [two_zpow_add, zpow_one]
        _ ≤ 2 ^ (q + f.prec - 1) := two_zpow_le (by omega)
        _ ≤ X := hlead

end

/-! ### Ties and the last bit of the pattern -/

/-- A product with a positive power of two is even. -/
theorem mul_two_pow_even (m : Nat) {k : Nat} (hk : 0 < k) : m * 2 ^ k % 2 = 0 := by
  obtain ⟨j, rfl⟩ := Nat.exists_eq_succ_of_ne_zero hk.ne'
  rw [Nat.pow_succ, ← Nat.mul_assoc, Nat.mul_mod_left]

/-- An even number of units of a last bit has an even pattern. -/
theorem fpEncode_even {f : FpFormat} (hp : 2 ≤ f.prec) {neg s : Bool} {n k : Nat} {q g : Int} (heven : n % 2 = 0)
    (hle : n ≤ 2 ^ f.prec) (hlsb : f.lsbMin ≤ q) (h : fpExact neg n q = .fin s k g) :
    fpEncode f 0 (.fin false k g) % 2 = 0 := by
  change (false.toNat * _ + fpMagnitude f k g) % 2 = 0
  rw [Bool.toNat_false, Nat.zero_mul, Nat.zero_add]
  by_cases hn : n = 0
  · rw [hn, fpExact, if_pos rfl] at h
    cases h
    rfl
  obtain ⟨j, z, hexact, hmul, hodd⟩ := fpExact_eq neg hn q
  rw [hexact] at h
  cases h
  have hk : k ≠ 0 := by rintro rfl; cases hodd
  have hz : 0 < z := Nat.pos_of_ne_zero (by rintro rfl; rw [Nat.pow_zero] at hmul; omega)
  have hlog : k.log2 + 2 ≤ f.prec := by
    obtain ⟨p, hp'⟩ := Nat.exists_eq_add_of_le hp
    obtain ⟨y, rfl⟩ := Nat.exists_eq_succ_of_ne_zero hz.ne'
    have hpow : k * 2 ^ 1 ≤ 2 ^ (p + 1) * 2 ^ 1 := calc
      k * 2 ^ 1 ≤ k * 2 ^ (y + 1) := Nat.mul_le_mul_left _ (Nat.pow_le_pow_right two_pos (by omega))
      _ ≤ 2 ^ (p + 1) * 2 ^ 1 := by rw [← Nat.pow_add, ← hmul]; exact hle.trans_eq (by rw [hp']; congr 1; omega)
    have hne : k ≠ 2 ^ (p + 1) := by
      rintro rfl
      rw [Nat.pow_succ] at hodd
      omega
    have := (Nat.log2_lt hk).2 (lt_of_le_of_ne (Nat.le_of_mul_le_mul_right hpow (by norm_num)) hne)
    omega
  have hbit : fpLastBit f (q + z + k.log2) < q + z := by unfold fpLastBit; omega
  simp only [fpMagnitude, if_neg hk]
  rw [Nat.add_mod, mul_two_pow_even _ (by omega), mul_two_pow_even _ (by omega)]

/-! ### What rounding answers -/

/-- The number with sign `neg` and magnitude `X`. -/
def signed (neg : Bool) (X : K) : K := (if neg then -1 else 1) * X

omit [IsStrictOrderedRing K] in
theorem abs_signed_sub (neg : Bool) (X Y : K) : |signed neg X - Y| = |X - signed neg Y| := by
  cases neg
  · simp [signed]
  · rw [← abs_neg]; simp [signed]; ring_nf

theorem signed_fpRat (neg t : Bool) (k : Nat) (h : Int) :
    signed neg (fpRat (.fin t k h) : K) = fpRat (.fin (neg ^^ t) k h) := by
  cases neg <;> cases t <;> simp [signed, fpRat]

theorem fpRat_fpExact (neg : Bool) (n : Nat) (q : Int) :
    (fpRat (fpExact neg n q) : K) = signed neg ((n : K) * 2 ^ q) := by
  rw [fpExact_toRat, signed, mul_assoc]
  cases neg <;> push_cast <;> simp

section
variable {f : FpFormat} (hp : 2 ≤ f.prec) (hrange : f.lsbMin + f.prec ≤ f.maxExp) {m : Nat} (hm : m ≠ 0) {e : Int}
  {X : K} (hr : Rounded f X (kept f m e) (keptExp f m e)) (neg : Bool)
include hp hrange hm hr

/-- Rounding answers an infinity exactly from the format's threshold on. -/
theorem fpRound_inf_iff : fpRound f neg m e = .inf neg ↔ overflowThreshold K f ≤ X := by
  rw [← hr.overflow_iff (by omega) hrange, fpRound_of_ne_zero f neg hm e]
  split
  · exact iff_of_true rfl ‹_›
  · refine iff_of_false ?_ ‹_›
    unfold fpExact
    split <;> exact Fp.noConfusion

omit hrange in
/-- A finite answer is a value nearest the number, and of two the one whose pattern is even. -/
theorem fpRound_nearest {s : Bool} {n : Nat} {g : Int} (h : fpRound f neg m e = .fin s n g) : s = neg ∧
    ∀ (t : Bool) (k : Nat) (i : Int), fpFits f (.fin t k i) = true →
      |signed neg X - fpRat (.fin s n g)| ≤ |signed neg X - fpRat (.fin t k i)| ∧
      (|signed neg X - fpRat (.fin s n g)| = |signed neg X - fpRat (.fin t k i)| →
        (fpRat (.fin t k i) : K) ≠ fpRat (.fin s n g) → fpEncode f 0 (.fin false n g) % 2 = 0) := by
  rw [fpRound_of_ne_zero f neg hm e] at h
  split at h
  · cases h
  have hs : s = neg := by
    unfold fpExact at h
    split at h <;> cases h <;> rfl
  refine ⟨hs, fun t k i hv => ?_⟩
  have hvalue : signed neg (fpRat (.fin s n g) : K) = kept f m e * 2 ^ keptExp f m e := by
    rw [← h, fpRat_fpExact]
    cases neg <;> simp [signed]
  obtain ⟨hle, htie⟩ := hr.nearest (by omega) (t := neg ^^ t) hv
  rw [← signed_fpRat, ← hvalue, ← abs_signed_sub, ← abs_signed_sub] at hle htie
  refine ⟨hle, fun heq hne => fpEncode_even hp (htie heq fun hcontra => hne ?_) hr.kept_le hr.lsb h⟩
  cases neg <;> simpa [signed] using hcontra

end

end

/-! ### The two formats -/

theorem format_bounds {f : FpFormat} (h : f = binary32 ∨ f = binary64) :
    2 ≤ f.prec ∧ f.lsbMin + f.prec ≤ f.maxExp := by
  obtain rfl | rfl := h <;> decide

theorem overflowThreshold_pos (f : FpFormat) : 0 < overflowThreshold ℚ f := by
  rw [overflowThreshold_eq]
  have : (1 : ℚ) < 2 ^ (f.prec + 1) := one_lt_pow₀ one_lt_two (by omega)
  exact mul_pos (by linarith) (two_zpow_pos _)

theorem fpRound_ne_nan (f : FpFormat) (neg : Bool) (m : Nat) (e : Int) : fpRound f neg m e ≠ .nan := by
  unfold fpRound fpExact
  split
  · exact Fp.noConfusion
  · dsimp only
    split
    · exact Fp.noConfusion
    · split <;> exact Fp.noConfusion

/-- Settles O42: the kept part of a number is nearest it; zero is a value. -/
theorem roundingIsNearestTiesToEven : Obligations.RoundingIsNearestTiesToEven := by
  intro f hf neg m e
  obtain ⟨hp, hrange⟩ := format_bounds hf
  refine ⟨fpRound_fits (by omega) neg m e, fpRound_ne_nan f neg m e, ?_⟩
  by_cases hm : m = 0
  · subst hm
    have hzero : fpRound f neg 0 e = .fin neg 0 0 := rfl
    have hrat (s : Bool) (g : Int) : fpRat (.fin s 0 g) = 0 := by simp [fpRat]
    rw [hzero]
    refine ⟨iff_of_false Fp.noConfusion ?_, fun s n g h => ?_⟩
    · rw [Nat.cast_zero, zero_mul, not_le]
      exact overflowThreshold_pos f
    · cases h
      have heven : fpEncode f 0 (.fin false 0 0) % 2 = 0 := by simp [fpEncode, fpMagnitude]
      exact ⟨rfl, fun t k i _ => by rw [hrat, hrat]; exact ⟨by simp, fun _ _ => heven⟩⟩
  · have hr := rounded_kept (K := ℚ) (f := f) hm e
    have hx : fpRat (.fin neg m e) = signed neg ((m : ℚ) * 2 ^ e) := by rw [fpRat, signed, mul_assoc]
    refine ⟨fpRound_inf_iff hp hrange hm hr neg, fun s n g h => ?_⟩
    rw [hx]
    simpa only [Rat.cast_id] using fpRound_nearest hp hm hr neg h

end Sys2Proof.Machine
end

section
/-! PROOFS. Exact results (00_scope.md R8): a number with few enough bits is not rounded, sums and products are rounded
once, and a stored binary32 value reads back as itself (20_memory.md R62). -/

namespace Sys2Proof.Machine

/-! ### One canonical form per number -/

/-- The odd part of a number and its power of two are unique. -/
theorem odd_mul_two_pow_inj {n k : Nat} (hn : n % 2 = 1) (hk : k % 2 = 1) {a b : Nat} (h : n * 2 ^ a = k * 2 ^ b) :
    n = k ∧ a = b := by
  induction a generalizing b with
  | zero =>
    cases b with
    | zero => exact ⟨by simpa using h, rfl⟩
    | succ b =>
      rw [Nat.pow_zero, Nat.mul_one, Nat.pow_succ, ← Nat.mul_assoc] at h
      omega
  | succ a ih =>
    cases b with
    | zero =>
      rw [Nat.pow_zero, Nat.mul_one, Nat.pow_succ, ← Nat.mul_assoc] at h
      omega
    | succ b =>
      rw [Nat.pow_succ, Nat.pow_succ, ← Nat.mul_assoc, ← Nat.mul_assoc] at h
      exact (ih (Nat.mul_right_cancel two_pos h)).imp_right (congrArg Nat.succ)

@[simp] theorem fpExact_zero (neg : Bool) (e : Int) : fpExact neg 0 e = .fin neg 0 0 := if_pos rfl

/-- A power of two may stand in the significand or in the exponent. -/
theorem fpExact_mul_two_pow (neg : Bool) (m j : Nat) (e : Int) : fpExact neg (m * 2 ^ j) e = fpExact neg m (e + j) := by
  by_cases hm : m = 0
  · rw [hm, Nat.zero_mul, fpExact_zero, fpExact_zero]
  obtain ⟨n, z, hn, hmul, hodd⟩ := fpExact_eq neg hm (e + j)
  obtain ⟨k, y, hk, hmul', hodd'⟩ := fpExact_eq neg (Nat.mul_ne_zero hm (Nat.two_pow_pos j).ne') e
  rw [hmul, Nat.mul_assoc, ← Nat.pow_add] at hmul'
  obtain ⟨rfl, hzy⟩ := odd_mul_two_pow_inj hodd hodd' hmul'
  rw [hk, hn, ← hzy]
  congr 1
  omega

/-- A value of a format is in canonical form. -/
theorem fpExact_of_fits {f : FpFormat} {s : Bool} {m : Nat} {e : Int} (h : fpFits f (.fin s m e) = true) :
    fpExact s m e = .fin s m e := by
  simp only [fpFits, Bool.or_eq_true, Bool.and_eq_true, decide_eq_true_eq] at h
  obtain ⟨rfl, rfl⟩ | ⟨⟨⟨hodd, -⟩, -⟩, -⟩ := h
  · exact fpExact_zero s 0
  · obtain ⟨n, z, hexact, hmul, hodd'⟩ := fpExact_eq s (m := m) (by rintro rfl; cases hodd) e
    obtain ⟨rfl, rfl⟩ := odd_mul_two_pow_inj (a := 0) hodd hodd' (by simpa using hmul)
    rw [hexact, Nat.cast_zero, add_zero]

theorem exists_fpExact (neg : Bool) (m : Nat) (e : Int) : ∃ k g, fpExact neg m e = .fin neg k g := by
  unfold fpExact
  split <;> exact ⟨_, _, rfl⟩

/-- The bounds of a finite value of a format. -/
theorem bounds_of_fits {f : FpFormat} {s : Bool} {m : Nat} {e : Int} (h : fpFits f (.fin s m e) = true)
    (hmin : f.lsbMin ≤ 0) (hmax : 0 ≤ f.maxExp) : m < 2 ^ f.prec ∧ f.lsbMin ≤ e ∧ e + m.log2 ≤ f.maxExp := by
  simp only [fpFits, Bool.or_eq_true, Bool.and_eq_true, decide_eq_true_eq] at h
  obtain ⟨rfl, rfl⟩ | ⟨⟨⟨-, hlt⟩, hlsb⟩, htop⟩ := h
  · exact ⟨Nat.two_pow_pos _, hmin, by simpa using hmax⟩
  · exact ⟨hlt, hlsb, htop⟩

/-! ### No rounding -/

/-- A number of at most `prec` bits inside the range of a format is one of its values: rounding keeps it. -/
theorem fpRound_exact {f : FpFormat} (neg : Bool) {m : Nat} {e : Int} (hm : m < 2 ^ f.prec) (hlsb : f.lsbMin ≤ e)
    (htop : e + m.log2 ≤ f.maxExp) : fpRound f neg m e = fpExact neg m e := by
  by_cases h0 : m = 0
  · subst h0
    rfl
  have hlog := (Nat.log2_lt h0).2 hm
  have hq : keptExp f m e ≤ e := max_le (by omega) hlsb
  have hkept : kept f m e = m * 2 ^ (e - keptExp f m e).toNat := by
    rw [kept, Int.toNat_eq_zero.2 (Int.sub_nonpos_of_le hq), shiftNearestEven_zero]
  rw [fpRound_of_ne_zero f neg h0, hkept, log2_mul_pow h0, if_neg (by omega), fpExact_mul_two_pow]
  congr 1
  omega

/-- Rounding keeps every finite value of the format. -/
theorem fpRound_of_fits {f : FpFormat} {s : Bool} {m : Nat} {e : Int} (h : fpFits f (.fin s m e) = true)
    (hmin : f.lsbMin ≤ 0) (hmax : 0 ≤ f.maxExp) : fpRound f s m e = .fin s m e := by
  obtain ⟨hlt, hlsb, htop⟩ := bounds_of_fits h hmin hmax
  rw [fpRound_exact s hlt hlsb htop, fpExact_of_fits h]

/-! ### Sums, differences, products and the order -/

theorem fpRat_neg (s : Bool) (m : Nat) (e : Int) : (fpRat (.fin (!s) m e) : ℚ) = -fpRat (.fin s m e) := by
  cases s <;> simp [fpRat]

/-- An integer multiple of a power of two, by its sign and magnitude. -/
theorem fpRat_ofInt (v : Int) (h : Int) : fpRat (.fin (decide (v < 0)) v.natAbs h) = (v : ℚ) * 2 ^ h := by
  have hv : ((if decide (v < 0) then -1 else 1 : ℚ)) * (v.natAbs : ℚ) = v := by
    obtain hneg | hpos := lt_or_ge v 0
    · rw [decide_eq_true hneg, if_pos rfl, ← Int.cast_natCast, Int.ofNat_natAbs_of_nonpos hneg.le]
      push_cast
      ring
    · rw [decide_eq_false (not_lt.2 hpos), if_neg Bool.false_ne_true, one_mul, ← Int.cast_natCast,
        Int.natAbs_of_nonneg hpos]
  rw [fpRat, hv]

/-- The sum of two aligned integers is that of the numbers. -/
theorem fpScaled_add_toRat (s t : Bool) (m n : Nat) (e g : Int) :
    ((fpScaled s m e (min e g) + fpScaled t n g (min e g) : Int) : ℚ) * 2 ^ min e g =
      fpRat (.fin s m e) + fpRat (.fin t n g) := by
  rw [Int.cast_add, add_mul, fpScaled_toRat s m (min_le_left e g), fpScaled_toRat t n (min_le_right e g)]

/-- `add64` rounds the exact sum. -/
theorem add64_fin (s t : Bool) (m n : Nat) (e g : Int) :
    ∃ u k h, (fpRat (.fin u k h) : ℚ) = fpRat (.fin s m e) + fpRat (.fin t n g) ∧
      add64 (.fin s m e) (.fin t n g) = fpRound binary64 u k h := by
  have hsum := fpScaled_add_toRat s t m n e g
  simp only [add64]
  generalize fpScaled s m e (min e g) + fpScaled t n g (min e g) = v at *
  split
  next hv =>
    refine ⟨s && t, 0, 0, ?_, rfl⟩
    rw [← hsum, hv]
    simp [fpRat]
  next => exact ⟨decide (v < 0), v.natAbs, min e g, by rw [fpRat_ofInt, hsum], rfl⟩

/-- An exact zero sum is -0 only of two negative operands. -/
theorem add64_eq_zero {s t : Bool} {m n : Nat} {e g : Int}
    (h : (fpRat (.fin s m e) : ℚ) + fpRat (.fin t n g) = 0) :
    add64 (.fin s m e) (.fin t n g) = .fin (s && t) 0 0 := by
  have hpow : (2 : ℚ) ^ min e g ≠ 0 := (two_zpow_pos _).ne'
  rw [← fpScaled_add_toRat, mul_eq_zero_iff_right hpow, Int.cast_eq_zero] at h
  exact if_pos h

theorem fpRat_mul (s t : Bool) (m n : Nat) (e g : Int) :
    (fpRat (.fin (s ^^ t) (m * n) (e + g)) : ℚ) = fpRat (.fin s m e) * fpRat (.fin t n g) := by
  simp only [fpRat, two_zpow_add]
  cases s <;> cases t <;> push_cast <;> simp <;> ring

/-- Settles O43: a difference is a sum with the second operand negated. -/
theorem sumsAndProductsRoundOnce : Obligations.SumsAndProductsRoundOnce := by
  intro s t m n e g
  refine ⟨add64_fin s t m n e g, add64_eq_zero, ?_, fun h => ?_,
    ⟨m * n, e + g, fpRat_mul s t m n e g, rfl⟩, fun h => ?_, lt64_fin_iff s t m n e g⟩
  · rw [sub_eq_add_neg, ← fpRat_neg]
    exact add64_fin s (!t) m n e g
  · rw [sub_eq_add_neg, ← fpRat_neg] at h
    exact add64_eq_zero h
  · rw [mul64, h]
    rfl

/-! ### Products of binary32 values -/

/-- The datum of a binary32 word with sign `s`, biased exponent `ex` and fraction `frac` (20_memory.md R62). -/
def singleOf (s : Bool) (ex frac : Nat) : Fp :=
  if ex = 255 then (if frac = 0 then .inf s else .nan)
  else if ex = 0 then fpExact s frac (-149)
  else fpExact s (2 ^ 23 + frac) (ex - 150)

theorem fp32_eq_singleOf (w : Word) :
    fp32 w = singleOf (w.getLsbD 31) (w.toNat / 2 ^ 23 % 256) (w.toNat % 2 ^ 23) := by
  have hs : w.getLsbD 31 = decide (w.toNat / 2 ^ 31 % 2 = 1) := by
    rw [BitVec.getLsbD, Nat.testBit_eq_decide_div_mod_eq]
  have hexp (ex : Int) : binary32.lsbMin + ex - 1 = ex - 150 := by
    rw [show binary32.lsbMin = -149 from rfl]
    omega
  simp only [fp32, fpDecode, hexp, hs]
  rfl

/-- The word with these fields. -/
theorem fp32_ofFields (s : Bool) {ex frac : Nat} (hex : ex < 256) (hfrac : frac < 2 ^ 23) :
    fp32 (BitVec.ofNat 32 (s.toNat * 2 ^ 31 + ex * 2 ^ 23 + frac)) = singleOf s ex frac := by
  have hlt : s.toNat * 2 ^ 31 + ex * 2 ^ 23 + frac < 2 ^ 32 := by
    have := s.toNat_le
    omega
  rw [fp32_eq_singleOf, BitVec.getLsbD, Nat.testBit_eq_decide_div_mod_eq, BitVec.toNat_ofNat, Nat.mod_eq_of_lt hlt]
  congr 1
  · cases s <;> simp <;> omega
  · cases s <;> simp <;> omega
  · omega

theorem log2_lt_of_lt_two_pow {m p : Nat} (h : m < 2 ^ p) (hp : 0 < p) : m.log2 < p := by
  by_cases hm : m = 0
  · rwa [hm, Nat.log2_zero]
  · exact (Nat.log2_lt hm).2 h

theorem log2_normal {frac : Nat} (h : frac < 2 ^ 23) : (2 ^ 23 + frac).log2 = 23 := by
  rw [Nat.log2_eq_iff (by omega)]
  omega

/-- The datum of a word is a value of binary32. -/
theorem fp32_fits (w : Word) : fpFits binary32 (fp32 w) = true := by
  rw [fp32_eq_singleOf]
  have hex : w.toNat / 2 ^ 23 % 256 < 256 := Nat.mod_lt _ (by norm_num)
  have hfrac : w.toNat % 2 ^ 23 < 2 ^ 23 := Nat.mod_lt _ (by norm_num)
  generalize w.toNat / 2 ^ 23 % 256 = ex at *
  generalize w.toNat % 2 ^ 23 = frac at *
  unfold singleOf
  split
  · split <;> rfl
  have hprec : binary32.prec = 24 := rfl
  have hmin : binary32.lsbMin = -149 := rfl
  have hmax : binary32.maxExp = 127 := rfl
  split
  · have := log2_lt_of_lt_two_pow hfrac (by norm_num)
    exact fpExact_fits _ (by rw [hprec]; omega) (by decide) (by rw [hmin]) fun _ => by rw [hmax]; omega
  · have := log2_normal hfrac
    exact fpExact_fits _ (by rw [hprec]; omega) (by decide) (by rw [hmin]; omega) fun _ => by rw [hmax]; omega

theorem log2_mul_lt (m n : Nat) : (m * n).log2 < m.log2 + n.log2 + 2 := by
  refine log2_lt_of_lt_two_pow ?_ (by omega)
  calc m * n < 2 ^ (m.log2 + 1) * 2 ^ (n.log2 + 1) := Nat.mul_lt_mul'' Nat.lt_log2_self Nat.lt_log2_self
    _ = 2 ^ (m.log2 + n.log2 + 2) := by rw [← Nat.pow_add]; congr 1; omega

/-- Settles O45: the product has at most 48 bits, and its exponent is far inside the range of binary64. -/
theorem productsOfSinglesAreExact : Obligations.ProductsOfSinglesAreExact := by
  intro v w s t m n e g hv hw
  obtain ⟨hm, hmin, hmax⟩ := bounds_of_fits (hv ▸ fp32_fits v) (by decide) (by decide)
  obtain ⟨hn, hmin', hmax'⟩ := bounds_of_fits (hw ▸ fp32_fits w) (by decide) (by decide)
  simp only [binary32] at hm hn hmin hmin' hmax hmax'
  have hlt : m * n < 2 ^ binary64.prec := calc
    m * n < 2 ^ 24 * 2 ^ 24 := Nat.mul_lt_mul'' hm hn
    _ ≤ 2 ^ binary64.prec := by decide
  have hlog := log2_mul_lt m n
  have hexact : mul64 (.fin s m e) (.fin t n g) = fpExact (s ^^ t) (m * n) (e + g) :=
    fpRound_exact _ hlt (by simp only [binary64]; omega) (by simp only [binary64]; omega)
  rw [hv, hw, hexact, fpExact_toRat, ← fpRat_mul]
  exact ⟨rfl, exists_fpExact ..⟩

/-! ### Stored binary32 values -/

/-- The magnitude bits of a number whose last kept bit is `q`: its significand in units of 2^q, and `q` as the
exponent. -/
theorem fpMagnitude_of_fpExact {f : FpFormat} {s t : Bool} {m k : Nat} {e g q : Int} (hm : m ≠ 0)
    (hq : fpLastBit f (e + m.log2) = q) (hle : q ≤ e) (h : fpExact s m e = .fin t k g) :
    fpMagnitude f k g = m * 2 ^ (e - q).toNat + (q - f.lsbMin).toNat * 2 ^ (f.prec - 1) := by
  obtain ⟨n, z, hexact, hmul, hodd⟩ := fpExact_eq s hm e
  rw [hexact, Fp.fin.injEq] at h
  obtain ⟨-, rfl, rfl⟩ := h
  have hn : n ≠ 0 := by rintro rfl; cases hodd
  have htop : e + z + (n.log2 : Int) = e + m.log2 := by rw [hmul, log2_mul_pow hn]; omega
  have hpow : (e + z - q).toNat = z + (e - q).toNat := by omega
  simp only [fpMagnitude, if_neg hn, htop, hq]
  rw [hpow, Nat.pow_add, ← Nat.mul_assoc, ← hmul]

/-- The pattern of the datum of a word holds its fields. -/
theorem fpEncode_singleOf (nanBits : Nat) (s : Bool) {ex frac : Nat} (hfrac : frac < 2 ^ 23)
    (h : singleOf s ex frac ≠ .nan) :
    fpEncode binary32 nanBits (singleOf s ex frac) = s.toNat * 2 ^ 31 + ex * 2 ^ 23 + frac := by
  have hfin (t : Bool) (k : Nat) (g : Int) :
      fpEncode binary32 nanBits (.fin t k g) = t.toNat * 2 ^ 31 + fpMagnitude binary32 k g := rfl
  unfold singleOf at h ⊢
  split at h
  next hex =>
    split at h
    next hz => rw [if_pos hex, if_pos hz, hex, hz]; simp [fpEncode, binary32]
    next => exact absurd rfl h
  next hex =>
    rw [if_neg hex]
    split
    next hsub =>
      by_cases hz : frac = 0
      · rw [hz, fpExact_zero, hfin, hsub, fpMagnitude, if_pos rfl, Nat.zero_mul]
      · obtain ⟨k, g, hexact⟩ := exists_fpExact s frac (-149)
        have := log2_lt_of_lt_two_pow hfrac (by norm_num)
        have hq : fpLastBit binary32 (-149 + frac.log2) = -149 := by simp only [fpLastBit, binary32]; omega
        rw [hexact, hfin, fpMagnitude_of_fpExact hz hq le_rfl hexact, hsub]
        simp [binary32]
    next hnorm =>
      obtain ⟨k, g, hexact⟩ := exists_fpExact s (2 ^ 23 + frac) (ex - 150)
      have hq : fpLastBit binary32 (ex - 150 + (2 ^ 23 + frac).log2) = ex - 150 := by
        rw [log2_normal hfrac]
        simp only [fpLastBit, binary32]
        omega
      rw [hexact, hfin, fpMagnitude_of_fpExact (by omega) hq le_rfl hexact, sub_self]
      simp only [binary32, Int.toNat_zero]
      omega

/-- A word that is not a NaN is stored as itself. -/
theorem fp32Bits_fp32 (d k : Nat) {w : Word} (h : fp32 w ≠ .nan) : fp32Bits d k (fp32 w) = w := by
  rw [fp32_eq_singleOf] at h
  have hs : (w.getLsbD 31).toNat = w.toNat / 2 ^ 31 % 2 := by
    rw [BitVec.getLsbD, Nat.toNat_testBit]
  rw [fp32Bits, fp32_eq_singleOf, fpEncode_singleOf _ _ (Nat.mod_lt _ (by norm_num)) h, hs]
  apply BitVec.eq_of_toNat_eq
  have := w.isLt
  rw [BitVec.toNat_ofNat]
  omega

/-- The pattern a NaN is stored as is one of a NaN. -/
theorem fp32_fp32Bits_nan (d k : Nat) : fp32 (fp32Bits d k .nan) = .nan := by
  have hbits : freeNan32 d k = (Config.freeNanSign d k).toNat * 2 ^ 31 + 255 * 2 ^ 23 +
      ((Config.freeNanPayload d k).val + 1) := rfl
  have hlt := (Config.freeNanPayload d k).isLt
  change fp32 (BitVec.ofNat 32 (freeNan32 d k)) = .nan
  rw [hbits, fp32_ofFields _ (by norm_num) (by omega), singleOf, if_pos rfl, if_neg (by omega)]

/-- Every value of binary32 is the datum of a word. -/
theorem exists_singleOf {s : Bool} {m : Nat} {e : Int} (h : fpFits binary32 (.fin s m e) = true) :
    ∃ ex frac, ex < 256 ∧ frac < 2 ^ 23 ∧ singleOf s ex frac = .fin s m e := by
  obtain ⟨hm, hmin, hmax⟩ := bounds_of_fits h (by decide) (by decide)
  have hexact := fpExact_of_fits h
  simp only [binary32] at hm hmin hmax
  by_cases hm0 : m = 0
  · subst hm0
    exact ⟨0, 0, by norm_num, by norm_num, hexact ▸ by simp [singleOf]⟩
  have hlog := log2_lt_of_lt_two_pow hm (by norm_num)
  by_cases hsub : e + m.log2 < -126
  · refine ⟨0, m * 2 ^ (e + 149).toNat, by norm_num, ?_, ?_⟩
    · rw [← Nat.log2_lt (Nat.mul_ne_zero hm0 (Nat.two_pow_pos _).ne'), log2_mul_pow hm0]
      omega
    · rw [singleOf, if_neg (by norm_num), if_pos rfl, fpExact_mul_two_pow, ← hexact]
      congr 1
      omega
  · have hlead := log2_mul_pow hm0 (23 - m.log2)
    rw [Nat.add_sub_of_le (by omega),
      Nat.log2_eq_iff (Nat.mul_ne_zero hm0 (Nat.two_pow_pos _).ne')] at hlead
    obtain ⟨hge, hlt⟩ := hlead
    refine ⟨(e + m.log2 + 127).toNat, m * 2 ^ (23 - m.log2) - 2 ^ 23, by omega, by omega, ?_⟩
    rw [singleOf, if_neg (by omega), if_neg (by omega), Nat.add_sub_of_le hge, fpExact_mul_two_pow, ← hexact]
    congr 1
    omega

/-- A value of binary32 that is not a NaN is the datum of a word. -/
theorem exists_fp32 {x : Fp} (hfits : fpFits binary32 x = true) (hnan : x ≠ .nan) : ∃ w, fp32 w = x := by
  cases x with
  | nan => exact absurd rfl hnan
  | inf s => exact ⟨_, fp32_ofFields s (ex := 255) (frac := 0) (by norm_num) (by norm_num)⟩
  | fin s m e =>
    obtain ⟨ex, frac, hex, hfrac, h⟩ := exists_singleOf hfits
    exact ⟨_, (fp32_ofFields s hex hfrac).trans h⟩

/-- The real number of the datum of a word that is neither an infinity nor a NaN. -/
theorem singleOf_finite (s : Bool) {ex : Nat} (hex : ex ≠ 255) (frac : Nat) :
    ∃ m e, singleOf s ex frac = .fin s m e ∧ (fpRat (singleOf s ex frac) : ℚ) = (if s then -1 else 1) *
      (if ex = 0 then (frac : ℚ) * 2 ^ (-149 : ℤ) else ((2 ^ 23 + frac : Nat) : ℚ) * 2 ^ ((ex : ℤ) - 150)) := by
  rw [singleOf, if_neg hex]
  split
  all_goals
    obtain ⟨m, e, h⟩ := exists_fpExact s _ _
    exact ⟨m, e, h, by rw [fpExact_toRat, mul_assoc]⟩

/-- Settles O46: the fields of a word give its datum and are given back by it, and every value of binary32 has its
word. -/
theorem storedFloatsReadBack : Obligations.StoredFloatsReadBack := by
  refine ⟨fun w => ?_, fun d k w h => fp32Bits_fp32 d k h, fp32_fp32Bits_nan, fun d k x => ?_⟩
  · dsimp only
    rw [fp32_eq_singleOf]
    split
    next hex => rw [hex, singleOf, if_pos rfl]
    next hex => exact singleOf_finite _ hex _
  · by_cases hnan : cvt32 x = .nan
    · rw [hnan, fp32_fp32Bits_nan]
    · obtain ⟨w, hw⟩ := exists_fp32 (cvt32_fits x) hnan
      rw [← hw, fp32Bits_fp32 d k (hw ▸ hnan)]

/-! ### Special values -/

/-- Conversion keeps every value of binary32. -/
theorem cvt32_of_fits {x : Fp} (h : fpFits binary32 x = true) : cvt32 x = x := by
  cases x with
  | nan => rfl
  | inf s => rfl
  | fin s m e => exact fpRound_of_fits h (by decide) (by decide)

/-- Conversion overflows at the latest at 2^128, which is above the threshold of binary32. -/
theorem cvt32_overflow (s : Bool) {m : Nat} {e : Int} (h : (2 : ℚ) ^ (128 : ℤ) ≤ (m : ℚ) * 2 ^ e) :
    cvt32 (.fin s m e) = .inf s := by
  obtain ⟨hp, hrange⟩ := format_bounds (.inl rfl : binary32 = binary32 ∨ _)
  have hm : m ≠ 0 := by
    rintro rfl
    norm_num at h
  refine (fpRound_inf_iff (K := ℚ) hp hrange hm (rounded_kept hm e) s).2 (le_trans ?_ h)
  norm_num [overflowThreshold, binary32]

/-- Settles O47: each operation answers an operand that is not finite by its sign; the rest is what `cvt32` keeps. -/
theorem specialValuesFollowIeee : Obligations.SpecialValuesFollowIeee := by
  refine ⟨fun p h => ?_, fun p h => ?_, fun p h => ?_, fun p h => ?_, fun p h => ?_, fun x => ?_,
    fun s t e => ⟨rfl, rfl⟩, fun s t m e hm => ⟨if_neg hm, ?_⟩, fun s t m e => ⟨rfl, rfl, rfl, rfl, rfl, rfl⟩,
    fun s t => ⟨rfl, rfl⟩, fun s => ?_, rfl, fun s => rfl, fun s m e h => cvt32_overflow s h, fun x h => cvt32_of_fits h,
    fun w => cvt32_of_fits (fp32_fits w)⟩
  · rw [firRecip, h]; decide
  · rw [firRecip, h]; decide
  · rw [firRecip, h]; decide
  · rw [firRecip, h]; decide
  · rw [firRecip, h, div64_nan_right]
  · simp [sub64, fpNeg]
  · rw [Bool.xor_comm]
    exact if_neg hm
  · cases s <;> decide

end Sys2Proof.Machine
end

section
/-! PROOFS. Quotients and square roots (00_scope.md R8): 55 or more bits and a sticky bit round as the exact number
does. -/

namespace Sys2Proof.Machine

/-! ### The sticky bit -/

section
variable {K : Type*} [Field K] [LinearOrder K] [IsStrictOrderedRing K]

/-- Two numbers lie on the same side of every multiple of `u`. -/
def SameSide (X Y u : K) : Prop := ∀ c : Int, (X < c * u ↔ Y < c * u) ∧ (c * u < X ↔ c * u < Y)

omit [IsStrictOrderedRing K] in
theorem SameSide.mul_natCast {X Y u : K} (h : SameSide X Y u) (j : Nat) : SameSide X Y (j * u) := by
  intro c
  have hc := h (c * j)
  rwa [Int.cast_mul, Int.cast_natCast, mul_assoc] at hc

/-- A sticky bit stands for what lies strictly between two neighbours. -/
theorem sameSide_sticky {d b : Nat} {X u : K} (hu : 0 < u)
    (h : b = 0 ∧ X = d * u ∨ b = 1 ∧ d * u < X ∧ X < (d + 1) * u) :
    SameSide X ((2 * d + b : Nat) * (u / 2)) u := by
  obtain ⟨rfl, rfl⟩ | ⟨rfl, hlow, hhigh⟩ := h
  · have hY : ((2 * d + 0 : Nat) : K) * (u / 2) = d * u := by push_cast; ring
    rw [hY]
    exact fun c => ⟨Iff.rfl, Iff.rfl⟩
  · have hY : ((2 * d + 1 : Nat) : K) * (u / 2) = d * u + u / 2 := by push_cast; ring
    rw [hY]
    intro c
    obtain hc | hc := le_or_gt c d
    · have hle : (c : K) * u ≤ d * u := mul_le_mul_of_nonneg_right (by exact_mod_cast hc) hu.le
      exact ⟨iff_of_false (by linarith) (by linarith), iff_of_true (by linarith) (by linarith)⟩
    · have hle : ((d : K) + 1) * u ≤ c * u := mul_le_mul_of_nonneg_right (by exact_mod_cast hc) hu.le
      exact ⟨iff_of_true (by linarith) (by linarith), iff_of_false (by linarith) (by linarith)⟩

section
variable {X Y w : K} (hs : SameSide X Y w)
include hs

omit [IsStrictOrderedRing K] in
theorem SameSide.le_iff (c : Int) : (X ≤ c * w ↔ Y ≤ c * w) ∧ (c * w ≤ X ↔ c * w ≤ Y) := by
  obtain ⟨hlt, hgt⟩ := hs c
  exact ⟨by rw [← not_lt, hgt, not_lt], by rw [← not_lt, hlt, not_lt]⟩

omit [IsStrictOrderedRing K] in
theorem SameSide.eq_of_eq {c : Int} (h : X = c * w) : Y = c * w :=
  le_antisymm ((hs.le_iff c).1.1 h.le) ((hs.le_iff c).2.1 h.ge)

theorem SameSide.near {c : Int} (h : |Y - c * (2 * w)| ≤ w) : |X - c * (2 * w)| ≤ w := by
  have hlow := (hs.le_iff (2 * c - 1)).2
  have hhigh := (hs.le_iff (2 * c + 1)).1
  push_cast at hlow hhigh
  obtain ⟨h1, h2⟩ := abs_le.1 h
  have hX1 := hlow.2 (by linarith)
  have hX2 := hhigh.2 (by linarith)
  exact abs_le.2 ⟨by linarith, by linarith⟩

theorem SameSide.tie (hw : 0 < w) {c : Int} (h : |X - c * (2 * w)| = w) : |Y - c * (2 * w)| = w := by
  have hlow := hs.eq_of_eq (c := 2 * c - 1)
  have hhigh := hs.eq_of_eq (c := 2 * c + 1)
  push_cast at hlow hhigh
  obtain h | h := (abs_eq hw.le).1 h
  · exact (abs_eq hw.le).2 (.inl (by linarith [hhigh (by linarith)]))
  · exact (abs_eq hw.le).2 (.inr (by linarith [hlow (by linarith)]))

end

/-- What a format keeps depends only on the sides of the multiples of half its last bit. -/
theorem Rounded.of_sameSide {f : FpFormat} {X Y : K} {n : Nat} {q : Int} (hr : Rounded f Y n q)
    (hs : SameSide X Y (2 ^ (q - 1))) : Rounded f X n q := by
  have hw : (0 : K) < 2 ^ (q - 1) := two_zpow_pos _
  have hq : (2 : K) ^ q = 2 * 2 ^ (q - 1) := by
    rw [← zpow_one_add₀ two_ne_zero]
    congr 1
    omega
  have hhalf : (2 : K) ^ q / 2 = 2 ^ (q - 1) := by rw [hq, mul_div_cancel_left₀ _ two_ne_zero]
  have hpow (j : Nat) {a : Int} (ha : a = q - 1 + j) : (2 : K) ^ a = ((2 ^ j : Nat) : Int) * 2 ^ (q - 1) := by
    rw [ha, two_zpow_add, zpow_natCast, mul_comm]
    push_cast
    rfl
  obtain ⟨hnear, htie, hlsb, hlead, hsmall⟩ := hr
  rw [hhalf, hq, ← Int.cast_natCast (R := K) n] at hnear htie
  rw [hpow f.prec (by omega)] at hlead
  rw [hpow (f.prec + 1) (by omega)] at hsmall
  refine ⟨?_, ?_, hlsb, hlead.imp_right fun h => ?_, ?_⟩
  · rw [hhalf, hq, ← Int.cast_natCast (R := K) n]
    exact hs.near hnear
  · rw [hhalf, hq, ← Int.cast_natCast (R := K) n]
    exact fun h => htie (hs.tie hw h)
  · rw [hpow f.prec (by omega)]
    exact (hs.le_iff _).2.2 h
  · rw [hpow (f.prec + 1) (by omega)]
    exact (hs _).1.2 hsmall

/-- 54 or more bits of a number and a sticky bit keep in binary64 what the number does. -/
theorem rounded_sticky {d b : Nat} {X : K} {a : Int} (hd : 2 ^ 53 ≤ d)
    (h : b = 0 ∧ X = d * 2 ^ a ∨ b = 1 ∧ d * 2 ^ a < X ∧ X < (d + 1) * 2 ^ a) :
    Rounded binary64 X (kept binary64 (2 * d + b) (a - 1)) (keptExp binary64 (2 * d + b) (a - 1)) := by
  have hne : 2 * d + b ≠ 0 := by omega
  have hlog : 54 ≤ (2 * d + b).log2 := (Nat.le_log2 hne).2 (by omega)
  have hlast : a - 1 + (2 * d + b).log2 - 52 ≤ keptExp binary64 (2 * d + b) (a - 1) := le_max_left _ _
  refine (rounded_kept hne (a - 1)).of_sameSide ?_
  have hside := (sameSide_sticky (two_zpow_pos a) h).mul_natCast
    (2 ^ (keptExp binary64 (2 * d + b) (a - 1) - 1 - a).toNat)
  have hunit : (2 : K) ^ a / 2 = 2 ^ (a - 1) := by rw [zpow_sub_one₀ two_ne_zero, div_eq_mul_inv]
  have hgrid : ((2 ^ (keptExp binary64 (2 * d + b) (a - 1) - 1 - a).toNat : Nat) : K) * 2 ^ a =
      2 ^ (keptExp binary64 (2 * d + b) (a - 1) - 1) := by
    rw [Nat.cast_pow, Nat.cast_ofNat, ← zpow_natCast, ← two_zpow_add]
    congr 1
    omega
  rwa [hunit, hgrid] at hside

end

/-- Rounding answers an infinity or a finite value, of the sign given. -/
theorem fpRound_cases (f : FpFormat) (neg : Bool) (m : Nat) (e : Int) :
    fpRound f neg m e = .inf neg ∨ ∃ k g, fpRound f neg m e = .fin neg k g := by
  by_cases hm : m = 0
  · exact .inr ⟨0, 0, by rw [hm]; rfl⟩
  · rw [fpRound_of_ne_zero f neg hm]
    split
    · exact .inl rfl
    · exact .inr (exists_fpExact ..)

/-! ### Quotients -/

/-- The quotient and the remainder bracket the exact quotient. -/
theorem quotient_bracket {n : Nat} (hn : n ≠ 0) (m k : Nat) (e g : Int) :
    let X := (m : ℚ) * 2 ^ e / (n * 2 ^ g)
    let d := m * 2 ^ k / n
    m * 2 ^ k % n = 0 ∧ X = d * 2 ^ (e - g - k) ∨
      m * 2 ^ k % n ≠ 0 ∧ d * 2 ^ (e - g - k) < X ∧ X < (d + 1) * 2 ^ (e - g - k) := by
  intro X d
  have hu : (0 : ℚ) < 2 ^ (e - g - k) := two_zpow_pos _
  have hnpos : (0 : ℚ) < n := by exact_mod_cast Nat.pos_of_ne_zero hn
  have hX : X = (m * 2 ^ k : Nat) / n * 2 ^ (e - g - k) := by
    have hpow : (2 : ℚ) ^ e = 2 ^ k * 2 ^ (e - g - k) * 2 ^ g := by
      rw [← zpow_natCast, ← two_zpow_add, ← two_zpow_add]
      congr 1
      omega
    have hg : (2 : ℚ) ^ g ≠ 0 := (two_zpow_pos _).ne'
    simp only [X, hpow]
    push_cast
    field_simp
  have hdm := Nat.div_add_mod (m * 2 ^ k) n
  have hlt := Nat.mod_lt (m * 2 ^ k) (Nat.pos_of_ne_zero hn)
  change n * d + _ = _ at hdm
  rw [hX]
  generalize m * 2 ^ k = a at *
  by_cases hr : a % n = 0
  · refine .inl ⟨hr, ?_⟩
    have ha : (a : ℚ) = n * d := by exact_mod_cast (by omega : a = n * d)
    rw [ha, mul_div_cancel_left₀ _ hnpos.ne']
  · refine .inr ⟨hr, mul_lt_mul_of_pos_right ?_ hu, mul_lt_mul_of_pos_right ?_ hu⟩
    · rw [lt_div_iff₀ hnpos]
      exact_mod_cast (by rw [Nat.mul_comm]; omega : d * n < a)
    · rw [div_lt_iff₀ hnpos]
      exact_mod_cast (by rw [Nat.add_mul, Nat.mul_comm d]; omega : a < (d + 1) * n)

/-- A quotient is rounded once, as the exact quotient is. -/
theorem fpQuotient_rounds {m n : Nat} (hm : m ≠ 0) (hn : n ≠ 0) (e g : Int) : ∃ (a : Nat) (h : Int), a ≠ 0 ∧
    (∀ neg, fpQuotient neg m e n g = fpRound binary64 neg a h) ∧
    Rounded binary64 ((m : ℚ) * 2 ^ e / (n * 2 ^ g)) (kept binary64 a h) (keptExp binary64 a h) := by
  have hd : 2 ^ 53 ≤ m * 2 ^ (55 + n.log2) / n := by
    rw [Nat.le_div_iff_mul_le (Nat.pos_of_ne_zero hn)]
    calc 2 ^ 53 * n ≤ 2 ^ 53 * 2 ^ (n.log2 + 1) := Nat.mul_le_mul_left _ Nat.lt_log2_self.le
      _ ≤ 2 ^ (55 + n.log2) := by rw [← Nat.pow_add]; exact Nat.pow_le_pow_right two_pos (by omega)
      _ ≤ m * 2 ^ (55 + n.log2) := Nat.le_mul_of_pos_left _ (Nat.pos_of_ne_zero hm)
  refine ⟨_, _, by omega, fun neg => rfl, rounded_sticky hd ?_⟩
  obtain ⟨hr, h⟩ | ⟨hr, h⟩ := quotient_bracket hn m (55 + n.log2) e g
  · exact .inl ⟨if_pos hr, h⟩
  · exact .inr ⟨if_neg hr, h⟩

theorem overflowThreshold_binary64 (K : Type*) [Field K] :
    overflowThreshold K binary64 = (2 - 2 ^ (-53 : Int)) * 2 ^ (1023 : Int) := rfl

theorem abs_fpRat (s : Bool) (m : Nat) (e : Int) : |fpRat (.fin s m e)| = (m : ℚ) * 2 ^ e := by
  have hpos : (0 : ℚ) ≤ m * 2 ^ e := mul_nonneg (Nat.cast_nonneg m) (two_zpow_pos e).le
  cases s <;> simp [fpRat, abs_of_nonneg hpos]

theorem abs_fpRat_pos {m : Nat} (hm : m ≠ 0) (s : Bool) (e : Int) : 0 < |fpRat (.fin s m e)| := by
  rw [abs_fpRat]
  exact mul_pos (by exact_mod_cast Nat.pos_of_ne_zero hm) (two_zpow_pos e)

theorem fpRat_zero (s : Bool) (e : Int) : fpRat (.fin s 0 e) = 0 := by simp [fpRat]

/-- The dividend is the quotient, with the exclusive or of the signs, times the divisor. -/
theorem fpRat_eq_quotient_mul {n : Nat} (hn : n ≠ 0) (s t : Bool) (m : Nat) (e g : Int) :
    fpRat (.fin s m e) = signed (s ^^ t) ((m : ℚ) * 2 ^ e / (n * 2 ^ g)) * fpRat (.fin t n g) := by
  have hn' : (n : ℚ) ≠ 0 := by exact_mod_cast hn
  have hg : (2 : ℚ) ^ g ≠ 0 := (two_zpow_pos _).ne'
  cases s <;> cases t <;> simp [fpRat, signed] <;> field_simp

/-- A quotient by a number that is not zero. -/
theorem div64_fin_of_ne_zero {m n : Nat} (hm : m ≠ 0) (hn : n ≠ 0) (s t : Bool) (e g : Int) :
    div64 (.fin s m e) (.fin t n g) = fpQuotient (s ^^ t) m e n g := by
  rw [div64, if_neg hn, if_neg hm]

/-- The value with this sign, significand and exponent is nearest the quotient of `x` by `y`, of two the even one. -/
def NearestQuotient (x y : ℚ) (u : Bool) (k : Nat) (h : ℤ) : Prop :=
  ∀ (v : Bool) (l : Nat) (i : ℤ), fpFits binary64 (.fin v l i) = true →
    |x - fpRat (.fin u k h) * y| ≤ |x - fpRat (.fin v l i) * y| ∧
    (|x - fpRat (.fin u k h) * y| = |x - fpRat (.fin v l i) * y| →
      fpRat (.fin v l i) ≠ fpRat (.fin u k h) → fpEncode binary64 0 (.fin false k h) % 2 = 0)

theorem nearestQuotient_zero (y : ℚ) (u : Bool) : NearestQuotient 0 y u 0 0 := by
  intro v l i _
  have heven : fpEncode binary64 0 (.fin false 0 0) % 2 = 0 := by simp [fpEncode, fpMagnitude]
  rw [fpRat_zero, zero_mul, sub_self, abs_zero]
  exact ⟨abs_nonneg _, fun _ _ => heven⟩

section
variable {m n : Nat} (hm : m ≠ 0) (hn : n ≠ 0) (s t : Bool) (e g : Int)
include hm hn

/-- A quotient overflows exactly from the threshold on. -/
theorem div64_overflow_iff : div64 (.fin s m e) (.fin t n g) = .inf (s ^^ t) ↔
    overflowThreshold ℚ binary64 * |fpRat (.fin t n g)| ≤ |fpRat (.fin s m e)| := by
  obtain ⟨hp, hrange⟩ := format_bounds (.inr rfl : _ ∨ binary64 = binary64)
  obtain ⟨a, b, ha, hround, hr⟩ := fpQuotient_rounds hm hn e g
  rw [div64_fin_of_ne_zero hm hn, hround, fpRound_inf_iff hp hrange ha hr, abs_fpRat, abs_fpRat, le_div_iff₀]
  exact mul_pos (by exact_mod_cast Nat.pos_of_ne_zero hn) (two_zpow_pos g)

theorem div64_cases : div64 (.fin s m e) (.fin t n g) = .inf (s ^^ t) ∨
    ∃ k h, div64 (.fin s m e) (.fin t n g) = .fin (s ^^ t) k h := by
  rw [div64_fin_of_ne_zero hm hn]
  exact fpRound_cases ..

/-- A finite quotient is a nearest value. -/
theorem div64_nearest {u : Bool} {k : Nat} {h : Int} (hres : div64 (.fin s m e) (.fin t n g) = .fin u k h) :
    NearestQuotient (fpRat (.fin s m e)) (fpRat (.fin t n g)) u k h := by
  obtain ⟨hp, -⟩ := format_bounds (.inr rfl : _ ∨ binary64 = binary64)
  obtain ⟨a, b, ha, hround, hr⟩ := fpQuotient_rounds hm hn e g
  have hy := abs_fpRat_pos hn t g
  rw [div64_fin_of_ne_zero hm hn, hround] at hres
  intro v l i hv
  obtain ⟨hle, htie⟩ := (fpRound_nearest hp ha hr _ hres).2 v l i hv
  rw [fpRat_eq_quotient_mul hn s t m e g, ← sub_mul, ← sub_mul, abs_mul, abs_mul]
  exact ⟨mul_le_mul_of_nonneg_right hle hy.le, fun heq => htie (mul_right_cancel₀ hy.ne' heq)⟩

end

/-! ### Square roots -/

theorem natSqrtFrom_spec (n : Nat) {b r : Nat} (hlow : r * r ≤ n) (hhigh : n < (r + 2 ^ b) * (r + 2 ^ b)) :
    natSqrtFrom n b r * natSqrtFrom n b r ≤ n ∧ n < (natSqrtFrom n b r + 1) * (natSqrtFrom n b r + 1) := by
  induction b generalizing r with
  | zero => exact ⟨hlow, hhigh⟩
  | succ b ih =>
    rw [natSqrtFrom]
    split
    next h => exact ih h (by rwa [Nat.add_assoc, ← Nat.two_mul, ← Nat.pow_succ'])
    next h => exact ih hlow (Nat.lt_of_not_le h)

/-- Trial bits find the integer square root. -/
theorem natSqrt_eq (n : Nat) : natSqrt n = n.sqrt := by
  refine Nat.eq_sqrt.2 (natSqrtFrom_spec n (Nat.zero_le _) ?_)
  rw [Nat.zero_add, ← Nat.pow_add]
  exact Nat.lt_log2_self.trans_le (Nat.pow_le_pow_right two_pos (by omega))

/-- The integer square root brackets the exact root. -/
theorem sqrt_bracket (m k : Nat) {e c : Int} (hc : e - k = 2 * c) :
    let X := √((m : ℝ) * 2 ^ e)
    let d := natSqrt (m * 2 ^ k)
    d * d = m * 2 ^ k ∧ X = d * 2 ^ c ∨ d * d ≠ m * 2 ^ k ∧ d * 2 ^ c < X ∧ X < (d + 1) * 2 ^ c := by
  intro X d
  have hu : (0 : ℝ) < 2 ^ c := two_zpow_pos _
  have hX : X = √(m * 2 ^ k : Nat) * 2 ^ c := by
    have hpow : (2 : ℝ) ^ e = 2 ^ k * (2 ^ c * 2 ^ c) := by
      rw [← zpow_natCast, ← two_zpow_add, ← two_zpow_add]
      congr 1
      omega
    simp only [X, hpow]
    push_cast
    rw [← mul_assoc, Real.sqrt_mul (by positivity), Real.sqrt_mul_self hu.le]
  have hd : d = (m * 2 ^ k).sqrt := natSqrt_eq _
  have hlow : d * d ≤ m * 2 ^ k := hd ▸ Nat.sqrt_le _
  have hhigh : m * 2 ^ k < (d + 1) * (d + 1) := hd ▸ Nat.lt_succ_sqrt _
  rw [hX]
  generalize m * 2 ^ k = a at *
  by_cases hr : d * d = a
  · refine .inl ⟨hr, ?_⟩
    rw [← hr, Nat.cast_mul, Real.sqrt_mul_self (Nat.cast_nonneg d)]
  · refine .inr ⟨hr, mul_lt_mul_of_pos_right ?_ hu, mul_lt_mul_of_pos_right ?_ hu⟩
    · rw [Real.lt_sqrt (Nat.cast_nonneg d), sq]
      exact_mod_cast lt_of_le_of_ne hlow hr
    · rw [Real.sqrt_lt' (by positivity), sq]
      exact_mod_cast hhigh

/-- A root is rounded once, as the exact root is. -/
theorem fpRoot_rounds {m : Nat} (hm : m ≠ 0) (e : Int) : ∃ (a : Nat) (h : Int), a ≠ 0 ∧
    fpRoot m e = fpRound binary64 false a h ∧
    Rounded binary64 √((m : ℝ) * 2 ^ e) (kept binary64 a h) (keptExp binary64 a h) := by
  have hd : 2 ^ 53 ≤ natSqrt (m * 2 ^ (110 + (e % 2).toNat)) := by
    rw [natSqrt_eq, Nat.le_sqrt, ← Nat.pow_add]
    calc 2 ^ (53 + 53) ≤ 2 ^ (110 + (e % 2).toNat) := Nat.pow_le_pow_right two_pos (by omega)
      _ ≤ m * 2 ^ (110 + (e % 2).toNat) := Nat.le_mul_of_pos_left _ (Nat.pos_of_ne_zero hm)
  have hc : e - (110 + (e % 2).toNat : Nat) = 2 * ((e - (110 + (e % 2).toNat : Nat)) / 2) := by omega
  refine ⟨_, _, by omega, rfl, rounded_sticky hd ?_⟩
  obtain ⟨hr, h⟩ | ⟨hr, h⟩ := sqrt_bracket m _ hc
  · exact .inl ⟨if_pos hr, h⟩
  · exact .inr ⟨if_neg hr, h⟩

/-- The root of a binary64 number is far below the overflow threshold. -/
theorem sqrt_lt_threshold {m : Nat} {e : Int} (h : fpFits binary64 (.fin false m e) = true) :
    √((m : ℝ) * 2 ^ e) < overflowThreshold ℝ binary64 := by
  obtain ⟨-, -, htop⟩ := bounds_of_fits h (by decide) (by decide)
  have hlt : (m : ℝ) * 2 ^ e < 2 ^ (1024 : Int) :=
    (lt_two_zpow_log2 m e).trans_le (two_zpow_le (by simp only [binary64] at htop; omega))
  calc √((m : ℝ) * 2 ^ e) < 2 ^ (512 : Int) := by
        rw [Real.sqrt_lt' (two_zpow_pos _), sq, ← two_zpow_add]
        exact hlt
    _ ≤ 1 * 2 ^ (1023 : Int) := by rw [one_mul]; exact two_zpow_le (by norm_num)
    _ ≤ overflowThreshold ℝ binary64 := by
        rw [overflowThreshold_binary64]
        exact mul_le_mul_of_nonneg_right (by norm_num) (two_zpow_pos _).le

/-- A number nearer one value than another lies on its side of their midpoint. -/
theorem midpoint_of_nearest {X R V : ℝ} (h : |X - R| ≤ |X - V|) :
    (R < V → X ≤ (R + V) / 2) ∧ (V < R → (R + V) / 2 ≤ X) := by
  have hsq := sq_le_sq.2 h
  exact ⟨fun hlt => by nlinarith, fun hlt => by nlinarith⟩

theorem fpRat_nonneg (m : Nat) (e : Int) : 0 ≤ fpRat (.fin false m e) := by
  rw [fpRat, if_neg Bool.false_ne_true, one_mul]
  exact mul_nonneg (Nat.cast_nonneg m) (two_zpow_pos e).le

/-- The root of a positive binary64 number is finite, and its square and the midpoints' compare as the root does. -/
theorem sqrt64_nearest {m : Nat} (hm : m ≠ 0) {e : Int} (hfits : fpFits binary64 (.fin false m e) = true) :
    ∃ (k : Nat) (h : Int), sqrt64 (.fin false m e) = .fin false k h ∧
      ∀ (l : Nat) (i : Int), fpFits binary64 (.fin false l i) = true →
        (fpRat (.fin false k h) < fpRat (.fin false l i) →
          fpRat (.fin false m e) ≤ ((fpRat (.fin false k h) + fpRat (.fin false l i)) / 2) ^ 2) ∧
        (fpRat (.fin false l i) < fpRat (.fin false k h) →
          ((fpRat (.fin false k h) + fpRat (.fin false l i)) / 2) ^ 2 ≤ fpRat (.fin false m e)) := by
  obtain ⟨hp, hrange⟩ := format_bounds (.inr rfl : _ ∨ binary64 = binary64)
  obtain ⟨a, b, ha, hround, hr⟩ := fpRoot_rounds hm e
  have hsqrt : sqrt64 (.fin false m e) = fpRound binary64 false a b := by
    rw [sqrt64, if_neg hm, if_neg Bool.false_ne_true, hround]
  rw [hsqrt]
  obtain h | ⟨k, h, hres⟩ := fpRound_cases binary64 false a b
  · exact absurd ((fpRound_inf_iff hp hrange ha hr false).1 h) (not_le.2 (sqrt_lt_threshold hfits))
  refine ⟨k, h, hres, fun l i hv => ?_⟩
  have hnear := ((fpRound_nearest hp ha hr false hres).2 false l i hv).1
  have hx : ((fpRat (.fin false m e) : ℚ) : ℝ) = √((m : ℝ) * 2 ^ e) ^ 2 := by
    rw [Real.sq_sqrt (mul_nonneg (Nat.cast_nonneg m) (two_zpow_pos e).le), fpRat]
    simp
  have hR : (0 : ℝ) ≤ fpRat (.fin false k h) := by exact_mod_cast fpRat_nonneg k h
  have hV : (0 : ℝ) ≤ fpRat (.fin false l i) := by exact_mod_cast fpRat_nonneg l i
  simp only [signed, Bool.false_eq_true, if_false, one_mul] at hnear
  obtain ⟨hle, hge⟩ := midpoint_of_nearest hnear
  constructor
  · intro hlt
    have hsq := pow_le_pow_left₀ (Real.sqrt_nonneg _) (hle (by exact_mod_cast hlt)) 2
    rw [← hx] at hsq
    exact_mod_cast hsq
  · intro hlt
    have hsq := pow_le_pow_left₀ (by linarith) (hge (by exact_mod_cast hlt)) 2
    rw [← hx] at hsq
    exact_mod_cast hsq

/-- Settles O44: the bits before rounding and the sticky bit stand for the exact quotient or root. -/
theorem quotientsAndRootsAreNearest : Obligations.QuotientsAndRootsAreNearest := by
  refine ⟨fun s t m n e g hn => ?_, fun m e hm hfits => ?_, fun s t m e g hm => ?_, fun s t m e g => ?_, fun x => ?_⟩
  · dsimp only
    rw [← overflowThreshold_binary64]
    by_cases hm : m = 0
    · subst hm
      have hres : div64 (.fin s 0 e) (.fin t n g) = .fin (s ^^ t) 0 0 := by rw [div64, if_neg hn, if_pos rfl]
      rw [fpRat_zero, abs_zero, if_neg (not_le.2 (mul_pos (overflowThreshold_pos _) (abs_fpRat_pos hn t g)))]
      exact ⟨0, 0, hres, fits_zero _ _, nearestQuotient_zero _ _⟩
    · have hinf := div64_overflow_iff hm hn s t e g
      split
      next h => exact hinf.2 h
      next h =>
        obtain ⟨k, g', hres⟩ := (div64_cases hm hn s t e g).resolve_left fun hcontra => h (hinf.1 hcontra)
        exact ⟨k, g', hres, hres ▸ div64_fits _ _, div64_nearest hm hn s t e g hres⟩
  · obtain ⟨k, h, hres, hmid⟩ := sqrt64_nearest hm hfits
    exact ⟨k, h, hres, hres ▸ sqrt64_fits _, hmid⟩
  · exact ⟨by rw [div64, if_pos rfl, if_neg hm], by rw [sqrt64, if_neg hm, if_pos rfl]⟩
  · exact ⟨by rw [div64, if_pos rfl, if_pos rfl], rfl, rfl, rfl, by rw [sqrt64, if_pos rfl], rfl, rfl⟩
  · exact ⟨div64_nan_left x, div64_nan_right x, rfl⟩

end Sys2Proof.Machine
end
